-- ==== Sys2Proof/Word.lean ====
section
/-! DEFINITION. The words of the DFC: bytes, the 16-bit halfwords of a command packet, and colours
(00_scope.md R9, 30_encoding.md R80, 20_memory.md R57). -/

namespace Sys2Proof

/-- A `u8` of R9: a byte of host operand memory, of the wire, or a panel command byte. -/
abbrev Byte := BitVec 8

/-- A `u16` of R9: one halfword of a command packet (R80), and the 16-bit registers of R23. -/
abbrev Halfword := BitVec 16

/-- A Color (R12, R57): "16-bit packed value"; equality is exact bit value, and no rule splits it
into channels. -/
abbrev Color := BitVec 16

/-- A command packet (R80): the list of halfwords `H[0], ..., H[n-1]`, issued as one unit. -/
abbrev Packet := List Halfword

end Sys2Proof
end

