-- ==== Sys2Proof/Config.lean ====
section
/-! DEFINITION. The parameters of 00_scope.md R7, as one plain record that the machine carries and
never changes (10_state.md R29, R38), the constraints the spec puts on them, and the free values:
constants with no body for everything the spec leaves to `any value` (93_implementation_defined.md). -/

namespace Sys2Proof

/-- One value for each of the four rotations (R7: `COLSTART[r]`, `ROWSTART[r]`, `MADCTL[r]`). -/
structure PerRotation (α : Type) where
  r0 : α
  r1 : α
  r2 : α
  r3 : α
deriving DecidableEq, Repr, Inhabited

/-- One glyph of `GLYPH_ROM` (R180): five column bytes, column 0 leftmost. -/
structure Glyph where
  c0 : Byte := 0
  c1 : Byte := 0
  c2 : Byte := 0
  c3 : Byte := 0
  c4 : Byte := 0
deriving DecidableEq, Repr, Inhabited

/-- What an entry of `INIT_SEQ` is for, in the words of R103. The role is the model's annotation
(log entry 5): it lets the skeleton of R103 be stated, and no command reads it. -/
inductive InitRole
  | softwareReset
  | sleepOut
  | frameRate
  | power
  | gamma
  | pixelFormat
  | displayOn
  | other
deriving DecidableEq, Repr, Inhabited

/-- The least delay R103 demands after an entry of this role, in ms (R229). -/
def InitRole.minDelay : InitRole → Nat
  | .softwareReset => 150
  | .sleepOut => 500
  | .displayOn => 100
  | .frameRate | .power | .gamma | .pixelFormat | .other => 0

/-- The roles R103 calls parameter blocks, and the pixel-format select "whose data selects 16-bit
colour": entries that carry data. -/
def InitRole.needsData : InitRole → Bool
  | .frameRate | .power | .gamma | .pixelFormat => true
  | .softwareReset | .sleepOut | .displayOn | .other => false

/-- An entry `(c, L, d)` of `INIT_SEQ` (R103): command byte, data bytes, delay in ms (0 for none). -/
structure InitEntry where
  role : InitRole
  cmd : Byte
  data : List Byte
  delay : Nat
deriving DecidableEq, Repr, Inhabited

/-- Strip one or more roles equal to `r` from the front; `none` if there is none. -/
def InitRole.stripBlock (r : InitRole) : List InitRole → Option (List InitRole)
  | [] => none
  | x :: xs => if x = r then some (xs.dropWhile (· = r)) else none

/-- The skeleton of R103 on the roles of the named entries, in order: software reset, sleep-out,
one or more frame-rate blocks, then power blocks, then gamma blocks, then pixel format, then
display-on. -/
def InitRole.skeleton : List InitRole → Bool
  | .softwareReset :: .sleepOut :: rest =>
    ((InitRole.stripBlock .frameRate rest).bind fun l₁ =>
      (InitRole.stripBlock .power l₁).bind fun l₂ => InitRole.stripBlock .gamma l₂)
        == some [.pixelFormat, .displayOn]
  | _ => false

/-- R103 for one entry: its delay is at least its role's minimum, and a parameter block has data. -/
def InitEntry.wf (e : InitEntry) : Bool :=
  decide (e.role.minDelay ≤ e.delay) && (!e.role.needsData || !e.data.isEmpty)

/-- R103: the entries meet their minima, the named ones stand in the skeleton's order (other entries
may stand among them), the first is the software reset (R221) and the last is display-on. -/
def initSeqWf (seq : List InitEntry) : Bool :=
  seq.all InitEntry.wf
    && InitRole.skeleton ((seq.map InitEntry.role).filter (· ≠ .other))
    && (seq.head?.map InitEntry.role == some .softwareReset)
    && (seq.getLast?.map InitEntry.role == some .displayOn)

/-- `BUF_FAIL_POLICY` (R7, R135): what a composite command does after a refused grant. -/
inductive BufFailPolicy
  | proceed   -- CONTINUE
  | abort     -- ABORT
deriving DecidableEq, Repr, Inhabited

/-- PanelConfig's six pin roles (R29). Only whether a backlight pin is given changes any rule. -/
structure Pins where
  clock : Nat := 0
  data : Nat := 0
  chipSelect : Nat := 0
  dataCommand : Nat := 0
  reset : Nat := 0
  backlight : Option Nat := none
deriving DecidableEq, Repr, Inhabited

/-- The implementation parameters of R7, fixed before block reset (R222) and read-only from then on
(R29, R38). The values written after `:=` only show that the constraints of `Config.wf` can be met;
nothing rests on them: a machine's values are a field of its state, and after power-on they are
`Config.params`, which has no body. -/
structure Config where
  /-- `MADCTL[r]`, the orientation byte of each rotation. -/
  madctl : PerRotation Byte := default
  /-- `COLSTART[r]`. -/
  colStart : PerRotation Halfword := default
  /-- `ROWSTART[r]`. -/
  rowStart : PerRotation Halfword := default
  cmdCaset : Byte := 0
  cmdRaset : Byte := 0
  cmdRamwr : Byte := 0
  cmdMadctl : Byte := 0
  cmdInvon : Byte := 0
  cmdInvoff : Byte := 0
  /-- `INIT_SEQ` (R103). -/
  initSeq : List InitEntry :=
    [⟨.softwareReset, 0, [], 150⟩, ⟨.sleepOut, 0, [], 500⟩, ⟨.frameRate, 0, [0], 0⟩,
     ⟨.power, 0, [0], 0⟩, ⟨.gamma, 0, [0], 0⟩, ⟨.pixelFormat, 0, [0], 0⟩,
     ⟨.displayOn, 0, [], 100⟩]
  /-- `T_RST_HIGH`, in ms. -/
  tRstHigh : Nat := 50
  /-- `T_RST_LOW`, in ms. -/
  tRstLow : Nat := 100
  /-- `T_RST_WAIT`, in ms. -/
  tRstWait : Nat := 200
  /-- `GLYPH_ROM` (R180): the glyphs of the codes 32 to 127. -/
  glyphRom : List Glyph := List.replicate 96 default
  pins : Pins := default
  /-- `HMEM_SIZE`, in bytes. -/
  hmemSize : Nat := 0
  /-- `BUF_MAY_FAIL`, "default true" (R7). -/
  bufMayFail : Bool := true
  bufFailPolicy : BufFailPolicy := default
  /-- `GRAM_COLS` and `GRAM_ROWS`, read by the reference panel only. -/
  gramCols : Halfword := 0
  gramRows : Halfword := 0
  /-- `BUS_HZ` and `BUS_ID`: inert, "no rule reads them" (R7). -/
  busHz : Nat := 0
  busId : Nat := 0
deriving DecidableEq, Repr, Inhabited

namespace Config

/-- `NATIVE_W` and `NATIVE_H` (R7), fixed by the source. -/
def nativeW : Halfword := 80
def nativeH : Halfword := 160

/-- The constraints R7, R100, R103 and R180 put on the parameters. -/
def wf (c : Config) : Bool :=
  decide (50 ≤ c.tRstHigh) && decide (100 ≤ c.tRstLow) && decide (200 ≤ c.tRstWait)
    && initSeqWf c.initSeq && decide (c.glyphRom.length = 96) && decide (c.hmemSize < 2 ^ 32)

end Config

/-- A parameter record together with the proof that it meets the spec's constraints. -/
structure WfConfig where
  cfg : Config := {}
  ok : cfg.wf = true := by decide
deriving Inhabited

namespace Config

/-- FREE VALUE (log entry 1). The parameters of the machine at power-on: every value the spec calls
OPEN (R7, U10), of which only `wf` is known. -/
opaque params : WfConfig

/-- FREE VALUE (log entry 2). The k-th answer of the bus-registration oracle (R101, U8). -/
opaque busDraw : Nat → Bool

/-- FREE VALUE (log entry 2). The k-th answer of the buffer-grant oracle (R134, U7). -/
opaque grantDraw : Nat → Bool

/-- FREE VALUE (log entry 3). The reference panel's window registers before the first window
(R61, U5), numbered 0 to 3. -/
opaque panelRegister : Nat → Halfword

/-- FREE VALUE (log entry 3). The reference panel's write pointer before the first window (R61, U5). -/
opaque panelPointer : Int × Int

/-- FREE VALUE (log entry 3). The contents of a panel memory cell that no pixel has written
(R61, U5), by column and row. -/
opaque gramPowerOn : Nat → Nat → Color

/-- FREE VALUE (log entry 3). Where the k-th pixel with an unspecified effect lands, as a column and
a row, and what it writes (R65, U1, U3). -/
opaque strayPixel : Nat → Nat × Nat × Color

/-- FREE VALUE (log entry 3). Whether the k-th pixel with an unspecified effect enters the panel-write
list (R64, R65, U1, U3). -/
opaque strayListed : Nat → Bool

/-- FREE VALUE (log entry 3). What the k-th window command with too few data bytes leaves in the
start and end registers of its axis (R63, U4). -/
opaque shortWindow : Nat → Halfword × Halfword

end Config
end Sys2Proof
end

