-- ==== Sys2Proof/Syntax.lean ====
section
/-! DEFINITION. The sixteen commands of the DFC (30_encoding.md R86, opcode_table.json), one
constructor per row, each with the operands of its format (R85). -/

namespace Sys2Proof

/-- A command with its decoded operands. Coordinates, extents and radii are integers (`s16` widened
to Z, R82 and R150); `val`, `on`, `scale`, `code` and `addr` are numbers the rules count with
(R82 to R84); colours are bits. `Instr.wf` holds the operand ranges. -/
inductive Instr
  /-- INIT (R100). -/
  | init
  /-- SET_ROTATION (R106). -/
  | setRotation (val : Nat)
  /-- SET_WINDOW (R108). -/
  | setWindow (x0 y0 x1 y1 : Int)
  /-- INVERT (R111). -/
  | invert (on : Nat)
  /-- GET_WIDTH (R113). -/
  | getWidth
  /-- GET_HEIGHT (R114). -/
  | getHeight
  /-- FILL_RECT (R131). -/
  | fillRect (x y w h : Int) (color : Color)
  /-- DRAW_PIXEL (R137). -/
  | drawPixel (x y : Int) (color : Color)
  /-- DRAW_IMAGE (R139); `addr` is the base of the pixel array in host operand memory. -/
  | drawImage (x y w h : Int) (addr : Nat)
  /-- LINE (R152). -/
  | line (x0 y0 x1 y1 : Int) (color : Color)
  /-- RECT (R155). -/
  | rect (x y w h : Int) (color : Color)
  /-- FILLED_RECT (R157). -/
  | filledRect (x y w h : Int) (color : Color)
  /-- CIRCLE (R159). -/
  | circle (x0 y0 r : Int) (color : Color)
  /-- FILLED_CIRCLE (R162). -/
  | filledCircle (x0 y0 r : Int) (color : Color)
  /-- DRAW_CHAR (R182). -/
  | drawChar (x y : Int) (scale code : Nat) (fg bg : Color)
  /-- DRAW_STRING (R187); `addr` is the address of the string in host operand memory. -/
  | drawString (x y : Int) (scale : Nat) (fg bg : Color) (addr : Nat)
deriving DecidableEq, Repr

end Sys2Proof
end

