-- ==== Sys2Proof/WellFormed.lean ====
section
/-! DEFINITION. Which commands exist as packets: the operand ranges of 30_encoding.md R82 to R84. R91
calls an s16, u16 or u8 operand outside its range an assembly error; of an address it says nothing
(log entry 15). -/

namespace Sys2Proof

/-- An `s16` operand (R82): -32768 to 32767. -/
def isS16 (v : Int) : Bool := decide (-32768 ≤ v) && decide (v ≤ 32767)

/-- A `u8` operand (R83). -/
def isU8 (v : Nat) : Bool := decide (v < 256)

/-- A `u16` operand (R82). -/
def isU16 (v : Nat) : Bool := decide (v < 65536)

/-- A `u32` host-memory address (R84). -/
def isU32 (v : Nat) : Bool := decide (v < 4294967296)

/-- Every operand lies in the range its field can hold (R82 to R84). -/
def Instr.wf : Instr → Bool
  | .init | .getWidth | .getHeight => true
  | .setRotation v => isU16 v
  | .invert v => isU16 v
  | .setWindow x0 y0 x1 y1 => isS16 x0 && isS16 y0 && isS16 x1 && isS16 y1
  | .fillRect x y w h _ => isS16 x && isS16 y && isS16 w && isS16 h
  | .drawPixel x y _ => isS16 x && isS16 y
  | .drawImage x y w h a => isS16 x && isS16 y && isS16 w && isS16 h && isU32 a
  | .line x0 y0 x1 y1 _ => isS16 x0 && isS16 y0 && isS16 x1 && isS16 y1
  | .rect x y w h _ => isS16 x && isS16 y && isS16 w && isS16 h
  | .filledRect x y w h _ => isS16 x && isS16 y && isS16 w && isS16 h
  | .circle x0 y0 r _ => isS16 x0 && isS16 y0 && isS16 r
  | .filledCircle x0 y0 r _ => isS16 x0 && isS16 y0 && isS16 r
  | .drawChar x y s c _ _ => isS16 x && isS16 y && isU8 s && isU8 c
  | .drawString x y s _ _ a => isS16 x && isS16 y && isU8 s && isU32 a

end Sys2Proof
end

