-- ==== Sys2Proof/Decode.lean ====
section
/-! DEFINITION. Packets to commands and back (30_encoding.md): the opcode map R86, the formats R85,
the operand fields R82 to R84, decode R87 with its rejections by name, and the encoder. Decoding
reads no state (R90). -/

namespace Sys2Proof

/-- Bits 7:0 of a halfword (R9). -/
def loByte (h : Halfword) : Byte := h.extractLsb' 0 8

/-- Bits 15:8 of a halfword (R9). -/
def hiByte (h : Halfword) : Byte := h.extractLsb' 8 8

/-- `{hi, lo}` (R9): the halfword with `hi` in bits 15:8. -/
def packBytes (hi lo : Byte) : Halfword := hi ++ lo

/-- `sext_16` (R9): the value in Z of a halfword read as s16. -/
def sext16 (h : Halfword) : Int := h.toInt

/-- The halfword whose `sext_16` is the s16 operand `v`. -/
def s16Field (v : Int) : Halfword := BitVec.ofInt 16 v

/-- `{H[k+1], H[k]}` (R84): a host-memory address from its low and its high halfword. -/
def addrOfHalves (alo ahi : Halfword) : Nat := (ahi ++ alo).toNat

/-- `ALO`, bits 15:0 of an address (R84). -/
def addrLo (a : Nat) : Halfword := BitVec.ofNat 16 a

/-- `AHI`, bits 31:16 of an address (R84). -/
def addrHi (a : Nat) : Halfword := BitVec.ofNat 16 (a / 65536)

/-- The mnemonics of R86. -/
inductive Opcode
  | init | setRotation | setWindow | invert | getWidth | getHeight
  | fillRect | drawPixel | drawImage
  | line | rect | filledRect | circle | filledCircle
  | drawChar | drawString
deriving DecidableEq, Repr

/-- The nine packet formats of R85. -/
inductive Format
  | n | v | win | pix | q5 | img | cir | chr | str
deriving DecidableEq, Repr

/-- The length `n` of a packet of each format, `H[0]` included (R85). -/
def Format.length : Format → Nat
  | .n => 1
  | .v => 2
  | .win => 5
  | .pix => 4
  | .q5 => 6
  | .img => 7
  | .cir => 5
  | .chr => 6
  | .str => 8

/-- One row of the opcode map. -/
structure OpcodeRow where
  op : Opcode
  byte : Byte
  format : Format
deriving DecidableEq, Repr

/-- The opcode map of R86, in its order. -/
def opcodeMap : List OpcodeRow :=
  [⟨.init, 0x01, .n⟩, ⟨.setRotation, 0x02, .v⟩, ⟨.setWindow, 0x03, .win⟩, ⟨.invert, 0x04, .v⟩,
   ⟨.getWidth, 0x05, .n⟩, ⟨.getHeight, 0x06, .n⟩] ++
  [⟨.fillRect, 0x10, .q5⟩, ⟨.drawPixel, 0x11, .pix⟩, ⟨.drawImage, 0x12, .img⟩] ++
  [⟨.line, 0x20, .q5⟩, ⟨.rect, 0x21, .q5⟩, ⟨.filledRect, 0x22, .q5⟩, ⟨.circle, 0x23, .cir⟩,
   ⟨.filledCircle, 0x24, .cir⟩] ++
  [⟨.drawChar, 0x30, .chr⟩, ⟨.drawString, 0x31, .str⟩]

/-- The row of an opcode byte; `none` for the illegal opcodes of R89. -/
def opcodeRow? (opc : Byte) : Option OpcodeRow := opcodeMap.find? (·.byte == opc)

/-- Why a packet fails decode (R87). Every one of them ends the command with ERR_ILLEGAL. -/
inductive DecodeError
  /-- A packet of no halfwords: no length of R86 is 0 (log entry 9). -/
  | emptyPacket
  /-- "opc not in the OPC column of rule R86". -/
  | unknownOpcode (opc : Byte)
  /-- `H[0][15:8] != 0`. -/
  | reservedHeader (opc : Byte)
  /-- `n != LEN(opc)`. -/
  | wrongLength (opc : Byte)
  /-- DRAW_STRING with `H[3][7:0] != 0`. -/
  | reservedString (opc : Byte)
deriving DecidableEq, Repr

/-- A packet whose length is not that of its opcode (R87). -/
def wrongLength (op : Opcode) : Except DecodeError Instr :=
  .error (.wrongLength (((opcodeMap.find? (·.op == op)).map (·.byte)).getD 0))

/-- The operands of each opcode from the halfwords after `H[0]` (R82 to R85). The last arm of each is
the length check of R87. -/
def decodeOperands (op : Opcode) (hs : List Halfword) : Except DecodeError Instr :=
  match op with
  | .init =>
    match hs with
    | [] => .ok .init
    | _ => wrongLength op
  | .setRotation =>
    match hs with
    | [v] => .ok (.setRotation v.toNat)
    | _ => wrongLength op
  | .setWindow =>
    match hs with
    | [x0, y0, x1, y1] => .ok (.setWindow (sext16 x0) (sext16 y0) (sext16 x1) (sext16 y1))
    | _ => wrongLength op
  | .invert =>
    match hs with
    | [v] => .ok (.invert v.toNat)
    | _ => wrongLength op
  | .getWidth =>
    match hs with
    | [] => .ok .getWidth
    | _ => wrongLength op
  | .getHeight =>
    match hs with
    | [] => .ok .getHeight
    | _ => wrongLength op
  | .fillRect =>
    match hs with
    | [x, y, w, h, c] => .ok (.fillRect (sext16 x) (sext16 y) (sext16 w) (sext16 h) c)
    | _ => wrongLength op
  | .drawPixel =>
    match hs with
    | [x, y, c] => .ok (.drawPixel (sext16 x) (sext16 y) c)
    | _ => wrongLength op
  | .drawImage =>
    match hs with
    | [x, y, w, h, alo, ahi] =>
      .ok (.drawImage (sext16 x) (sext16 y) (sext16 w) (sext16 h) (addrOfHalves alo ahi))
    | _ => wrongLength op
  | .line =>
    match hs with
    | [x0, y0, x1, y1, c] => .ok (.line (sext16 x0) (sext16 y0) (sext16 x1) (sext16 y1) c)
    | _ => wrongLength op
  | .rect =>
    match hs with
    | [x, y, w, h, c] => .ok (.rect (sext16 x) (sext16 y) (sext16 w) (sext16 h) c)
    | _ => wrongLength op
  | .filledRect =>
    match hs with
    | [x, y, w, h, c] => .ok (.filledRect (sext16 x) (sext16 y) (sext16 w) (sext16 h) c)
    | _ => wrongLength op
  | .circle =>
    match hs with
    | [x0, y0, r, c] => .ok (.circle (sext16 x0) (sext16 y0) (sext16 r) c)
    | _ => wrongLength op
  | .filledCircle =>
    match hs with
    | [x0, y0, r, c] => .ok (.filledCircle (sext16 x0) (sext16 y0) (sext16 r) c)
    | _ => wrongLength op
  | .drawChar =>
    match hs with
    | [x, y, sc, fg, bg] =>
      .ok (.drawChar (sext16 x) (sext16 y) (hiByte sc).toNat (loByte sc).toNat fg bg)
    | _ => wrongLength op
  | .drawString =>
    match hs with
    | [x, y, sr, fg, bg, alo, ahi] =>
      if loByte sr = 0 then
        .ok (.drawString (sext16 x) (sext16 y) (hiByte sr).toNat fg bg (addrOfHalves alo ahi))
      else .error (.reservedString 0x31)
    | _ => wrongLength op

/-- Decode (R87), in the order of its checks. Total on any packet. -/
def decode : Packet → Except DecodeError Instr
  | [] => .error .emptyPacket
  | h0 :: rest =>
    match opcodeRow? (loByte h0) with
    | none => .error (.unknownOpcode (loByte h0))
    | some row =>
      if hiByte h0 ≠ 0 then .error (.reservedHeader row.byte)
      else if rest.length + 1 ≠ row.format.length then .error (.wrongLength row.byte)
      else decodeOperands row.op rest

/-- The opcode of a command (R86). -/
def Instr.opcode : Instr → Opcode
  | .init => .init
  | .setRotation _ => .setRotation
  | .setWindow _ _ _ _ => .setWindow
  | .invert _ => .invert
  | .getWidth => .getWidth
  | .getHeight => .getHeight
  | .fillRect _ _ _ _ _ => .fillRect
  | .drawPixel _ _ _ => .drawPixel
  | .drawImage _ _ _ _ _ => .drawImage
  | .line _ _ _ _ _ => .line
  | .rect _ _ _ _ _ => .rect
  | .filledRect _ _ _ _ _ => .filledRect
  | .circle _ _ _ _ => .circle
  | .filledCircle _ _ _ _ => .filledCircle
  | .drawChar _ _ _ _ _ _ => .drawChar
  | .drawString _ _ _ _ _ _ => .drawString

/-- The packet of a well-formed command, field by field from R81 to R86. -/
def encode : Instr → Packet
  | .init => [0x0001]
  | .setRotation v => [0x0002, BitVec.ofNat 16 v]
  | .setWindow x0 y0 x1 y1 => [0x0003, s16Field x0, s16Field y0, s16Field x1, s16Field y1]
  | .invert v => [0x0004, BitVec.ofNat 16 v]
  | .getWidth => [0x0005]
  | .getHeight => [0x0006]
  | .fillRect x y w h c => [0x0010, s16Field x, s16Field y, s16Field w, s16Field h, c]
  | .drawPixel x y c => [0x0011, s16Field x, s16Field y, c]
  | .drawImage x y w h a =>
    [0x0012, s16Field x, s16Field y, s16Field w, s16Field h, addrLo a, addrHi a]
  | .line x0 y0 x1 y1 c => [0x0020, s16Field x0, s16Field y0, s16Field x1, s16Field y1, c]
  | .rect x y w h c => [0x0021, s16Field x, s16Field y, s16Field w, s16Field h, c]
  | .filledRect x y w h c => [0x0022, s16Field x, s16Field y, s16Field w, s16Field h, c]
  | .circle x0 y0 r c => [0x0023, s16Field x0, s16Field y0, s16Field r, c]
  | .filledCircle x0 y0 r c => [0x0024, s16Field x0, s16Field y0, s16Field r, c]
  | .drawChar x y s c fg bg =>
    [0x0030, s16Field x, s16Field y, packBytes (BitVec.ofNat 8 s) (BitVec.ofNat 8 c), fg, bg]
  | .drawString x y s fg bg a =>
    [0x0031, s16Field x, s16Field y, packBytes (BitVec.ofNat 8 s) 0, fg, bg, addrLo a, addrHi a]

/-- The first `n` halfwords of a number, the first in its least significant bits. -/
def halfwordsOf (n w : Nat) : Packet := (List.range n).map fun k => BitVec.ofNat 16 (w / 65536 ^ k)

/-- The packet whose bits are `w`, numbered as the opcode table numbers them: `H[0]` is bits 15:0 and
later halfwords count on. The packet has the length its opcode gives it (R86), the bits from `nbits`
on being zero, and never fewer halfwords than `nbits` covers. -/
def packetOfWord (nbits w : Nat) : Packet :=
  let bits := w % 2 ^ nbits
  let given := (nbits + 15) / 16
  let full :=
    match opcodeRow? (BitVec.ofNat 8 bits) with
    | some row => row.format.length
    | none => 1
  halfwordsOf (max full given) bits

/-- The command the decoder reads from the packet whose bits are `w`; `none` where it refuses. -/
def decodeTableWord (nbits w : Nat) : Option Instr :=
  match decode (packetOfWord nbits w) with
  | .ok i => some i
  | .error _ => none

end Sys2Proof
end

