-- ==== Sys2Proof/Machine/Operands.lean ====
section
/-! DEFINITION. What the rules compute from operands and parameters alone, before any state: wire
byte pairs, the orientation tuples, clipping, glyph lookup and the inversion state INIT leaves. All
arithmetic is on Z (42_raster.md R150). -/

namespace Sys2Proof.Machine

open Sys2Proof

/-- `be16` of a Color (R57, R132): the wire byte pair `[c[15:8], c[7:0]]`. -/
def colorBytes (c : Color) : List Byte := [hiByte c, loByte c]

/-- `be16` of an integer (R9, R58): its value modulo 2^16, most significant byte first. -/
def be16 (v : Int) : List Byte := colorBytes (BitVec.ofInt 16 v)

/-- The value of one of four settings at rotation `r`. -/
def perRotation {α : Type} (p : PerRotation α) (r : Fin 4) : α :=
  match r with
  | 0 => p.r0
  | 1 => p.r1
  | 2 => p.r2
  | 3 => p.r3

/-- An orientation tuple `TUPLE[r]` (R8). -/
structure Tuple where
  madctl : Byte
  colOff : Halfword
  rowOff : Halfword
  width : Halfword
  height : Halfword
deriving DecidableEq, Repr

/-- `TUPLE[r]` (R8, R107): the extents swap at odd rotations. -/
def tupleOf (c : Config) (r : Fin 4) : Tuple :=
  let odd := r.val % 2 = 1
  { madctl := perRotation c.madctl r
    colOff := perRotation c.colStart r
    rowOff := perRotation c.rowStart r
    width := if odd then Config.nativeH else Config.nativeW
    height := if odd then Config.nativeW else Config.nativeH }

/-- The rotation SET_ROTATION selects (R24, R106): the operand modulo 4. -/
def rotationOf (val : Nat) : Fin 4 := ⟨val % 4, Nat.mod_lt _ (by decide)⟩

/-- `inv_after(INIT_SEQ)` (R104): the state the last inversion command of the sequence names, off if
there is none. -/
def invAfter (c : Config) : Bool :=
  c.initSeq.foldl
    (fun inv e => if e.cmd = c.cmdInvon then true else if e.cmd = c.cmdInvoff then false else inv)
    false

/-- A rectangle in logical coordinates: corner, width, height. -/
structure Rect where
  x : Int
  y : Int
  w : Int
  h : Int
deriving DecidableEq, Repr

/-- Clipping against the current extents (R130); `none` is EMPTY. -/
def clip (width height x y w h : Int) : Option Rect :=
  if w ≤ 0 ∨ h ≤ 0 then none
  else
    let xa := max x 0
    let ya := max y 0
    let xb := min (x + w) width
    let yb := min (y + h) height
    if xa ≥ xb ∨ ya ≥ yb then none else some ⟨xa, ya, xb - xa, yb - ya⟩

/-- Glyph lookup (R181): codes outside 32 to 127 draw '?'. -/
def lookupGlyph (c : Config) (code : Nat) : Glyph :=
  if 32 ≤ code ∧ code ≤ 127 then c.glyphRom.getD (code - 32) default
  else c.glyphRom.getD (0x3F - 32) default

/-- Column byte `col` of a glyph (R180), column 0 leftmost. -/
def glyphColumn (g : Glyph) (col : Nat) : Byte :=
  match col with
  | 0 => g.c0
  | 1 => g.c1
  | 2 => g.c2
  | 3 => g.c3
  | _ => g.c4

/-- Bit `row` of column `col` (R180): set means the cell is foreground. Bit 7 is never asked for. -/
def glyphBit (g : Glyph) (col row : Nat) : Bool := (glyphColumn g col).getLsbD row

end Sys2Proof.Machine
end

