-- ==== Sys2Proof/Machine/State.lean ====
section
/-! DEFINITION. The state of the machine as plain data: the DFC's registers and hidden state
(10_state.md), the record its transport keeps (00_scope.md R11), and the rest of the system R6 names:
the host's command stream and operand memory, the two oracles, the parameters and the panel the trace
is read by. -/

namespace Sys2Proof.Machine

open Sys2Proof

/-- One transport call (R11). A level is `true` for 1. -/
inductive Event
  | cmd (b : Byte)
  | data (bytes : List Byte)
  | rst (level : Bool)
  | delay (ms : Nat)
  | bl (level : Bool)
deriving DecidableEq, Repr

/-- Host operand memory (R52): (address, byte) pairs, addresses strictly rising, no entry equal to
what an unlisted address reads as. -/
abbrev Memory := List Host.Cell

/-- An oracle (R101, R134): the answers already fixed for it, oldest first, and how many it has given.
Once `answers` is empty the next answer is a free value (log entry 2). -/
structure Oracle where
  answers : List Bool
  asked : Nat
deriving DecidableEq, Repr

/-- What the host does next (R6, R67): issue a packet, write a byte of its operand memory between two
commands, or release block reset (R220). -/
inductive HostInput
  | issue (p : Packet)
  | store (addr : Nat) (byte : Byte)
  | blockReset
deriving DecidableEq, Repr

/-- `PMODE` of the reference panel (R61). -/
inductive PanelMode
  | idle | cols | rows | write | other
deriving DecidableEq, Repr

/-- A panel write `(PC, PR, v)` (R64), in controller coordinates. -/
structure PanelWrite where
  col : Int
  row : Int
  value : Color
deriving DecidableEq, Repr

/-- The reference panel (R61): an observer of the trace, no part of the DFC (R36). -/
structure Panel where
  /-- `PXS`, `PXE`, `PYS`, `PYE`. -/
  pxs : Halfword
  pxe : Halfword
  pys : Halfword
  pye : Halfword
  /-- `PMODE`. -/
  mode : PanelMode
  /-- `PP`. -/
  params : List Byte
  /-- `(PC, PR)`. -/
  pc : Int
  pr : Int
  /-- `PB`. -/
  pending : Option Byte
  /-- `GRAM`: the cells written so far, by key `row * 65536 + col`, keys strictly rising. A cell that
  is not listed holds the free value `Config.gramPowerOn`. -/
  gram : List (Nat × Color)
  /-- The panel-write list of R64, oldest first. -/
  writes : List PanelWrite
  /-- How many pixels had an unspecified effect (R65); indexes the free value `Config.strayPixel`. -/
  strays : Nat
  /-- How many window commands had too few data bytes (R63); indexes `Config.shortWindow`. -/
  shorts : Nat
deriving DecidableEq, Repr

/-- A pair of values of `COLOFF` and `ROWOFF` (R26). -/
structure Offsets where
  col : Halfword
  row : Halfword
deriving DecidableEq, Repr

/-- The offsets that were loaded once the trace had `after` events. -/
structure OffsetChange where
  after : Nat
  offsets : Offsets
deriving DecidableEq, Repr

/-- Why the machine stops with a fault. The DFC itself never does: every error of R200 is a status,
and the machine goes on (R204). -/
inductive Fault
  /-- The host writes its operand memory at an address that does not exist, one not below `HMEM_SIZE`
  (R52). Raised by the host's store only, never by a command. Safe: the step stops. -/
  | hostStoreAbsent (addr : Nat)
deriving DecidableEq, Repr

/-- Why the machine has no meaning for an instruction. -/
inductive Refusal
  /-- An instruction whose arm of `exec` has no meaning yet. No arm raises it: all sixteen commands have
  their meaning. Safe: the step stops. -/
  | notModelled (mnemonic : String)
deriving DecidableEq, Repr

/-- The machine. The first block is the register table of R23. -/
structure State where
  /-- `INIT_DONE` (R31). -/
  initDone : Bool
  /-- `ROT` (R24). -/
  rot : Fin 4
  /-- `WIDTH` and `HEIGHT` (R25). -/
  width : Halfword
  height : Halfword
  /-- `COLOFF` and `ROWOFF` (R26). -/
  colOff : Halfword
  rowOff : Halfword
  /-- `MADCTL_CUR` (R27). -/
  madctlCur : Byte
  /-- `INV` (R30). -/
  inv : Bool
  /-- `RST_LVL` and `BL_LVL` (R32); `none` is the spec's `unknown`. -/
  rstLvl : Option Bool
  blLvl : Option Bool
  /-- `LAST_STATUS` and `LAST_VALUE`, the completion record (R33). -/
  lastStatus : Byte
  lastValue : Halfword
  /-- `LINEBUF` (R34); `none` while it is not granted. -/
  lineBuf : Option (List Byte)
  /-- The latches `BUF_ERR` and `ABORTED` (R35). -/
  bufErr : Bool
  aborted : Bool
  /-- The trace (R11), oldest call first. -/
  trace : List Event
  /-- Host operand memory (R52). -/
  hostMem : Memory
  /-- What the host does next, in order; the host's position in its stream (R21). -/
  inputs : List HostInput
  /-- The bus-registration oracle (R101). -/
  busOracle : Oracle
  /-- The buffer-grant oracle (R134). -/
  grantOracle : Oracle
  /-- The parameters of R7. No step writes them. -/
  cfg : Config
  /-- The reference panel as it stood when the trace was last emptied (R61, R220); as it stands now it
  is this panel after the trace. -/
  panelBase : Panel
  /-- The values `COLOFF` and `ROWOFF` have had since the trace was last emptied, newest first. The
  model's own record (log entry 17): R66 asks for their values at an event of the trace. -/
  offsetLog : List OffsetChange
deriving DecidableEq, Repr

/-- The reference panel before it has seen any event (R61): mode IDLE, no parameters, no pending byte,
and free values everywhere else (log entry 3). -/
def Panel.powerOn : Panel :=
  { pxs := Config.panelRegister 0, pxe := Config.panelRegister 1
    pys := Config.panelRegister 2, pye := Config.panelRegister 3
    mode := .idle, params := []
    pc := Config.panelPointer.1, pr := Config.panelPointer.2
    pending := none, gram := [], writes := [], strays := 0, shorts := 0 }

/-- The machine right after block reset with parameters `c` (R39, R220): every register at the value
R39 states; the host has listed no memory and issued nothing; no oracle has answered. -/
def State.powerOn (c : Config) : State :=
  { initDone := false, rot := 0
    width := (tupleOf c 0).width, height := (tupleOf c 0).height
    colOff := (tupleOf c 0).colOff, rowOff := (tupleOf c 0).rowOff
    madctlCur := (tupleOf c 0).madctl
    inv := false, rstLvl := none, blLvl := none
    lastStatus := 0x00, lastValue := 0x0000
    lineBuf := none, bufErr := false, aborted := false
    trace := [], hostMem := [], inputs := []
    busOracle := ⟨[], 0⟩, grantOracle := ⟨[], 0⟩
    cfg := c, panelBase := Panel.powerOn
    offsetLog := [⟨0, ⟨(tupleOf c 0).colOff, (tupleOf c 0).rowOff⟩⟩] }

/-- The machine right after reset. Its parameters are the free value `Config.params` (log entry 1). -/
def State.reset : State := State.powerOn Config.params.cfg

end Sys2Proof.Machine
end

