-- ==== Sys2Proof/Machine/Memory.lean ====
section
/-! DEFINITION. Sorted cells, host operand memory over them (20_memory.md R50 to R56), and the reads
of pixel elements and strings. -/

namespace Sys2Proof.Machine

open Sys2Proof

/-- The value listed at a key. -/
def findCell {α : Type} : List (Nat × α) → Nat → Option α
  | [], _ => none
  | (b, v) :: rest, a => if b = a then some v else findCell rest a

/-- List a value at a key, keeping the keys rising. -/
def putCell {α : Type} : List (Nat × α) → Nat → α → List (Nat × α)
  | [], a, v => [(a, v)]
  | (b, u) :: rest, a, v =>
    if a < b then (a, v) :: (b, u) :: rest
    else if a = b then (a, v) :: rest
    else (b, u) :: putCell rest a v

/-- Remove a key from the list. -/
def dropCell {α : Type} : List (Nat × α) → Nat → List (Nat × α)
  | [], _ => []
  | (b, u) :: rest, a => if b = a then rest else (b, u) :: dropCell rest a

/-- The keys rise strictly. -/
def risingCells {α : Type} (l : List (Nat × α)) : Bool :=
  decide ((l.map Prod.fst).Pairwise (· < ·))

/-- What an unlisted address of host operand memory reads as (log entry 4, DESIGN CHOICE). -/
def unlistedByte : Byte := 0

/-- The canonical form of memory: addresses strictly rising, no entry that reads as unlisted. -/
def Memory.wf (m : Memory) : Bool := risingCells m && m.all fun cell => decide (cell.2 ≠ unlistedByte)

/-- Read one byte (R52, R56). -/
def Memory.read (m : Memory) (a : Nat) : Byte := (findCell m a).getD unlistedByte

/-- Write one byte; used by the host only (R51). -/
def Memory.write (m : Memory) (a : Nat) (v : Byte) : Memory :=
  if v = unlistedByte then dropCell m a else putCell m a v

/-- `MemRead(addr, 2)` (R10, R53): the pixel element at an address, little-endian. -/
def Memory.readPixel (m : Memory) (a : Nat) : Color := packBytes (m.read (a + 1)) (m.read a)

/-- The prescan of R186 over the `n` addresses from `a` on: the bytes before the first 0x00, or `none`
if there is no 0x00 among them. -/
def Memory.scanString (m : Memory) (a : Nat) : Nat → Option (List Byte)
  | 0 => none
  | n + 1 => if m.read a = 0 then some [] else (m.scanString (a + 1) n).map (m.read a :: ·)

/-- The string operand at an address of a memory of `size` bytes (R186). -/
def Memory.readString (m : Memory) (size a : Nat) : Option (List Byte) := m.scanString a (size - a)

end Sys2Proof.Machine
end

