-- ==== Sys2Proof/Machine/Flags.lean ====
section
/-! DEFINITION. The outcome of a command. The DFC has no condition flags (10_state.md R22): the only
outcome is the completion record, a status code of 60_exceptions.md R200 and a 16-bit value (R33). -/

namespace Sys2Proof.Machine

open Sys2Proof

/-- The statuses of R200. -/
inductive Status
  | ok
  | errIllegal
  | errNotInit
  | errInitFail
  | errBuf
  | errSrcRange
  | errSrcAlign
deriving DecidableEq, Repr

/-- The code of each status (R200). -/
def Status.code : Status → Byte
  | .ok => 0x00
  | .errIllegal => 0x01
  | .errNotInit => 0x02
  | .errInitFail => 0x03
  | .errBuf => 0x04
  | .errSrcRange => 0x05
  | .errSrcAlign => 0x06

/-- Write the completion record (R33). -/
def State.record (st : Status) (v : Halfword) (s : State) : State :=
  { s with lastStatus := st.code, lastValue := v }

/-- `complete(v)` (R10): end the command with status OK and value `v`. -/
def State.complete (v : Halfword) (s : State) : State := s.record .ok v

end Sys2Proof.Machine
end

