-- ==== Sys2Proof/Machine/Ops.lean ====
section
/-! DEFINITION. The operations every command is built of: ending a command with an error, the
initialisation gate, emitting transport calls, loading an orientation tuple, the address window, the
oracles, the scanline buffer, and the two primitives `fill` and `pixel` (41_blitter.md) with the
bracket they run in. -/

namespace Sys2Proof.Machine

open Sys2Proof

/-! ### Ending a command with an error -/

/-- `raise ERR` (R10, R204): the command ends with the error's code and value 0; there is no vector,
no saved state and no mode to change, and every effect made before it stands. There is no return from
it (R205): the next command starts from the state it leaves. -/
def State.raise (e : Status) (s : State) : State := s.record e 0

/-- The initialisation gate (R202): with `INIT_DONE = 0` a gated command ends with ERR_NOT_INIT and
does nothing else. -/
def State.gated (body : State → State) (s : State) : State :=
  if s.initDone then body s else s.raise .errNotInit

/-! ### The trace -/

/-- The level of the reset line after an event (R32). -/
def Event.resetLevel (e : Event) (before : Option Bool) : Option Bool :=
  match e with
  | .rst l => some l
  | .cmd _ | .data _ | .delay _ | .bl _ => before

/-- The level of the backlight line after an event (R32). -/
def Event.backlightLevel (e : Event) (before : Option Bool) : Option Bool :=
  match e with
  | .bl l => some l
  | .cmd _ | .data _ | .delay _ | .rst _ => before

/-- `emit` (R10): append one transport call; the line levels follow the trace (R32). -/
def State.emit (s : State) (e : Event) : State :=
  { s with
    trace := s.trace ++ [e]
    rstLvl := e.resetLevel s.rstLvl
    blLvl := e.backlightLevel s.blLvl }

/-- Emit a list of transport calls in order. -/
def State.emitAll (es : List Event) (s : State) : State := es.foldl State.emit s

/-! ### Orientation and window -/

/-- `ROT <- r` and the five tuple registers from `TUPLE[r]` (R28, R107). The offsets loaded hold from
the next event on (R66). -/
def State.loadTuple (r : Fin 4) (s : State) : State :=
  let t := tupleOf s.cfg r
  { s with
    rot := r
    madctlCur := t.madctl, colOff := t.colOff, rowOff := t.rowOff
    width := t.width, height := t.height
    offsetLog := ⟨s.trace.length, ⟨t.colOff, t.rowOff⟩⟩ :: s.offsetLog }

/-- The five events of `window(x0, y0, x1, y1)` (R108, R58). -/
def windowEvents (c : Config) (colOff rowOff : Halfword) (x0 y0 x1 y1 : Int) : List Event :=
  [.cmd c.cmdCaset, .data (be16 (x0 + colOff.toNat) ++ be16 (x1 + colOff.toNat)),
   .cmd c.cmdRaset, .data (be16 (y0 + rowOff.toNat) ++ be16 (y1 + rowOff.toNat)),
   .cmd c.cmdRamwr]

/-- `window` (R108) with the current offsets. -/
def State.window (x0 y0 x1 y1 : Int) (s : State) : State :=
  s.emitAll (windowEvents s.cfg s.colOff s.rowOff x0 y0 x1 y1)

/-- Clipping against the current extents (R130). -/
def State.clip (s : State) (x y w h : Int) : Option Rect :=
  Machine.clip s.width.toNat s.height.toNat x y w h

/-- A logical coordinate is on screen (R137). -/
def State.onScreen (s : State) (x y : Int) : Bool :=
  decide (0 ≤ x) && decide (0 ≤ y) && decide (x < s.width.toNat) && decide (y < s.height.toNat)

/-! ### The oracles -/

/-- Ask an oracle: the next fixed answer, or a free value once there is none. -/
def Oracle.ask (free : Nat → Bool) (o : Oracle) : Bool × Oracle :=
  match o.answers with
  | b :: rest => (b, ⟨rest, o.asked + 1⟩)
  | [] => (free o.asked, ⟨[], o.asked + 1⟩)

/-- `bus_ok()` (R101). -/
def State.busOk (s : State) : Bool × State :=
  let a := s.busOracle.ask Config.busDraw
  (a.1, { s with busOracle := a.2 })

/-- `acquire(n)` (R134): always granted when `BUF_MAY_FAIL` is false, a draw of the oracle otherwise.
The answer is under no law, so it does not depend on the size asked for. -/
def State.acquire (_n : Nat) (s : State) : Bool × State :=
  if s.cfg.bufMayFail then
    let a := s.grantOracle.ask Config.grantDraw
    (a.1, { s with grantOracle := a.2 })
  else (true, s)

/-! ### The scanline buffer -/

/-- `LINEBUF <- bytes` (R34, R133). -/
def State.setLine (bytes : List Byte) (s : State) : State := { s with lineBuf := some bytes }

/-- `emit DATA(LINEBUF)`. -/
def State.emitLine (s : State) : State := s.emit (.data (s.lineBuf.getD []))

/-- Emit the scanline buffer a number of times. -/
def State.emitLines : Nat → State → State
  | 0, s => s
  | n + 1, s => State.emitLines n s.emitLine

/-- `release LINEBUF` (R34). -/
def State.releaseLine (s : State) : State := { s with lineBuf := none }

/-- What a refused grant does to the latches (R131, R135). -/
def State.refuseGrant (s : State) : State :=
  { s with
    bufErr := true
    aborted := s.aborted || decide (s.cfg.bufFailPolicy = .abort) }

/-! ### The primitives -/

/-- The bytes of one scanline of a fill, `rep(cw, be16(c))` (R131, R132). -/
def fillLine (cw : Nat) (c : Color) : List Byte := (List.replicate cw (colorBytes c)).flatten

/-- The fill of a clipped rectangle (R131): its window, its grant, then its scanlines. -/
def State.fillClipped (r : Rect) (c : Color) (s : State) : State :=
  let s₁ := s.window r.x r.y (r.x + r.w - 1) (r.y + r.h - 1)
  let a := s₁.acquire (2 * r.w.toNat)
  if a.1 then ((a.2.setLine (fillLine r.w.toNat c)).emitLines r.h.toNat).releaseLine
  else a.2.refuseGrant

/-- The fill primitive `fill(x, y, w, h, c)` (R131). -/
def State.fill (x y w h : Int) (c : Color) (s : State) : State :=
  if s.aborted then s
  else
    match s.clip x y w h with
    | none => s
    | some r => s.fillClipped r c

/-- The pixel primitive `pixel(x, y, c)` (R137): no buffer, no grant (R138). -/
def State.pixel (x y : Int) (c : Color) (s : State) : State :=
  if s.aborted then s
  else if s.onScreen x y then (s.window x y x y).emit (.data (colorBytes c))
  else s

/-- A call of a primitive, as the composite commands make them (R12). -/
inductive Prim
  | fill (x y w h : Int) (c : Color)
  | pixel (x y : Int) (c : Color)
deriving DecidableEq, Repr

/-- Perform one primitive. -/
def State.runPrim (s : State) : Prim → State
  | .fill x y w h c => s.fill x y w h c
  | .pixel x y c => s.pixel x y c

/-- Perform primitives in order. -/
def State.runPrims (ps : List Prim) (s : State) : State := ps.foldl State.runPrim s

/-! ### The bracket of a drawing command -/

/-- `begin()` (R142). -/
def State.beginDraw (s : State) : State := { s with bufErr := false, aborted := false }

/-- The latches do not survive the command (R35; log entry 8). -/
def State.clearLatches (s : State) : State := { s with bufErr := false, aborted := false }

/-- `finish()` (R142): ERR_BUF if any grant was refused, OK otherwise. -/
def State.finishDraw (s : State) : State :=
  (if s.bufErr then s.raise .errBuf else s.complete 0).clearLatches

/-- A drawing command made of primitives: `begin()`, the primitives in order, `finish()`. -/
def State.draw (ps : List Prim) (s : State) : State := (s.beginDraw.runPrims ps).finishDraw

end Sys2Proof.Machine
end

