-- ==== Sys2Proof/Machine/Blitter.lean ====
section
/-! DEFINITION. The blitter family (41_blitter.md): FILL_RECT, DRAW_PIXEL and DRAW_IMAGE. -/

namespace Sys2Proof.Machine

open Sys2Proof

/-- FILL_RECT (R131). Gated. -/
def execFillRect (x y w h : Int) (color : Color) (s : State) : Host.Outcome State Fault Refusal :=
  .next (s.gated (State.draw [.fill x y w h color]))

/-- DRAW_PIXEL (R137). Gated. -/
def execDrawPixel (x y : Int) (color : Color) (s : State) : Host.Outcome State Fault Refusal :=
  .next (s.gated (State.draw [.pixel x y color]))

/-- The address of the source element of screen pixel `(r.x + i, r.y + j)` (R139): the stride is the
unclipped `w`. -/
def imageAddr (addr : Nat) (x y w : Int) (r : Rect) (j i : Nat) : Nat :=
  ((addr : Int) + 2 * ((r.y - y + j) * w + (r.x - x + i))).toNat

/-- The bytes of scanline `j` of a clipped image (R139, R53, R57). -/
def imageLine (m : Memory) (addr : Nat) (x y w : Int) (r : Rect) (j : Nat) : List Byte :=
  (List.range r.w.toNat).flatMap fun i => colorBytes (m.readPixel (imageAddr addr x y w r j i))

/-- Fill and emit the scanline buffer once per scanline (R133, R139). -/
def State.emitImage (addr : Nat) (x y w : Int) (r : Rect) (s : State) : State :=
  (List.range r.h.toNat).foldl
    (fun t j => (t.setLine (imageLine t.hostMem addr x y w r j)).emitLine) s

/-- DRAW_IMAGE once its operands are checked (R139): window, grant, scanlines. A refused grant ends
the command at once (R141). -/
def State.imageClipped (addr : Nat) (x y w : Int) (r : Rect) (s : State) : State :=
  let s₁ := s.window r.x r.y (r.x + r.w - 1) (r.y + r.h - 1)
  let a := s₁.acquire (2 * r.w.toNat)
  if a.1 then (a.2.emitImage addr x y w r).releaseLine.complete 0
  else a.2.raise .errBuf

/-- The body of DRAW_IMAGE (R139), with the checks of R140 in their order. -/
def State.drawImage (x y w h : Int) (addr : Nat) (s₀ : State) : State :=
  let s := s₀.beginDraw
  match s.clip x y w h with
  | none => s.complete 0
  | some r =>
    if addr % 2 ≠ 0 then s.raise .errSrcAlign
    else if (addr : Int) + 2 * w * h > s.cfg.hmemSize then s.raise .errSrcRange
    else s.imageClipped addr x y w r

/-- DRAW_IMAGE (R139). Gated. -/
def execDrawImage (x y w h : Int) (addr : Nat) (s : State) : Host.Outcome State Fault Refusal :=
  .next (s.gated (State.drawImage x y w h addr))

end Sys2Proof.Machine
end

