-- ==== Sys2Proof/Machine/Font.lean ====
section
/-! DEFINITION. The font family (43_font.md): DRAW_CHAR and DRAW_STRING over the glyph ROM. -/

namespace Sys2Proof.Machine

open Sys2Proof

/-- The colour of a glyph cell (R182): foreground where the bit is set, background otherwise, and
`none` where the background is transparent (R183). -/
def cellColor (set : Bool) (fg bg : Color) : Option Color :=
  if set then some fg else if bg ≠ fg then some bg else none

/-- The primitive that draws cell `(col, row)` at scale `s` (R182, R184): a pixel at scale 1, a block
of `s` by `s` at every other scale. -/
def cellPrim (x y : Int) (col row s : Nat) (c : Color) : Prim :=
  if s = 1 then .pixel (x + col) (y + row) c
  else .fill (x + col * s) (y + row * s) s s c

/-- The calls of column `col`, rows 0 to 6 (R182). -/
def columnPlan (g : Glyph) (x y : Int) (col s : Nat) (fg bg : Color) : List Prim :=
  (List.range 7).flatMap fun row =>
    match cellColor (glyphBit g col row) fg bg with
    | some c => [cellPrim x y col row s c]
    | none => []

/-- The spacing column (R182): width `s`, height `7*s`, only when `bg != fg`. -/
def spacingPlan (x y : Int) (s : Nat) (fg bg : Color) : List Prim :=
  if bg ≠ fg then [.fill (x + 5 * s) y s (7 * s) bg] else []

/-- `char(x, y, b, fg, bg, s)` (R182): columns outer, rows inner, then the spacing column. -/
def charPlan (c : Config) (x y : Int) (code s : Nat) (fg bg : Color) : List Prim :=
  (List.range 5).flatMap (fun col => columnPlan (lookupGlyph c code) x y col s fg bg)
    ++ spacingPlan x y s fg bg

/-- DRAW_CHAR (R182). Gated. -/
def execDrawChar (x y : Int) (scale code : Nat) (fg bg : Color) (s : State) :
    Host.Outcome State Fault Refusal :=
  .next (s.gated (State.draw (charPlan s.cfg x y code scale fg bg)))

/-- The newline byte (R187): only 0x0A breaks a line. -/
def newlineByte : Byte := 0x0A

/-- The loop of DRAW_STRING (R187) over the bytes of the string, with the cursor at `(cx, cy)` and
`x` the column a newline returns to. -/
def stringPlan (c : Config) (x : Int) (s : Nat) (fg bg : Color) : List Byte → Int → Int → List Prim
  | [], _, _ => []
  | b :: rest, cx, cy =>
    if b = newlineByte then stringPlan c x s fg bg rest x (cy + 8 * s)
    else charPlan c cx cy b.toNat s fg bg ++ stringPlan c x s fg bg rest (cx + 6 * s) cy

/-- The body of DRAW_STRING (R187): the prescan of R186 comes before any event. -/
def State.drawString (x y : Int) (scale : Nat) (fg bg : Color) (addr : Nat) (s : State) : State :=
  match s.hostMem.readString s.cfg.hmemSize addr with
  | none => s.beginDraw.raise .errSrcRange
  | some bytes => s.draw (stringPlan s.cfg x scale fg bg bytes x y)

/-- DRAW_STRING (R187). Gated. -/
def execDrawString (x y : Int) (scale : Nat) (fg bg : Color) (addr : Nat) (s : State) :
    Host.Outcome State Fault Refusal :=
  .next (s.gated (State.drawString x y scale fg bg addr))

end Sys2Proof.Machine
end

