-- ==== Sys2Proof/Machine/PanelCommands.lean ====
section
/-! DEFINITION. The panel family (40_panel.md): INIT, SET_ROTATION, SET_WINDOW, INVERT, GET_WIDTH and
GET_HEIGHT. -/

namespace Sys2Proof.Machine

open Sys2Proof

/-- The events of one entry of `INIT_SEQ` (R100, R103). -/
def initEntryEvents (e : InitEntry) : List Event :=
  .cmd e.cmd :: ((if e.data = [] then [] else [.data e.data])
    ++ (if 0 < e.delay then [.delay e.delay] else []))

/-- The events of the reset pulse (R100, R221). -/
def resetPulse (c : Config) : List Event :=
  [.rst true, .delay c.tRstHigh, .rst false, .delay c.tRstLow, .rst true, .delay c.tRstWait]

/-- The backlight event of INIT (R102). -/
def backlightEvents (c : Config) : List Event :=
  if c.pins.backlight.isSome then [.bl true] else []

/-- All events of a successful INIT, in order (R100). -/
def initEvents (c : Config) : List Event :=
  backlightEvents c ++ resetPulse c ++ c.initSeq.flatMap initEntryEvents

/-- The rest of INIT once the bus is registered (R100, R104). -/
def State.initPanel (s : State) : State :=
  let s₁ := (s.emitAll (initEvents s.cfg)).loadTuple 0
  State.complete 0 { s₁ with inv := invAfter s₁.cfg, initDone := true }

/-- INIT whose bus registration failed (R100, R101). -/
def State.initFailed (s : State) : State :=
  State.raise .errInitFail { s with initDone := false }

/-- INIT (R100). Not gated; allowed again when already initialised (R105). -/
def execInit (s : State) : Host.Outcome State Fault Refusal :=
  .next (if s.busOk.1 then s.busOk.2.initPanel else s.busOk.2.initFailed)

/-- The body of SET_ROTATION (R106). -/
def State.setRotation (val : Nat) (s : State) : State :=
  let s₁ := s.loadTuple (rotationOf val)
  (s₁.emitAll [.cmd s₁.cfg.cmdMadctl, .data [s₁.madctlCur]]).complete 0

/-- SET_ROTATION (R106). Gated. -/
def execSetRotation (val : Nat) (s : State) : Host.Outcome State Fault Refusal :=
  .next (s.gated (State.setRotation val))

/-- SET_WINDOW (R108). Gated; neither clips nor checks its operands. -/
def execSetWindow (x0 y0 x1 y1 : Int) (s : State) : Host.Outcome State Fault Refusal :=
  .next (s.gated fun t => (t.window x0 y0 x1 y1).complete 0)

/-- The body of INVERT (R111): it sets the state the operand names and reads none. -/
def State.invert (on : Nat) (s : State) : State :=
  let s₁ :=
    if on ≠ 0 then { s.emit (.cmd s.cfg.cmdInvon) with inv := true }
    else { s.emit (.cmd s.cfg.cmdInvoff) with inv := false }
  s₁.complete 0

/-- INVERT (R111). Gated. -/
def execInvert (on : Nat) (s : State) : Host.Outcome State Fault Refusal :=
  .next (s.gated (State.invert on))

/-- GET_WIDTH (R113). Not gated. -/
def execGetWidth (s : State) : Host.Outcome State Fault Refusal := .next (s.complete s.width)

/-- GET_HEIGHT (R114). Not gated. -/
def execGetHeight (s : State) : Host.Outcome State Fault Refusal := .next (s.complete s.height)

end Sys2Proof.Machine
end

