-- ==== Sys2Proof/Machine/Raster.lean ====
section
/-! DEFINITION. The rasterizer family (42_raster.md): LINE, RECT, FILLED_RECT, CIRCLE and
FILLED_CIRCLE, each the list of primitive calls its rule makes, in order. -/

namespace Sys2Proof.Machine

open Sys2Proof

/-! ### LINE -/

/-- The loop of LINE (R152) for a number of iterations: `x` runs along the major axis, `y` along the
minor, and a steep line swaps the two when it draws. -/
def lineWalk (steep : Bool) (dx dy ystep : Int) : Nat → Int → Int → Int → List (Int × Int)
  | 0, _, _, _ => []
  | n + 1, x, y, err =>
    (if steep then (y, x) else (x, y)) ::
      (if err - dy < 0 then lineWalk steep dx dy ystep n (x + 1) (y + ystep) (err - dy + dx)
       else lineWalk steep dx dy ystep n (x + 1) y (err - dy))

/-- LINE from its endpoints in iteration coordinates, `x0 <= x1` (R152). The loop `while x0 <= x1`
runs `x1 - x0 + 1` times. -/
def lineFrom (steep : Bool) (x0 y0 x1 y1 : Int) : List (Int × Int) :=
  lineWalk steep (x1 - x0) |y1 - y0| (if y0 < y1 then 1 else -1) (x1 - x0 + 1).toNat x0 y0
    ((x1 - x0) / 2)

/-- Iterate from the smaller major coordinate (R152: "if x0 > x1: swap"). -/
def lineOrdered (steep : Bool) (x0 y0 x1 y1 : Int) : List (Int × Int) :=
  if x0 > x1 then lineFrom steep x1 y1 x0 y0 else lineFrom steep x0 y0 x1 y1

/-- The pixels LINE draws, in emission order, before clipping (R152). -/
def linePoints (x0 y0 x1 y1 : Int) : List (Int × Int) :=
  if |y1 - y0| > |x1 - x0| then lineOrdered true y0 x0 y1 x1 else lineOrdered false x0 y0 x1 y1

/-- Pixel calls of one colour. -/
def pixelPlan (ps : List (Int × Int)) (c : Color) : List Prim := ps.map fun p => .pixel p.1 p.2 c

/-- LINE (R152). Gated. -/
def execLine (x0 y0 x1 y1 : Int) (color : Color) (s : State) : Host.Outcome State Fault Refusal :=
  .next (s.gated (State.draw (pixelPlan (linePoints x0 y0 x1 y1) color)))

/-! ### RECT and FILLED_RECT -/

/-- The four fills of RECT (R155): top, bottom, left, right, with no guard (R156). -/
def rectPlan (x y w h : Int) (c : Color) : List Prim :=
  [.fill x y w 1 c, .fill x (y + h - 1) w 1 c, .fill x y 1 h c, .fill (x + w - 1) y 1 h c]

/-- RECT (R155). Gated. -/
def execRect (x y w h : Int) (color : Color) (s : State) : Host.Outcome State Fault Refusal :=
  .next (s.gated (State.draw (rectPlan x y w h color)))

/-- FILLED_RECT (R157): the fill of FILL_RECT under its own opcode. Gated. -/
def execFilledRect (x y w h : Int) (color : Color) (s : State) : Host.Outcome State Fault Refusal :=
  .next (s.gated (State.draw [.fill x y w h color]))

/-! ### CIRCLE and FILLED_CIRCLE -/

/-- The variables of the midpoint recurrence (R158). -/
structure Midpoint where
  f : Int
  ddFx : Int
  ddFy : Int
  x : Int
  y : Int
deriving DecidableEq, Repr

/-- The initial values for radius `r` (R158). -/
def Midpoint.start (r : Int) : Midpoint := ⟨1 - r, 1, -2 * r, 0, r⟩

/-- `step()` (R158). -/
def Midpoint.step (m : Midpoint) : Midpoint :=
  let y := if m.f ≥ 0 then m.y - 1 else m.y
  let ddFy := if m.f ≥ 0 then m.ddFy + 2 else m.ddFy
  let f := if m.f ≥ 0 then m.f + ddFy else m.f
  { f := f + (m.ddFx + 2), ddFx := m.ddFx + 2, ddFy := ddFy, x := m.x + 1, y := y }

/-- The values after each step of `while x < y: step()`, for at most a number of steps. -/
def Midpoint.walk : Nat → Midpoint → List Midpoint
  | 0, _ => []
  | n + 1, m => if m.x < m.y then m.step :: Midpoint.walk n m.step else []

/-- All values of the loop for radius `r` (R158): it runs at most `max(R, 0)` steps (R161). -/
def midpoints (r : Int) : List Midpoint := Midpoint.walk r.toNat (Midpoint.start r)

/-- The eight points of one step of CIRCLE, in the order of R159. -/
def octantPoints (x0 y0 x y : Int) : List (Int × Int) :=
  [(x0 + x, y0 + y), (x0 - x, y0 + y), (x0 + x, y0 - y), (x0 - x, y0 - y),
   (x0 + y, y0 + x), (x0 - y, y0 + x), (x0 + y, y0 - x), (x0 - y, y0 - x)]

/-- The pixels CIRCLE draws, in emission order, before clipping (R159). -/
def circlePoints (x0 y0 r : Int) : List (Int × Int) :=
  [(x0, y0 + r), (x0, y0 - r), (x0 + r, y0), (x0 - r, y0)]
    ++ (midpoints r).flatMap fun m => octantPoints x0 y0 m.x m.y

/-- CIRCLE (R159). Gated. -/
def execCircle (x0 y0 r : Int) (color : Color) (s : State) : Host.Outcome State Fault Refusal :=
  .next (s.gated (State.draw (pixelPlan (circlePoints x0 y0 r) color)))

/-- A vertical span `vline(x, y, h)` (R162). -/
structure Span where
  x : Int
  y : Int
  h : Int
deriving DecidableEq, Repr

/-- The four spans of one step of FILLED_CIRCLE, in the order of R162. -/
def octantSpans (x0 y0 x y : Int) : List Span :=
  [⟨x0 + x, y0 - y, 2 * y + 1⟩, ⟨x0 + y, y0 - x, 2 * x + 1⟩,
   ⟨x0 - x, y0 - y, 2 * y + 1⟩, ⟨x0 - y, y0 - x, 2 * x + 1⟩]

/-- The spans of FILLED_CIRCLE, in emission order, the centre column first (R162, R163). -/
def circleSpans (x0 y0 r : Int) : List Span :=
  ⟨x0, y0 - r, 2 * r + 1⟩ :: (midpoints r).flatMap fun m => octantSpans x0 y0 m.x m.y

/-- Span fills of one colour (R162: `vline(x, y, h) = fill(x, y, 1, h, COLOR)`). -/
def spanPlan (ss : List Span) (c : Color) : List Prim := ss.map fun v => .fill v.x v.y 1 v.h c

/-- FILLED_CIRCLE (R162). Gated. -/
def execFilledCircle (x0 y0 r : Int) (color : Color) (s : State) :
    Host.Outcome State Fault Refusal :=
  .next (s.gated (State.draw (spanPlan (circleSpans x0 y0 r) color)))

end Sys2Proof.Machine
end

