-- ==== Sys2Proof/Machine/Dispatch.lean ====
section
/-! DEFINITION. One arm per command: its meaning. -/

namespace Sys2Proof.Machine

open Sys2Proof

/-- What each command does to the machine (30_encoding.md R86). -/
def exec (i : Instr) (s : State) : Host.Outcome State Fault Refusal :=
  match i with
  | .init => Sys2Proof.Machine.execInit s
  | .setRotation val => Sys2Proof.Machine.execSetRotation val s
  | .setWindow x0 y0 x1 y1 => Sys2Proof.Machine.execSetWindow x0 y0 x1 y1 s
  | .invert on => Sys2Proof.Machine.execInvert on s
  | .getWidth => Sys2Proof.Machine.execGetWidth s
  | .getHeight => Sys2Proof.Machine.execGetHeight s
  | .fillRect x y w h color => Sys2Proof.Machine.execFillRect x y w h color s
  | .drawPixel x y color => Sys2Proof.Machine.execDrawPixel x y color s
  | .drawImage x y w h addr => Sys2Proof.Machine.execDrawImage x y w h addr s
  | .line x0 y0 x1 y1 color => Sys2Proof.Machine.execLine x0 y0 x1 y1 color s
  | .rect x y w h color => Sys2Proof.Machine.execRect x y w h color s
  | .filledRect x y w h color => Sys2Proof.Machine.execFilledRect x y w h color s
  | .circle x0 y0 r color => Sys2Proof.Machine.execCircle x0 y0 r color s
  | .filledCircle x0 y0 r color => Sys2Proof.Machine.execFilledCircle x0 y0 r color s
  | .drawChar x y scale code fg bg => Sys2Proof.Machine.execDrawChar x y scale code fg bg s
  | .drawString x y scale fg bg addr => Sys2Proof.Machine.execDrawString x y scale fg bg addr s

end Sys2Proof.Machine
end

