-- ==== Sys2Proof/Machine/RefPanel.lean ====
section
/-! DEFINITION. The reference panel (20_memory.md R60 to R66): the observer that reads the trace, so
that what a command draws can be said in pixels. It is no part of the DFC (10_state.md R36): no command
reads it. -/

namespace Sys2Proof.Machine

open Sys2Proof

/-! ### The flattened stream -/

/-- The bytes of one transport call, each with its command/data-select value, `false` for 0 (R60). -/
def Event.stream : Event → List (Bool × Byte)
  | .cmd b => [(false, b)]
  | .data bytes => bytes.map fun b => (true, b)
  | .rst _ | .delay _ | .bl _ => []

/-- The flattened stream of a trace (R60). -/
def flatStream (tr : List Event) : List (Bool × Byte) := tr.flatMap Event.stream

/-! ### Panel memory -/

/-- The key of a panel memory cell. -/
def gramKey (col row : Nat) : Nat := row * 65536 + col

/-- `GRAM[col][row]` (R61): the last value written there, or a free value. -/
def Panel.gramAt (p : Panel) (col row : Nat) : Color :=
  (findCell p.gram (gramKey col row)).getD (Config.gramPowerOn col row)

/-- Write a cell, if the address is inside `GRAM` (R64). -/
def Panel.writeGram (c : Config) (col row : Int) (v : Color) (p : Panel) : Panel :=
  if 0 ≤ col ∧ col < c.gramCols.toNat ∧ 0 ≤ row ∧ row < c.gramRows.toNat then
    { p with gram := putCell p.gram (gramKey col.toNat row.toNat) v }
  else p

/-! ### Reading the trace -/

/-- The window is inverted (R65): start above end. -/
def Panel.inverted (p : Panel) : Bool := decide (p.pxe < p.pxs) || decide (p.pye < p.pys)

/-- The pointer after a pixel (R64): along the row, then to the start of the next. -/
def Panel.advance (p : Panel) : Panel :=
  if p.pc + 1 > p.pxe.toNat then { p with pc := p.pxs.toNat, pr := p.pr + 1 }
  else { p with pc := p.pc + 1 }

/-- A completed pixel inside the window (R64): a panel write. -/
def Panel.plot (c : Config) (v : Color) (p : Panel) : Panel :=
  { p.writeGram c p.pc p.pr v with writes := p.writes ++ [⟨p.pc, p.pr, v⟩] }

/-- A completed pixel with an unspecified effect (R65, U1, U3): a free value at a free place. Whether
it enters the panel-write list, and so `LPW`, R65 and U3 leave open: it is free too. That the effect
is one write of one cell is the model's choice (log entry 3). -/
def Panel.stray (c : Config) (p : Panel) : Panel :=
  let w := Config.strayPixel p.strays
  { p.writeGram c w.1 w.2.1 w.2.2 with
    writes := if Config.strayListed p.strays then p.writes ++ [⟨w.1, w.2.1, w.2.2⟩] else p.writes
    strays := p.strays + 1 }

/-- A completed pixel (R64, R65). -/
def Panel.pixel (c : Config) (v : Color) (p : Panel) : Panel :=
  (if p.pr ≤ p.pye.toNat ∧ ¬p.inverted then p.plot c v else p.stray c).advance

/-- One data byte in mode WRITE (R64): the first of a pair waits, the second completes the pixel. -/
def Panel.writeByte (c : Config) (b : Byte) (p : Panel) : Panel :=
  match p.pending with
  | none => { p with pending := some b }
  | some first => Panel.pixel c (packBytes first b) { p with pending := none }

/-- The window registers once four parameter bytes are there (R63). -/
def Panel.latch (p : Panel) : Panel :=
  match p.params with
  | [b0, b1, b2, b3] =>
    if p.mode = .cols then { p with pxs := packBytes b0 b1, pxe := packBytes b2 b3 }
    else { p with pys := packBytes b0 b1, pye := packBytes b2 b3 }
  | _ => p

/-- One data byte in mode COLS or ROWS (R63); bytes after the fourth are ignored. -/
def Panel.paramByte (b : Byte) (p : Panel) : Panel :=
  if p.params.length < 4 then Panel.latch { p with params := p.params ++ [b] } else p

/-- One data byte (R63, R64). -/
def Panel.dataByte (c : Config) (p : Panel) (b : Byte) : Panel :=
  match p.mode with
  | .cols | .rows => p.paramByte b
  | .write => p.writeByte c b
  | .idle | .other => p

/-- A window command that ends with fewer than four data bytes leaves its registers unspecified
(R63, U4). -/
def Panel.endParams (p : Panel) : Panel :=
  if p.params.length < 4 then
    let v := Config.shortWindow p.shorts
    match p.mode with
    | .cols => { p with pxs := v.1, pxe := v.2, shorts := p.shorts + 1 }
    | .rows => { p with pys := v.1, pye := v.2, shorts := p.shorts + 1 }
    | .write | .idle | .other => p
  else p

/-- A command byte (R62). -/
def Panel.command (c : Config) (b : Byte) (p : Panel) : Panel :=
  let q := { p.endParams with pending := none, params := [] }
  if b = c.cmdCaset then { q with mode := .cols }
  else if b = c.cmdRaset then { q with mode := .rows }
  else if b = c.cmdRamwr then { q with mode := .write, pc := q.pxs.toNat, pr := q.pys.toNat }
  else { q with mode := .other }

/-- One transport call (R62 to R64); the reset line, delays and the backlight do not concern it. -/
def Panel.event (c : Config) (p : Panel) : Event → Panel
  | .cmd b => p.command c b
  | .data bytes => bytes.foldl (Panel.dataByte c) p
  | .rst _ | .delay _ | .bl _ => p

/-- The panel after a trace. -/
def Panel.observe (c : Config) (p : Panel) (tr : List Event) : Panel := tr.foldl (Panel.event c) p

/-- The reference panel as it stands: the one the trace began with, after the trace. -/
def State.panel (s : State) : Panel := s.panelBase.observe s.cfg s.trace

/-! ### Logical pixel writes -/

/-- A logical pixel write (R66). -/
structure LogicalWrite where
  x : Int
  y : Int
  value : Color
deriving DecidableEq, Repr

/-- A panel write in logical coordinates (R66): less the offsets of the stream it belongs to. -/
def PanelWrite.logical (colOff rowOff : Halfword) (w : PanelWrite) : LogicalWrite :=
  ⟨w.col - colOff.toNat, w.row - rowOff.toNat, w.value⟩

/-- The offsets in force when the event at place `k` of the trace was made: those loaded last before
it. -/
def State.offsetsAt (s : State) (k : Nat) : Offsets :=
  match s.offsetLog.find? fun e => decide (e.after ≤ k) with
  | some e => e.offsets
  | none => ⟨s.colOff, s.rowOff⟩

/-- The logical pixel writes of a trace whose first event stands at place `k`, read from panel `p` in a
stream begun under `cur`: each panel write less the offsets at the `CMD_RAMWR` that started its stream
(R66). -/
def logicalWrites (c : Config) (offsetsAt : Nat → Offsets) :
    Nat → Panel → Offsets → List Event → List LogicalWrite
  | _, _, _, [] => []
  | k, p, cur, e :: tr =>
    let o := if e = .cmd c.cmdRamwr then offsetsAt k else cur
    ((p.event c e).writes.drop p.writes.length).map (PanelWrite.logical o.col o.row)
      ++ logicalWrites c offsetsAt (k + 1) (p.event c e) o tr

/-- `LPW(trace)` (R66) of the trace as it stands. A stream that the trace does not start would be read
by the offsets at its start; every command's events begin outside one (log entry 17). -/
def State.lpw (s : State) : List LogicalWrite :=
  logicalWrites s.cfg s.offsetsAt 0 s.panelBase (s.offsetsAt 0) s.trace

/-- `LPW` of a trace segment all of whose streams start under the same offsets (R66): the panel writes
it adds, in logical coordinates. The segment of one command is one, under the offsets the command
finds: SET_ROTATION completes no pixel, and INIT loads a tuple after its last event. -/
def lpw (c : Config) (p : Panel) (colOff rowOff : Halfword) (seg : List Event) :
    List LogicalWrite :=
  ((p.observe c seg).writes.drop p.writes.length).map (PanelWrite.logical colOff rowOff)

end Sys2Proof.Machine
end

