-- ==== Sys2Proof/Machine/Input.lean ====
section
/-! DEFINITION. What one host input does: a packet is decoded and run, a byte of operand memory is
stored, or the block is reset. -/

namespace Sys2Proof.Machine

open Sys2Proof

/-- A packet the host issues (00_scope.md R6, 30_encoding.md R87): decode comes before any other
effect, and a packet that fails it changes the completion record only. -/
def runPacket (p : Packet) (s : State) : Host.Outcome State Fault Refusal :=
  match decode p with
  | .ok i => exec i s
  | .error _ => .next (s.raise .errIllegal)

/-- The host writes a byte of its operand memory between two commands (20_memory.md R52, R67). An
address not below `HMEM_SIZE` does not exist. -/
def hostStore (addr : Nat) (byte : Byte) (s : State) : Host.Outcome State Fault Refusal :=
  if addr < s.cfg.hmemSize then .next { s with hostMem := s.hostMem.write addr byte }
  else .fault (.hostStoreAbsent addr)

/-- Block reset (10_state.md R39, 70_reset_and_hazards.md R220): every register and the trace as at
power-on. The parameters, the host's memory and stream and the oracles are not the block's; the panel
is not touched, so it stands as the emptied trace left it. -/
def State.blockReset (s : State) : State :=
  { State.powerOn s.cfg with
    hostMem := s.hostMem, inputs := s.inputs
    busOracle := s.busOracle, grantOracle := s.grantOracle
    panelBase := s.panel }

/-- One host input. -/
def runInput (inp : HostInput) (s : State) : Host.Outcome State Fault Refusal :=
  match inp with
  | .issue p => runPacket p s
  | .store addr byte => hostStore addr byte s
  | .blockReset => .next s.blockReset

/-- One step: take the host's next input and perform it to completion. With none the DFC is idle and
holds its state (60_exceptions.md R214). -/
def runNext (s : State) : Host.Outcome State Fault Refusal :=
  match s.inputs with
  | [] => .next s
  | inp :: rest => runInput inp { s with inputs := rest }

/-- The packet whose bits are `w` put first in the host's stream. -/
def State.issueFirst (p : Packet) (s : State) : State := { s with inputs := .issue p :: s.inputs }

end Sys2Proof.Machine
end

