-- ==== Sys2Proof/Machine/Step.lean ====
section
/-! DEFINITION. The step of the machine, and where it takes its next command from. -/

namespace Sys2Proof.Machine

open Sys2Proof

/-- One step of the machine: one host input, a whole command at a time (00_scope.md R5, R6). -/
def step (s : State) : Host.Outcome State Fault Refusal := runNext s

/-- The machine about to take the packet whose bits are `w` (log entry 10): the DFC fetches nothing
(10_state.md R21), so the packet is put first in the host's stream. -/
def State.withFetchWord (s : State) (nbits w : Nat) : State := s.issueFirst (packetOfWord nbits w)

end Sys2Proof.Machine
end

