-- ==== Sys2Proof/Machine/Assembler.lean ====
section
/-! DEFINITION. The assembly syntax (30_encoding.md R91) and the pseudo-instructions (R92): one line of
text to one packet, rejecting by name. -/

namespace Sys2Proof.Machine

open Sys2Proof

/-- The pseudo-instructions of R92. -/
inductive Pseudo
  | hline (x y w : Int) (c : Color)
  | vline (x y h : Int) (c : Color)
  | fillScreen (c : Color)
  | invon
  | invoff
deriving DecidableEq, Repr

/-- The expansion of a pseudo-instruction (R92). -/
def Pseudo.expand : Pseudo → Instr
  | .hline x y w c => .fillRect x y w 1 c
  | .vline x y h c => .fillRect x y 1 h c
  | .fillScreen c => .fillRect 0 0 32767 32767 c
  | .invon => .invert 1
  | .invoff => .invert 0

/-- Why a line is no command (R91). -/
inductive AsmError
  /-- The line does not begin with a mnemonic. -/
  | noMnemonic
  /-- The mnemonic is neither one of R86 nor one of R92. -/
  | unknownMnemonic
  /-- An operand is no number, character or address. -/
  | badOperand
  /-- The operands are not those of the mnemonic, in number or kind. -/
  | wrongOperands
  /-- An operand is outside the range of its field. -/
  | outOfRange
deriving DecidableEq, Repr

/-- What a line is made of. -/
inductive Token
  | word (cs : List Char)
  | quoted (c : Char)
  | comma
  | at
deriving DecidableEq, Repr

/-- The word read so far, if any. -/
def flushWord (acc : List Char) : List Token := if acc = [] then [] else [.word acc.reverse]

/-- The tokens of a line; `;` starts a comment. -/
def lexLine : List Char → List Char → List Token
  | [], acc => flushWord acc
  | '\'' :: c :: '\'' :: rest, acc => flushWord acc ++ .quoted c :: lexLine rest []
  | c :: rest, acc =>
    if c = ';' then flushWord acc
    else if c = ',' then flushWord acc ++ .comma :: lexLine rest []
    else if c = '@' then flushWord acc ++ .at :: lexLine rest []
    else if c = ' ' ∨ c = '\t' ∨ c = '\n' ∨ c = '\r' then flushWord acc ++ lexLine rest []
    else lexLine rest (c :: acc)

/-- The value of a digit of base 10 or 16. -/
def digitOf (base : Nat) (c : Char) : Option Nat :=
  let v :=
    if '0' ≤ c ∧ c ≤ '9' then some (c.toNat - '0'.toNat)
    else if 'a' ≤ c ∧ c ≤ 'f' then some (c.toNat - 'a'.toNat + 10)
    else if 'A' ≤ c ∧ c ≤ 'F' then some (c.toNat - 'A'.toNat + 10)
    else none
  v.bind fun d => if d < base then some d else none

/-- The number a list of digits spells, after the value read so far. -/
def digitsValue (base : Nat) : List Char → Nat → Option Nat
  | [], n => some n
  | c :: cs, n => (digitOf base c).bind fun d => digitsValue base cs (n * base + d)

/-- A number (R91): decimal, optionally negative, or hexadecimal with the `0x` prefix. -/
def numberOf : List Char → Option Int
  | '0' :: 'x' :: c :: cs => (digitsValue 16 (c :: cs) 0).map Int.ofNat
  | '-' :: c :: cs => (digitsValue 10 (c :: cs) 0).map fun (n : Nat) => -(n : Int)
  | c :: cs => (digitsValue 10 (c :: cs) 0).map Int.ofNat
  | [] => none

/-- An operand as written. -/
inductive AsmOperand
  | num (v : Int)
  | char (c : Char)
  | addr (v : Int)
deriving DecidableEq, Repr

/-- The operands of a line, separated by commas. -/
def operandsOf : List Token → Option (List AsmOperand)
  | [] => some []
  | [.word w] => (numberOf w).map fun v => [.num v]
  | [.quoted c] => some [.char c]
  | [.at, .word w] => (numberOf w).map fun v => [.addr v]
  | .word w :: .comma :: t :: ts =>
    (numberOf w).bind fun v => (operandsOf (t :: ts)).map (.num v :: ·)
  | .quoted c :: .comma :: t :: ts => (operandsOf (t :: ts)).map (.char c :: ·)
  | .at :: .word w :: .comma :: t :: ts =>
    (numberOf w).bind fun v => (operandsOf (t :: ts)).map (.addr v :: ·)
  | _ => none

/-- What a mnemonic stands for. -/
inductive AsmOp
  | core (o : Opcode)
  | hline | vline | fillScreen | invon | invoff
deriving DecidableEq, Repr

/-- The mnemonics of R86 and R92. -/
def mnemonicTable : List (String × AsmOp) :=
  [("INIT", .core .init), ("SET_ROTATION", .core .setRotation), ("SET_WINDOW", .core .setWindow),
   ("INVERT", .core .invert), ("GET_WIDTH", .core .getWidth), ("GET_HEIGHT", .core .getHeight)] ++
  [("FILL_RECT", .core .fillRect), ("DRAW_PIXEL", .core .drawPixel),
   ("DRAW_IMAGE", .core .drawImage)] ++
  [("LINE", .core .line), ("RECT", .core .rect), ("FILLED_RECT", .core .filledRect),
   ("CIRCLE", .core .circle), ("FILLED_CIRCLE", .core .filledCircle)] ++
  [("DRAW_CHAR", .core .drawChar), ("DRAW_STRING", .core .drawString)] ++
  [("HLINE", .hline), ("VLINE", .vline), ("FILL_SCREEN", .fillScreen), ("INVON", .invon),
   ("INVOFF", .invoff)]

/-- The operation a word names. -/
def mnemonicOf (w : List Char) : Option AsmOp :=
  (mnemonicTable.find? fun row => row.1.toList == w).map (·.2)

/-- A u16 operand as a colour; out of range is an assembly error (R91). -/
def asColor (v : Int) : Except AsmError Color :=
  if 0 ≤ v ∧ v ≤ 65535 then .ok (BitVec.ofInt 16 v) else .error .outOfRange

/-- An unsigned operand as a number; its upper end is checked by `Instr.wf`. A negative one is an error:
R91 says so of a u16 and a u8, for an address it is the model's choice (log entry 15). -/
def asNat (v : Int) : Except AsmError Nat := if 0 ≤ v then .ok v.toNat else .error .outOfRange

/-- The command of a mnemonic with its operands, in the order of R91 and R92. -/
def buildInstr : AsmOp → List AsmOperand → Except AsmError Instr
  | .core .init, [] => .ok .init
  | .core .setRotation, [.num v] => (asNat v).map .setRotation
  | .core .setWindow, [.num x0, .num y0, .num x1, .num y1] => .ok (.setWindow x0 y0 x1 y1)
  | .core .invert, [.num v] => (asNat v).map .invert
  | .core .getWidth, [] => .ok .getWidth
  | .core .getHeight, [] => .ok .getHeight
  | .core .fillRect, [.num x, .num y, .num w, .num h, .num c] => (asColor c).map (.fillRect x y w h)
  | .core .drawPixel, [.num x, .num y, .num c] => (asColor c).map (.drawPixel x y)
  | .core .drawImage, [.num x, .num y, .num w, .num h, .addr a] =>
    (asNat a).map (.drawImage x y w h)
  | .core .line, [.num x0, .num y0, .num x1, .num y1, .num c] => (asColor c).map (.line x0 y0 x1 y1)
  | .core .rect, [.num x, .num y, .num w, .num h, .num c] => (asColor c).map (.rect x y w h)
  | .core .filledRect, [.num x, .num y, .num w, .num h, .num c] =>
    (asColor c).map (.filledRect x y w h)
  | .core .circle, [.num x0, .num y0, .num r, .num c] => (asColor c).map (.circle x0 y0 r)
  | .core .filledCircle, [.num x0, .num y0, .num r, .num c] =>
    (asColor c).map (.filledCircle x0 y0 r)
  | .core .drawChar, [.num x, .num y, .num code, .num fg, .num bg, .num s] =>
    (asNat s).bind fun s => (asNat code).bind fun code => (asColor fg).bind fun fg =>
      (asColor bg).map fun bg => .drawChar x y s code fg bg
  | .core .drawChar, [.num x, .num y, .char ch, .num fg, .num bg, .num s] =>
    (asNat s).bind fun s => (asColor fg).bind fun fg =>
      (asColor bg).map fun bg => .drawChar x y s ch.toNat fg bg
  | .core .drawString, [.num x, .num y, .addr a, .num fg, .num bg, .num s] =>
    (asNat s).bind fun s => (asNat a).bind fun a => (asColor fg).bind fun fg =>
      (asColor bg).map fun bg => .drawString x y s fg bg a
  | .hline, [.num x, .num y, .num w, .num c] =>
    (asColor c).map fun c => (Pseudo.hline x y w c).expand
  | .vline, [.num x, .num y, .num h, .num c] =>
    (asColor c).map fun c => (Pseudo.vline x y h c).expand
  | .fillScreen, [.num c] => (asColor c).map fun c => (Pseudo.fillScreen c).expand
  | .invon, [] => .ok Pseudo.invon.expand
  | .invoff, [] => .ok Pseudo.invoff.expand
  | _, _ => .error .wrongOperands

/-- The command of a line, its operands in range; `none` for a line that holds no command (R91). R91
makes an s16, u16 or u8 out of range an assembly error; that an `@addr` outside the u32 of R84 (0 to
2^32 - 1) is one too is the model's choice (log entry 15, DESIGN CHOICE). -/
def parseLine (line : List Char) : Except AsmError (Option Instr) :=
  match lexLine line [] with
  | [] => .ok none
  | .word w :: rest =>
    match mnemonicOf w with
    | none => .error .unknownMnemonic
    | some op =>
      match operandsOf rest with
      | none => .error .badOperand
      | some ops =>
        (buildInstr op ops).bind fun i => if i.wf then .ok (some i) else .error .outOfRange
  | _ :: _ => .error .noMnemonic

/-- The packet a line assembles to (R91). -/
def assembleLine (line : String) : Except AsmError (Option Packet) :=
  (parseLine line.toList).map fun i => i.map encode

end Sys2Proof.Machine
end

