-- ==== Sys2Proof/Safety.lean ====
section
/-! DEFINITION. What claims about the machine are written in: the invariant of a state between two
commands, the frames of the commands, what an oracle will answer, and what a primitive draws. -/

namespace Sys2Proof.Machine

open Sys2Proof

/-! ### The invariant of a state between two commands -/

/-- Every DATA call carries at least one byte (R11, R110). -/
def framedTrace (tr : List Event) : Bool :=
  tr.all fun e =>
    match e with
    | .data bytes => !bytes.isEmpty
    | .cmd _ | .rst _ | .delay _ | .bl _ => true

/-- The levels driven on the reset line, in order. -/
def resetLevels (tr : List Event) : List Bool :=
  tr.filterMap fun e =>
    match e with
    | .rst l => some l
    | .cmd _ | .data _ | .delay _ | .bl _ => none

/-- The levels driven on the backlight line, in order. -/
def backlightLevels (tr : List Event) : List Bool :=
  tr.filterMap fun e =>
    match e with
    | .bl l => some l
    | .cmd _ | .data _ | .delay _ | .rst _ => none

/-- The five tuple registers of a state, as R28 lists them. -/
def State.tuple (s : State) : Tuple :=
  ⟨s.madctlCur, s.colOff, s.rowOff, s.width, s.height⟩

/-- Every listed address of host operand memory exists (R52). -/
def Memory.within (m : Memory) (size : Nat) : Bool := m.all fun cell => decide (cell.1 < size)

/-- The record of the offsets begins with the trace, ends with the current ones and tells of no event to
come. -/
def State.offsetsLogged (s : State) : Prop :=
  s.offsetLog.head?.map OffsetChange.offsets = some ⟨s.colOff, s.rowOff⟩
    ∧ s.offsetLog.getLast?.map OffsetChange.after = some 0
    ∧ ∀ e ∈ s.offsetLog, e.after ≤ s.trace.length

/-- The invariant of every state between two commands. -/
structure State.Inv (s : State) : Prop where
  /-- The parameters meet their constraints (R7, R103). -/
  params : s.cfg.wf = true
  /-- `(MADCTL_CUR, COLOFF, ROWOFF, WIDTH, HEIGHT) = TUPLE[ROT]` (R28). -/
  tuple : s.tuple = tupleOf s.cfg s.rot
  /-- The record of the offsets ends with the current ones (R66; log entry 17). -/
  offsets : s.offsetsLogged
  /-- Host operand memory is in canonical form and inside `HMEM_SIZE` (R52). -/
  memory : s.hostMem.wf = true
  memoryRange : s.hostMem.within s.cfg.hmemSize = true
  /-- No DATA call is empty (R11). -/
  framed : framedTrace s.trace = true
  /-- The line levels are those last driven (R32). -/
  resetLine : s.rstLvl = (resetLevels s.trace).getLast?
  backlightLine : s.blLvl = (backlightLevels s.trace).getLast?
  /-- An initialised panel is out of reset (R100). -/
  outOfReset : s.initDone = true → s.rstLvl = some true
  /-- Neither latch survives a command, and no scanline buffer is held (R34, R35). -/
  latches : s.bufErr = false ∧ s.aborted = false
  released : s.lineBuf = none
  /-- Codes 0x07 to 0xFF are never produced, and with every error the value is 0 (R200). -/
  status : s.lastStatus.toNat ≤ 6
  errorValue : s.lastStatus ≠ 0 → s.lastValue = 0
  /-- The panel memory the observer keeps is sorted. -/
  panelMemory : risingCells s.panelBase.gram = true

/-! ### Frames -/

/-- What no command writes (R38, R51, R101): the parameters, host operand memory, the host's stream,
the panel the trace is read by. -/
structure KeepsEnvironment (s t : State) : Prop where
  cfg : t.cfg = s.cfg
  memory : ∀ a, t.hostMem.read a = s.hostMem.read a
  inputs : t.inputs = s.inputs
  panelBase : t.panelBase = s.panelBase

/-- The registers of R23 that record the panel's orientation are as before, and so is the record of
the offsets they have held. -/
structure KeepsOrientation (s t : State) : Prop where
  rot : t.rot = s.rot
  width : t.width = s.width
  height : t.height = s.height
  colOff : t.colOff = s.colOff
  rowOff : t.rowOff = s.rowOff
  madctlCur : t.madctlCur = s.madctlCur
  offsetLog : t.offsetLog = s.offsetLog

/-- `INIT_DONE` and the line levels are as before. -/
structure KeepsPanelLines (s t : State) : Prop where
  initDone : t.initDone = s.initDone
  rstLvl : t.rstLvl = s.rstLvl
  blLvl : t.blLvl = s.blLvl

/-- Everything but the trace, the completion record, `INV`, the latches, the scanline buffer and the
two oracles is as before. -/
structure KeepsPanelState (s t : State) : Prop where
  environment : KeepsEnvironment s t
  orientation : KeepsOrientation s t
  lines : KeepsPanelLines s t

/-- The frame of a drawing command: it writes the trace and the completion record and may ask the grant
oracle; it leaves the latches clear (R35; log entry 8), holds no scanline buffer it did not find (R34),
and leaves everything else as it was. -/
structure DrawFrame (s t : State) : Prop where
  panel : KeepsPanelState s t
  inv : t.inv = s.inv
  busOracle : t.busOracle = s.busOracle
  latches : t.bufErr = false ∧ t.aborted = false
  released : s.lineBuf = none → t.lineBuf = none

/-- The hidden state of the blitter and the grant oracle are as before. -/
structure KeepsBlitter (s t : State) : Prop where
  lineBuf : t.lineBuf = s.lineBuf
  bufErr : t.bufErr = s.bufErr
  aborted : t.aborted = s.aborted
  grantOracle : t.grantOracle = s.grantOracle

/-- The completion record is `(st, v)` (R33). -/
def State.completedWith (t : State) (st : Byte) (v : Halfword) : Prop :=
  t.lastStatus = st ∧ t.lastValue = v

/-! ### Oracles -/

/-- What an oracle answers the `j`-th time it is asked from now on. -/
def Oracle.answerAt (free : Nat → Bool) (o : Oracle) (j : Nat) : Bool :=
  match o.answers[j]? with
  | some b => b
  | none => free (o.asked + j)

/-- Every buffer grant asked from now on is given. -/
def State.grantsAll (s : State) : Prop :=
  s.cfg.bufMayFail = false ∨ ∀ j, s.grantOracle.answerAt Config.grantDraw j = true

/-- The next answer of the grant oracle. -/
def State.nextGrant (s : State) : Bool := s.grantOracle.answerAt Config.grantDraw 0

/-- The next grant asked for is given (R134). -/
def State.grantGiven (s : State) : Bool := !s.cfg.bufMayFail || s.nextGrant

/-! ### What is sent for a primitive -/

/-- A 16-bit value on the wire (R57, R58): the value modulo 2^16, most significant byte first, counted
with numbers only. -/
def wireBytes (v : Int) : List Byte := [BitVec.ofInt 8 (v / 256), BitVec.ofInt 8 v]

/-- A colour on the wire (R132). -/
def wireColor (c : Color) : List Byte := wireBytes c.toNat

/-- The transport calls of a window with these corners in logical coordinates (R108). -/
def State.windowCalls (s : State) (x0 y0 x1 y1 : Int) : List Event :=
  [.cmd s.cfg.cmdCaset, .data (wireBytes (x0 + s.colOff.toNat) ++ wireBytes (x1 + s.colOff.toNat)),
   .cmd s.cfg.cmdRaset, .data (wireBytes (y0 + s.rowOff.toNat) ++ wireBytes (y1 + s.rowOff.toNat)),
   .cmd s.cfg.cmdRamwr]

/-- The on-screen part of a rectangle is not empty (R130). -/
def State.sees (s : State) (x y w h : Int) : Prop :=
  0 < w ∧ 0 < h ∧ max x 0 < min (x + w) s.width.toNat ∧ max y 0 < min (y + h) s.height.toNat

/-- The on-screen part of a rectangle (R130): the intersection with the screen. -/
def State.screenPart (s : State) (x y w h : Int) : Rect :=
  { x := max x 0, y := max y 0
    w := min (x + w) s.width.toNat - max x 0, h := min (y + h) s.height.toNat - max y 0 }

/-- The transport calls of the window of a rectangle. -/
def State.rectWindow (s : State) (r : Rect) : List Event :=
  s.windowCalls r.x r.y (r.x + r.w - 1) (r.y + r.h - 1)

/-- The transport calls of a rectangle filled with one colour (R131, R133): its window, then one DATA
call of `2*w` bytes for each of its `h` scanlines. -/
def State.fillCalls (s : State) (r : Rect) (c : Color) : List Event :=
  s.rectWindow r
    ++ List.replicate r.h.toNat (.data (List.replicate r.w.toNat (wireColor c)).flatten)

/-- The transport calls of a primitive whose grant is given, at the current extents and offsets
(R131, R137). -/
def State.primEvents (s : State) : Prim → List Event
  | .fill x y w h c =>
    match s.clip x y w h with
    | none => []
    | some r => s.fillCalls r c
  | .pixel x y c =>
    if s.onScreen x y then s.windowCalls x y x y ++ [.data (wireColor c)] else []

/-! ### Plans whose grants may be refused -/

/-- A primitive asks the oracle for a grant: a fill with an on-screen part, where grants can be refused
(R131, R134); a pixel never does (R138). -/
def State.asks (s : State) : Prim → Bool
  | .fill x y w h _ => s.cfg.bufMayFail && (s.clip x y w h).isSome
  | .pixel _ _ _ => false

/-- How many grants the first `k` primitives of a plan ask for if each is reached. -/
def State.asked (s : State) (ps : List Prim) (k : Nat) : Nat := (ps.take k).countP s.asks

/-- Primitive `p`, which stands at place `k` of a plan, asks for a grant and is refused it. -/
def State.refusedAt (s : State) (ps : List Prim) (k : Nat) (p : Prim) : Bool :=
  s.asks p && !s.grantOracle.answerAt Config.grantDraw (s.asked ps k)

/-- What a refused primitive sends (R131): its window alone. -/
def State.windowAlone (s : State) : Prim → List Event
  | .fill x y w h _ => s.rectWindow (s.screenPart x y w h)
  | .pixel _ _ _ => []

/-! ### What a primitive draws -/

/-- The pixels of a rectangle, row by row, left to right (R70). -/
def rectPixels (r : Rect) (c : Color) : List LogicalWrite :=
  (List.range r.h.toNat).flatMap fun (j : Nat) =>
    (List.range r.w.toNat).map fun (i : Nat) => ⟨r.x + i, r.y + j, c⟩

/-- The on-screen pixels a primitive writes, in order (R70, R130, R137). -/
def State.primPixels (s : State) : Prim → List LogicalWrite
  | .fill x y w h c =>
    match s.clip x y w h with
    | none => []
    | some r => rectPixels r c
  | .pixel x y c => if s.onScreen x y then [⟨x, y, c⟩] else []

/-- The window commands can be told apart (they are three of the parameters of R7). -/
def windowOpcodesDistinct (c : Config) : Prop :=
  c.cmdCaset ≠ c.cmdRaset ∧ c.cmdCaset ≠ c.cmdRamwr ∧ c.cmdRaset ≠ c.cmdRamwr

/-- Every on-screen controller coordinate fits the 16 bits a window sends (R58). -/
def State.windowFits (s : State) : Prop :=
  s.colOff.toNat + s.width.toNat ≤ 65536 ∧ s.rowOff.toNat + s.height.toNat ≤ 65536

/-! ### Commands by kind -/

/-- The commands that pass the initialisation gate (R202): all but INIT, GET_WIDTH and GET_HEIGHT. -/
def gatedCommand : Instr → Bool
  | .init | .getWidth | .getHeight => false
  | .setRotation _ | .setWindow _ _ _ _ | .invert _ | .fillRect _ _ _ _ _ | .drawPixel _ _ _
  | .drawImage _ _ _ _ _ | .line _ _ _ _ _ | .rect _ _ _ _ _ | .filledRect _ _ _ _ _
  | .circle _ _ _ _ | .filledCircle _ _ _ _ | .drawChar _ _ _ _ _ _ | .drawString _ _ _ _ _ _ =>
    true

/-- The drawing commands (R142): those that run between `begin()` and `finish()`. -/
def drawingCommand : Instr → Bool
  | .init | .getWidth | .getHeight | .setRotation _ | .setWindow _ _ _ _ | .invert _ => false
  | .fillRect _ _ _ _ _ | .drawPixel _ _ _ | .drawImage _ _ _ _ _ | .line _ _ _ _ _
  | .rect _ _ _ _ _ | .filledRect _ _ _ _ _ | .circle _ _ _ _ | .filledCircle _ _ _ _
  | .drawChar _ _ _ _ _ _ | .drawString _ _ _ _ _ _ => true

/-- The commands that read host operand memory (R50). -/
def readsHostMemory : Instr → Bool
  | .drawImage _ _ _ _ _ | .drawString _ _ _ _ _ _ => true
  | .init | .getWidth | .getHeight | .setRotation _ | .setWindow _ _ _ _ | .invert _
  | .fillRect _ _ _ _ _ | .drawPixel _ _ _ | .line _ _ _ _ _ | .rect _ _ _ _ _
  | .filledRect _ _ _ _ _ | .circle _ _ _ _ | .filledCircle _ _ _ _ | .drawChar _ _ _ _ _ _ => false

/-- The statuses of R200 a command may end with, by its row there and in its own rule. -/
def statusAllowed (i : Instr) (st : Byte) : Prop :=
  match i with
  | .init => st = 0x00 ∨ st = 0x03
  | .getWidth | .getHeight => st = 0x00
  | .setRotation _ | .setWindow _ _ _ _ | .invert _ | .drawPixel _ _ _ | .line _ _ _ _ _
  | .circle _ _ _ _ => st = 0x00 ∨ st = 0x02
  | .fillRect _ _ _ _ _ | .rect _ _ _ _ _ | .filledRect _ _ _ _ _ | .filledCircle _ _ _ _
  | .drawChar _ _ _ _ _ _ => st = 0x00 ∨ st = 0x02 ∨ st = 0x04
  | .drawString _ _ _ _ _ _ => st = 0x00 ∨ st = 0x02 ∨ st = 0x04 ∨ st = 0x05
  | .drawImage _ _ _ _ _ => st = 0x00 ∨ st = 0x02 ∨ st = 0x04 ∨ st = 0x05 ∨ st = 0x06

/-- The primitive calls of the commands that are made of primitives alone (R131, R137, R152 to R162,
R182, R187), with the host operand memory and parameters of a state; `none` for the others. -/
def planOf (s : State) : Instr → Option (List Prim)
  | .fillRect x y w h c => some [.fill x y w h c]
  | .drawPixel x y c => some [.pixel x y c]
  | .line x0 y0 x1 y1 c => some (pixelPlan (linePoints x0 y0 x1 y1) c)
  | .rect x y w h c => some (rectPlan x y w h c)
  | .filledRect x y w h c => some [.fill x y w h c]
  | .circle x0 y0 r c => some (pixelPlan (circlePoints x0 y0 r) c)
  | .filledCircle x0 y0 r c => some (spanPlan (circleSpans x0 y0 r) c)
  | .drawChar x y sc code fg bg => some (charPlan s.cfg x y code sc fg bg)
  | .drawString x y sc fg bg a =>
    (s.hostMem.readString s.cfg.hmemSize a).map fun bytes => stringPlan s.cfg x sc fg bg bytes x y
  | .init | .getWidth | .getHeight | .setRotation _ | .setWindow _ _ _ _ | .invert _
  | .drawImage _ _ _ _ _ => none

/-! ### Text layout -/

/-- Where DRAW_STRING's cursor stands before byte `i` (R187): below the start by `8*scale` for each
newline so far, and right of it by `6*scale` for each character since the last newline. -/
def cursorAt (x y : Int) (scale : Nat) (bytes : List Byte) (i : Nat) : Int × Int :=
  let before := bytes.take i
  (x + 6 * scale * (before.reverse.takeWhile (· ≠ 0x0A)).length, y + 8 * scale * before.count 0x0A)

/-- A pixel lies on a vertical span (R162). -/
def Span.covers (v : Span) (x y : Int) : Prop := x = v.x ∧ v.y ≤ y ∧ y < v.y + v.h

end Sys2Proof.Machine
end

