-- ==== Sys2Proof/Certificates/Slice0/Obligations.lean ====
section
/-! DEFINITION. The statements about this model: each formalises the rule of spec/ its comment names. -/

open Sys2Proof Sys2Proof.Machine

/-! ### Reset, steps and packets -/

/-- 10_state.md R39: what block reset sets. The machine right after reset holds those values. -/
def Obligations.ResetHoldsTheValuesOfBlockReset : Prop :=
  State.reset.initDone = false ∧ State.reset.rot = 0
    ∧ State.reset.madctlCur = State.reset.cfg.madctl.r0
    ∧ State.reset.colOff = State.reset.cfg.colStart.r0
    ∧ State.reset.rowOff = State.reset.cfg.rowStart.r0
    ∧ State.reset.width = 80 ∧ State.reset.height = 160
    ∧ State.reset.inv = false ∧ State.reset.rstLvl = none ∧ State.reset.blLvl = none
    ∧ State.reset.lastStatus = 0x00 ∧ State.reset.lastValue = 0x0000
    ∧ State.reset.trace = [] ∧ State.reset.lineBuf = none
    ∧ State.reset.bufErr = false ∧ State.reset.aborted = false

/-- 70_reset_and_hazards.md R220 and 10_state.md R39: block reset, asked for in any state, puts every
register at its reset value, empties the trace and does not touch the panel. That it leaves the
parameters, the host's memory and stream and the oracles is the model's (log entry 11). -/
def Obligations.BlockResetRestoresTheResetValues : Prop :=
  ∀ (s : State) (rest : List HostInput), s.inputs = .blockReset :: rest →
    ∃ t, step s = .next t
      ∧ t.initDone = false ∧ t.rot = 0 ∧ t.tuple = tupleOf s.cfg 0
      ∧ t.width = 80 ∧ t.height = 160 ∧ t.inv = false ∧ t.rstLvl = none ∧ t.blLvl = none
      ∧ t.completedWith 0x00 0x0000 ∧ t.trace = [] ∧ t.lineBuf = none
      ∧ t.bufErr = false ∧ t.aborted = false
      ∧ t.panel = s.panel ∧ t.cfg = s.cfg ∧ t.inputs = rest
      ∧ (∀ a, t.hostMem.read a = s.hostMem.read a)
      ∧ t.busOracle = s.busOracle ∧ t.grantOracle = s.grantOracle

/-- The invariant of a state between two commands holds right after reset. -/
def Obligations.ResetMeetsTheInvariant : Prop := State.reset.Inv

/-- Every step keeps the invariant, from every state that has it: the orientation tuple matches the
rotation (R28), the record of the offsets ends with them (R66; log entry 17), memory keeps its
canonical form, no DATA call is empty (R11), the line levels are
those last driven (R32), the latches and the buffer do not survive a command (R34, R35), and the
completion record is one of R200. -/
def Obligations.StepKeepsTheInvariant : Prop :=
  ∀ s t : State, s.Inv → step s = .next t → t.Inv

/-- 00_scope.md R6: a step takes the packet the host issues next and runs the command it decodes to;
with nothing issued the machine holds its state (60_exceptions.md R214). -/
def Obligations.StepRunsTheDecodedPacket : Prop :=
  (∀ (s : State) (p : Packet) (rest : List HostInput) (i : Instr),
      s.inputs = .issue p :: rest → decode p = .ok i → step s = exec i { s with inputs := rest })
    ∧ ∀ s : State, s.inputs = [] → step s = .next s

/-- A packet placed by `withFetchWord` is the one the next step runs. -/
def Obligations.FetchWordIsRunByTheNextStep : Prop :=
  ∀ (s : State) (nbits w : Nat) (i : Instr), decodeTableWord nbits w = some i →
    step (s.withFetchWord nbits w) = exec i s

/-- 60_exceptions.md R200: every command ends, with a completion record; none stops the machine. -/
def Obligations.EveryCommandCompletes : Prop :=
  ∀ (i : Instr) (s : State), ∃ t, exec i s = .next t

/-- 20_memory.md R52 and R67: the host stores a byte between two commands at any address below
`HMEM_SIZE`; it reads back there, and every other address reads as before. That a store to an address
that does not exist stops the step by name is the model's choice (log entry 12): the spec is silent. -/
def Obligations.HostStoreWritesOneByte : Prop :=
  ∀ (s : State) (a : Nat) (b : Byte) (rest : List HostInput), s.inputs = .store a b :: rest →
    (a < s.cfg.hmemSize → s.hostMem.wf = true →
      ∃ t, step s = .next t ∧ t.hostMem.read a = b
        ∧ (∀ a', a' ≠ a → t.hostMem.read a' = s.hostMem.read a')
        ∧ t = { s with inputs := rest, hostMem := t.hostMem })
    ∧ (¬a < s.cfg.hmemSize → step s = .fault (.hostStoreAbsent a))

/-! ### Encoding -/

/-- Decoding the encoding of a well-formed command gives the command back: no operand bit is dropped
(30_encoding.md R82 to R86). -/
def Obligations.DecodeOfEncodeIsTheCommand : Prop :=
  ∀ i : Instr, i.wf = true → decode (encode i) = .ok i

/-- Every packet that decodes is the encoding of what it decodes to, and that is well formed: every
bit of a legal packet has a meaning (30_encoding.md R88). -/
def Obligations.EncodeOfDecodeIsThePacket : Prop :=
  ∀ (p : Packet) (i : Instr), decode p = .ok i → encode i = p ∧ i.wf = true

/-- 30_encoding.md R87 with R86 and R89: a packet fails decode exactly if its opcode is not in the
map, a reserved field is not zero or its length is not its opcode's; and then it changes the
completion record only, whether or not the DFC is initialised. That a packet of no halfwords can be
issued, and that it fails decode under a name of its own, is the model's (log entry 9). -/
def Obligations.DecodeRejectsExactlyTheIllegalPackets : Prop :=
  ∀ (h0 : Halfword) (ops : List Halfword),
    ((∃ e, decode (h0 :: ops) = .error e) ↔
      h0.toNat % 256 ∉ [0x01, 0x02, 0x03, 0x04, 0x05, 0x06, 0x10, 0x11, 0x12, 0x20, 0x21, 0x22, 0x23,
          0x24, 0x30, 0x31]
        ∨ h0.toNat / 256 ≠ 0
        ∨ (h0.toNat, ops.length + 1) ∉ [(0x01, 1), (0x02, 2), (0x03, 5), (0x04, 2), (0x05, 1),
            (0x06, 1), (0x10, 6), (0x11, 4), (0x12, 7), (0x20, 6), (0x21, 6), (0x22, 6), (0x23, 5),
            (0x24, 5), (0x30, 6), (0x31, 8)]
        ∨ (h0.toNat = 0x31 ∧ ∃ h3, ops[2]? = some h3 ∧ h3.toNat % 256 ≠ 0))
    ∧ decode [] = .error .emptyPacket
    ∧ ∀ (s : State) (p : Packet) (rest : List HostInput) (e : DecodeError),
        s.inputs = .issue p :: rest → decode p = .error e →
          step s = .next { s with inputs := rest, lastStatus := 0x01, lastValue := 0 }

/-- Words written out from 30_encoding.md R81 to R86, R92 and R93 decode to the commands they stand
for, and the lines of R93 assemble to the packets given there. -/
def Obligations.WorkedEncodings : Prop :=
  decode [0x0010, 0x0096, 0x0046, 0x0014, 0x0014, 0xF800] = .ok (.fillRect 150 70 20 20 0xF800)
    ∧ decode [0x0030, 0x0000, 0x0000, 0x0241, 0xFFFF, 0x0000]
        = .ok (.drawChar 0 0 2 0x41 0xFFFF 0x0000)
    ∧ decode [0x0020, 0xFFFF, 0x0000, 0x0003, 0x0001, 0x001F] = .ok (.line (-1) 0 3 1 0x001F)
    ∧ decode [0x0001] = .ok .init
    ∧ decode [0x0002, 0x0005] = .ok (.setRotation 5)
    ∧ decode [0x0012, 0x000A, 0x000A, 0x0002, 0x0001, 0x0200, 0x0001]
        = .ok (.drawImage 10 10 2 1 0x10200)
    ∧ assembleLine "FILL_RECT 150, 70, 20, 20, 0xF800"
        = .ok (some [0x0010, 0x0096, 0x0046, 0x0014, 0x0014, 0xF800])
    ∧ assembleLine "DRAW_CHAR 0, 0, 'A', 0xFFFF, 0x0000, 2"
        = .ok (some [0x0030, 0x0000, 0x0000, 0x0241, 0xFFFF, 0x0000])
    ∧ assembleLine "LINE -1, 0, 3, 1, 0x001F"
        = .ok (some [0x0020, 0xFFFF, 0x0000, 0x0003, 0x0001, 0x001F])

/-! ### Whole-machine rules -/

/-- 60_exceptions.md R202: the initialisation gate. -/
def Obligations.GateStopsCommandsBeforeInit : Prop :=
  ∀ (i : Instr) (s : State), gatedCommand i = true → s.initDone = false →
    exec i s = .next { s with lastStatus := 0x02, lastValue := 0 }

/-- 60_exceptions.md R200: each command ends with one of the statuses its row gives it; with every
error the value is 0, and only the getters return another value (10_state.md R33). -/
def Obligations.StatusesAreThoseOfTheTable : Prop :=
  ∀ (i : Instr) (s t : State), exec i s = .next t →
    statusAllowed i t.lastStatus
      ∧ (t.lastStatus ≠ 0 → t.lastValue = 0)
      ∧ (i ≠ .getWidth → i ≠ .getHeight → t.lastValue = 0)

/-- 60_exceptions.md R203: a command that reports ERR_NOT_INIT, ERR_INIT_FAIL, ERR_SRC_RANGE or
ERR_SRC_ALIGN has emitted nothing. -/
def Obligations.EarlyErrorsEmitNothing : Prop :=
  ∀ (i : Instr) (s t : State), exec i s = .next t →
    t.lastStatus ∈ [(0x02 : Byte), 0x03, 0x05, 0x06] → t.trace = s.trace

/-- 60_exceptions.md R204: no rollback. A command only ever appends to the trace, and every DATA call
it appends carries at least one byte (00_scope.md R11). So do the logical pixel writes of the whole trace
(20_memory.md R66): whatever has been drawn before and at whatever rotations, a command leaves them as
they are and appends those of its own events, read by the offsets it finds. A rotation between two
draws moves no pixel of the first, and INIT, whose `INIT_SEQ` may open a window, is read by the offsets
it finds, not by those it loads. How the offsets of earlier streams are known is log entry 17. -/
def Obligations.TraceOnlyGrows : Prop :=
  ∀ (i : Instr) (s t : State), exec i s = .next t →
    ∃ seg, t.trace = s.trace ++ seg ∧ framedTrace seg = true
      ∧ (s.offsetsLogged →
          t.offsetsLogged ∧ t.lpw = s.lpw ++ lpw s.cfg s.panel s.colOff s.rowOff seg)

/-- No command writes host operand memory (20_memory.md R51) or a parameter (10_state.md R29, R38);
none touches the host's stream or the panel the trace is read by. -/
def Obligations.CommandsKeepTheEnvironment : Prop :=
  ∀ (i : Instr) (s t : State), exec i s = .next t → KeepsEnvironment s t

/-- The "written by" column of 10_state.md R23, with R24, R28, R30, R31 and R32: the orientation
registers are written by SET_ROTATION and INIT only, `INV` by INVERT and INIT only, `INIT_DONE` and
the line levels by INIT only, and only INIT asks the bus oracle. -/
def Obligations.RegistersAreWrittenByTheirWritersOnly : Prop :=
  ∀ (i : Instr) (s t : State), exec i s = .next t → i ≠ .init →
    KeepsPanelLines s t ∧ t.busOracle = s.busOracle
      ∧ ((∀ v, i ≠ .setRotation v) → KeepsOrientation s t)
      ∧ ((∀ v, i ≠ .invert v) → t.inv = s.inv)

/-- 41_blitter.md R142: a command ends with ERR_BUF exactly if one of the grants it asked for was
refused. -/
def Obligations.ErrBufIffAGrantWasRefused : Prop :=
  ∀ (i : Instr) (s t : State), exec i s = .next t →
    (t.lastStatus = 0x04 ↔
      ∃ j, j < t.grantOracle.asked - s.grantOracle.asked
        ∧ s.grantOracle.answerAt Config.grantDraw j = false)

/-- 41_blitter.md R135: under ABORT nothing follows a refused grant: it is the last one the command
asks for, and the window of the refused primitive is the last thing the command emits. -/
def Obligations.AbortEndsTheCommandAtTheRefusedGrant : Prop :=
  ∀ (i : Instr) (s t : State), exec i s = .next t → s.cfg.bufFailPolicy = .abort →
    (∀ j, j + 1 < t.grantOracle.asked - s.grantOracle.asked →
        s.grantOracle.answerAt Config.grantDraw j = true)
      ∧ (t.lastStatus = 0x04 → t.trace.getLast? = some (.cmd s.cfg.cmdRamwr))

/-- 40_panel.md R112: inversion changes no byte that any later command sends, and no outcome. -/
def Obligations.InversionChangesNothingSent : Prop :=
  ∀ (i : Instr) (s t : State) (b : Bool), exec i s = .next t →
    ∃ t', exec i { s with inv := b } = .next t' ∧ t'.trace = t.trace
      ∧ t'.lastStatus = t.lastStatus ∧ t'.lastValue = t.lastValue

/-- 20_memory.md R50 and 42_raster.md R151: only DRAW_IMAGE and DRAW_STRING read host operand memory;
every other command does the same whatever it holds. -/
def Obligations.OnlyImageAndStringReadHostMemory : Prop :=
  ∀ (i : Instr) (s t : State) (m : Memory), readsHostMemory i = false → exec i s = .next t →
    exec i { s with hostMem := m } = .next { t with hostMem := m }

/-! ### Panel family -/

/-- 40_panel.md R100, R102 and R104: INIT once the bus is registered, in any state, initialised or not
(R105). -/
def Obligations.InitRunsTheWholeSequence : Prop :=
  ∀ s : State, s.busOracle.answerAt Config.busDraw 0 = true →
    ∃ t, exec .init s = .next t
      ∧ t.trace = s.trace
          ++ (if s.cfg.pins.backlight.isSome then [.bl true] else [])
          ++ [.rst true, .delay s.cfg.tRstHigh, .rst false, .delay s.cfg.tRstLow, .rst true,
              .delay s.cfg.tRstWait]
          ++ (s.cfg.initSeq.map fun e =>
                [Event.cmd e.cmd] ++ (if e.data ≠ [] then [Event.data e.data] else [])
                  ++ (if e.delay > 0 then [Event.delay e.delay] else [])).flatten
      ∧ t.initDone = true ∧ t.rot = 0 ∧ t.tuple = tupleOf s.cfg 0
      ∧ t.width = 80 ∧ t.height = 160
      ∧ t.inv = (((s.cfg.initSeq.filter fun e => e.cmd == s.cfg.cmdInvon || e.cmd == s.cfg.cmdInvoff
            ).getLast?.map fun e => e.cmd == s.cfg.cmdInvon).getD false)
      ∧ t.rstLvl = some true
      ∧ t.blLvl = (if s.cfg.pins.backlight.isSome then some true else s.blLvl)
      ∧ t.completedWith 0x00 0 ∧ KeepsEnvironment s t ∧ KeepsBlitter s t
      ∧ t.busOracle.asked = s.busOracle.asked + 1

/-- 40_panel.md R101: INIT whose bus registration is refused. -/
def Obligations.InitFailsWithoutTouchingThePanel : Prop :=
  ∀ s : State, s.busOracle.answerAt Config.busDraw 0 = false →
    ∃ t, exec .init s = .next t
      ∧ t = { s with initDone := false, lastStatus := 0x03, lastValue := 0, busOracle := t.busOracle }
      ∧ t.busOracle.asked = s.busOracle.asked + 1

/-- 70_reset_and_hazards.md R221 with the minima of R229: with parameters that meet their constraints,
INIT drives the reset line high for at least 50 ms, low for at least 100 ms, high again with at least
200 ms before the first command byte, then sends the command of the first entry of `INIT_SEQ`, which is
the software reset, with its data if any, and waits at least 150 ms before the next entry; the last
thing it does is to wait at least 100 ms after the last entry, display-on. Which entry is the software
reset and which display-on is the role that log entry 5 (DESIGN CHOICE) has entries carry. -/
def Obligations.InitMeetsTheMinimumDelays : Prop :=
  ∀ s : State, s.cfg.wf = true → s.busOracle.answerAt Config.busDraw 0 = true →
    ∃ t pre high low wait first last more, exec .init s = .next t
      ∧ s.cfg.initSeq.head? = some first ∧ first.role = .softwareReset
      ∧ s.cfg.initSeq.getLast? = some last ∧ last.role = .displayOn
      ∧ t.trace = s.trace ++ pre
          ++ [.rst true, .delay high, .rst false, .delay low, .rst true, .delay wait]
          ++ [.cmd first.cmd] ++ (if first.data = [] then [] else [.data first.data])
          ++ [.delay first.delay]
          ++ more ++ [.cmd last.cmd] ++ (if last.data = [] then [] else [.data last.data])
          ++ [.delay last.delay]
      ∧ (pre = [] ∨ pre = [.bl true])
      ∧ 50 ≤ high ∧ 100 ≤ low ∧ 200 ≤ wait ∧ 150 ≤ first.delay ∧ 100 ≤ last.delay

/-- 40_panel.md R106 with 00_scope.md R8: SET_ROTATION with any operand. -/
def Obligations.SetRotationSelectsTheTuple : Prop :=
  ∀ (s : State) (val : Nat), s.initDone = true →
    ∃ t, exec (.setRotation val) s = .next t
      ∧ t.rot.val = val % 4
      ∧ (val % 4 = 0 → t.tuple =
          ⟨s.cfg.madctl.r0, s.cfg.colStart.r0, s.cfg.rowStart.r0, 80, 160⟩)
      ∧ (val % 4 = 1 → t.tuple =
          ⟨s.cfg.madctl.r1, s.cfg.colStart.r1, s.cfg.rowStart.r1, 160, 80⟩)
      ∧ (val % 4 = 2 → t.tuple =
          ⟨s.cfg.madctl.r2, s.cfg.colStart.r2, s.cfg.rowStart.r2, 80, 160⟩)
      ∧ (val % 4 = 3 → t.tuple =
          ⟨s.cfg.madctl.r3, s.cfg.colStart.r3, s.cfg.rowStart.r3, 160, 80⟩)
      ∧ t.trace = s.trace ++ [.cmd s.cfg.cmdMadctl, .data [t.madctlCur]]
      ∧ t.completedWith 0x00 0
      ∧ KeepsEnvironment s t ∧ KeepsPanelLines s t ∧ KeepsBlitter s t
      ∧ t.inv = s.inv ∧ t.busOracle = s.busOracle

/-- 95_test_vectors.md S1 with 00_scope.md R8 and 40_panel.md R113 and R114: the extents the getters
return after a rotation are 160 by 80 at odd rotations and 80 by 160 at even ones. -/
def Obligations.GettersSwapWithTheRotation : Prop :=
  ∀ (s : State) (val : Nat), s.initDone = true →
    ∃ t u v, exec (.setRotation val) s = .next t ∧ exec .getWidth t = .next u
      ∧ exec .getHeight u = .next v
      ∧ (val % 2 = 1 → u.completedWith 0x00 160 ∧ v.completedWith 0x00 80)
      ∧ (val % 2 = 0 → u.completedWith 0x00 80 ∧ v.completedWith 0x00 160)

/-- 40_panel.md R113 and R114: GET_WIDTH and GET_HEIGHT, initialised or not. -/
def Obligations.GettersReturnTheExtents : Prop :=
  ∀ s : State,
    exec .getWidth s = .next { s with lastStatus := 0x00, lastValue := s.width }
      ∧ exec .getHeight s = .next { s with lastStatus := 0x00, lastValue := s.height }

/-- 40_panel.md R108 and 20_memory.md R58: SET_WINDOW with any operands: no clip and no check. -/
def Obligations.SetWindowSendsTheOffsetCorners : Prop :=
  ∀ (s : State) (x0 y0 x1 y1 : Int), s.initDone = true →
    exec (.setWindow x0 y0 x1 y1) s = .next
      { s with
        trace := s.trace ++
          [.cmd s.cfg.cmdCaset,
           .data (wireBytes (x0 + s.colOff.toNat) ++ wireBytes (x1 + s.colOff.toNat)),
           .cmd s.cfg.cmdRaset,
           .data (wireBytes (y0 + s.rowOff.toNat) ++ wireBytes (y1 + s.rowOff.toNat)),
           .cmd s.cfg.cmdRamwr]
        lastStatus := 0x00, lastValue := 0 }

/-- 70_reset_and_hazards.md R224 with 20_memory.md R62 and R63: after SET_WINDOW the reference panel
stands in memory-write mode at the window's first pixel, its window registers hold the operands plus
the offsets modulo 2^16, and no pixel has been written. -/
def Obligations.SetWindowLeavesThePanelWaiting : Prop :=
  ∀ (s : State) (x0 y0 x1 y1 : Int), s.initDone = true → windowOpcodesDistinct s.cfg →
    ∃ t, exec (.setWindow x0 y0 x1 y1) s = .next t
      ∧ t.panel.mode = .write ∧ t.panel.pending = none
      ∧ (t.panel.pxs.toNat : Int) = (x0 + s.colOff.toNat) % 65536
      ∧ (t.panel.pxe.toNat : Int) = (x1 + s.colOff.toNat) % 65536
      ∧ (t.panel.pys.toNat : Int) = (y0 + s.rowOff.toNat) % 65536
      ∧ (t.panel.pye.toNat : Int) = (y1 + s.rowOff.toNat) % 65536
      ∧ t.panel.pc = t.panel.pxs.toNat ∧ t.panel.pr = t.panel.pys.toNat
      ∧ t.panel.writes = s.panel.writes

/-- 40_panel.md R111: INVERT sets the state its operand names. -/
def Obligations.InvertSetsTheNamedState : Prop :=
  ∀ (s : State) (on : Nat), s.initDone = true →
    (on ≠ 0 → exec (.invert on) s = .next
      { s with trace := s.trace ++ [.cmd s.cfg.cmdInvon], inv := true
               lastStatus := 0x00, lastValue := 0 })
    ∧ (on = 0 → exec (.invert on) s = .next
      { s with trace := s.trace ++ [.cmd s.cfg.cmdInvoff], inv := false
               lastStatus := 0x00, lastValue := 0 })

/-! ### Blitter family -/

/-- 41_blitter.md R130, R131, R134 and 42_raster.md R157: FILL_RECT and FILLED_RECT, for every
rectangle and either answer to their one grant: nothing for a rectangle with no on-screen part, the
window and its scanlines when the grant is given, the window alone and ERR_BUF when it is refused. -/
def Obligations.FillRectFillsTheOnScreenPart : Prop :=
  ∀ (s : State) (x y w h : Int) (c : Color) (i : Instr), s.initDone = true →
    (i = .fillRect x y w h c ∨ i = .filledRect x y w h c) →
    ∃ t, exec i s = .next t ∧ DrawFrame s t
      ∧ (¬s.sees x y w h →
          t.trace = s.trace ∧ t.completedWith 0x00 0 ∧ t.grantOracle = s.grantOracle)
      ∧ (s.sees x y w h → s.grantGiven = true →
          t.trace = s.trace ++ s.fillCalls (s.screenPart x y w h) c ∧ t.completedWith 0x00 0)
      ∧ (s.sees x y w h → s.grantGiven = false →
          t.trace = s.trace ++ s.rectWindow (s.screenPart x y w h) ∧ t.completedWith 0x04 0)
      ∧ (s.sees x y w h → s.cfg.bufMayFail = true →
          t.grantOracle.asked = s.grantOracle.asked + 1)

/-- 30_encoding.md R92: FILL_SCREEN covers exactly the current extents, at every rotation. -/
def Obligations.FillScreenCoversTheScreen : Prop :=
  ∀ (s : State) (c : Color), s.initDone = true → s.tuple = tupleOf s.cfg s.rot →
    s.grantGiven = true →
    ∃ t, exec (Pseudo.fillScreen c).expand s = .next t ∧ t.completedWith 0x00 0
      ∧ t.trace = s.trace ++ s.fillCalls ⟨0, 0, s.width.toNat, s.height.toNat⟩ c

/-- 41_blitter.md R137 and R138: DRAW_PIXEL, on screen and off; it uses no scanline buffer and asks
for no grant, whatever the allocator would answer. -/
def Obligations.DrawPixelSendsOnePixel : Prop :=
  ∀ (s : State) (x y : Int) (c : Color), s.initDone = true →
    ∃ t, exec (.drawPixel x y c) s = .next t ∧ t.completedWith 0x00 0
      ∧ DrawFrame s t ∧ t.grantOracle = s.grantOracle ∧ t.lineBuf = s.lineBuf
      ∧ (0 ≤ x ∧ x < s.width.toNat ∧ 0 ≤ y ∧ y < s.height.toNat →
          t.trace = s.trace ++ s.windowCalls x y x y ++ [.data (wireColor c)])
      ∧ (¬(0 ≤ x ∧ x < s.width.toNat ∧ 0 ≤ y ∧ y < s.height.toNat) → t.trace = s.trace)

/-- 41_blitter.md R140 and 60_exceptions.md R203: the checks of DRAW_IMAGE, in their order: an image
with no on-screen part completes whatever its address; then the alignment; then the range of the
whole array. None of them emits an event or asks for a grant. -/
def Obligations.DrawImageChecksInOrder : Prop :=
  ∀ (s : State) (x y w h : Int) (a : Nat), s.initDone = true →
    ∃ t, exec (.drawImage x y w h a) s = .next t ∧ DrawFrame s t
      ∧ (¬s.sees x y w h → t.completedWith 0x00 0)
      ∧ (s.sees x y w h → a % 2 ≠ 0 → t.completedWith 0x06 0)
      ∧ (s.sees x y w h → a % 2 = 0 → (s.cfg.hmemSize : Int) < a + 2 * w * h →
          t.completedWith 0x05 0)
      ∧ (¬s.sees x y w h ∨ a % 2 ≠ 0 ∨ (s.cfg.hmemSize : Int) < a + 2 * w * h →
          t.trace = s.trace ∧ t.grantOracle = s.grantOracle)

/-- 41_blitter.md R139 and R141 with 20_memory.md R53 and R57: DRAW_IMAGE of an image whose operands
pass the checks: the window of its on-screen part, then one DATA call per scanline, each pixel the
little-endian element at its place in the unclipped array sent high byte first; with its grant
refused, the window alone and ERR_BUF. -/
def Obligations.DrawImageStreamsTheOnScreenPart : Prop :=
  ∀ (s : State) (x y w h : Int) (a : Nat), s.initDone = true → s.sees x y w h → a % 2 = 0 →
    (a : Int) + 2 * w * h ≤ s.cfg.hmemSize →
    ∃ t, exec (.drawImage x y w h a) s = .next t ∧ DrawFrame s t
      ∧ (s.grantGiven = true → t.completedWith 0x00 0
          ∧ t.trace = s.trace ++ s.rectWindow (s.screenPart x y w h)
              ++ (List.range (s.screenPart x y w h).h.toNat).map fun (j : Nat) =>
                  .data ((List.range (s.screenPart x y w h).w.toNat).flatMap fun (k : Nat) =>
                    let p := ((a : Int) + 2 * ((max y 0 - y + j) * w + (max x 0 - x + k))).toNat
                    [s.hostMem.read (p + 1), s.hostMem.read p]))
      ∧ (s.grantGiven = false → t.completedWith 0x04 0
          ∧ t.trace = s.trace ++ s.rectWindow (s.screenPart x y w h))

/-! ### Rasterizer family -/

/-- 42_raster.md R152: LINE sends the pixels of its points in order, off-screen points dropped; it
asks for no grant and never reports ERR_BUF. -/
def Obligations.LineSendsItsPixels : Prop :=
  ∀ (s : State) (x0 y0 x1 y1 : Int) (c : Color), s.initDone = true →
    ∃ t, exec (.line x0 y0 x1 y1 c) s = .next t ∧ t.completedWith 0x00 0
      ∧ DrawFrame s t ∧ t.grantOracle = s.grantOracle
      ∧ t.trace = s.trace
          ++ (linePoints x0 y0 x1 y1).flatMap fun p => s.primEvents (.pixel p.1 p.2 c)

/-- 42_raster.md R153: a line and its reverse do the same, trace and all. -/
def Obligations.LineIsSymmetric : Prop :=
  ∀ (s : State) (x0 y0 x1 y1 : Int) (c : Color),
    exec (.line x0 y0 x1 y1 c) s = exec (.line x1 y1 x0 y0 c) s

/-- 42_raster.md R152 and R154: a line has `max(|dx|, |dy|) + 1` points, both endpoints among them,
no point repeated, and consecutive points differ by exactly 1 along the major axis and by 0 or 1
along the minor axis. -/
def Obligations.LinePointsAreConnected : Prop :=
  ∀ x0 y0 x1 y1 : Int,
    ((linePoints x0 y0 x1 y1).length : Int) = max |x1 - x0| |y1 - y0| + 1
      ∧ (x0, y0) ∈ linePoints x0 y0 x1 y1 ∧ (x1, y1) ∈ linePoints x0 y0 x1 y1
      ∧ (linePoints x0 y0 x1 y1).Nodup
      ∧ ∀ (k : Nat) (p q : Int × Int),
          (linePoints x0 y0 x1 y1)[k]? = some p → (linePoints x0 y0 x1 y1)[k + 1]? = some q →
          if |y1 - y0| > |x1 - x0| then |q.2 - p.2| = 1 ∧ |q.1 - p.1| ≤ 1
          else |q.1 - p.1| = 1 ∧ |q.2 - p.2| ≤ 1

/-- The loop of 42_raster.md R152 in closed form: along a line that is not steep and runs to the
right, point `k` has moved along the minor axis by `k*dy/dx` rounded to the nearest integer (a half
rounds down for even `dx`). The initial error and the test of the loop are the spec's own choice, as
R152 says. -/
def Obligations.LineFollowsTheExactSlope : Prop :=
  ∀ x0 y0 x1 y1 : Int, x0 < x1 → |y1 - y0| ≤ x1 - x0 →
    linePoints x0 y0 x1 y1 = (List.range (x1 - x0 + 1).toNat).map fun (k : Nat) =>
      (x0 + (k : Int),
       y0 + (if y0 < y1 then 1 else -1)
          * (((k : Int) * |y1 - y0| - (x1 - x0) / 2 + (x1 - x0) - 1) / (x1 - x0)))

/-- 42_raster.md R155: RECT with its grants given sends its four edges, top, bottom, left, right, each
clipped on its own; there is no guard on its operands. -/
def Obligations.RectSendsFourEdges : Prop :=
  ∀ (s : State) (x y w h : Int) (c : Color), s.initDone = true → s.grantsAll →
    ∃ t, exec (.rect x y w h c) s = .next t ∧ t.completedWith 0x00 0 ∧ DrawFrame s t
      ∧ t.trace = s.trace ++ s.primEvents (.fill x y w 1 c) ++ s.primEvents (.fill x (y + h - 1) w 1 c)
          ++ s.primEvents (.fill x y 1 h c) ++ s.primEvents (.fill (x + w - 1) y 1 h c)

/-- 42_raster.md R156: RECT with a non-positive extent draws the two edges that have one, and with
both non-positive nothing. -/
def Obligations.RectWithoutExtentDrawsTwoEdges : Prop :=
  ∀ (s : State) (x y w h : Int) (c : Color), s.initDone = true → s.grantsAll →
    ∃ t, exec (.rect x y w h c) s = .next t ∧ t.completedWith 0x00 0
      ∧ (w ≤ 0 → t.trace = s.trace ++ s.primEvents (.fill x y 1 h c)
          ++ s.primEvents (.fill (x + w - 1) y 1 h c))
      ∧ (h ≤ 0 → t.trace = s.trace ++ s.primEvents (.fill x y w 1 c)
          ++ s.primEvents (.fill x (y + h - 1) w 1 c))
      ∧ (w ≤ 0 → h ≤ 0 → t.trace = s.trace)

/-- 41_blitter.md R135: RECT with all four edges on screen and the grant of the top edge refused.
Under CONTINUE the other three edges go on, each with its own grant; under ABORT nothing follows the
top edge's window. Both end with ERR_BUF. -/
def Obligations.RectAfterARefusedGrant : Prop :=
  ∀ (s : State) (x y w h : Int) (c : Color), s.initDone = true → s.cfg.bufMayFail = true →
    0 ≤ x → 0 ≤ y → 0 < w → 0 < h → x + w ≤ s.width.toNat → y + h ≤ s.height.toNat →
    s.grantOracle.answerAt Config.grantDraw 0 = false →
    ∃ t, exec (.rect x y w h c) s = .next t ∧ t.completedWith 0x04 0 ∧ DrawFrame s t
      ∧ (s.cfg.bufFailPolicy = .abort →
          t.trace = s.trace ++ s.rectWindow ⟨x, y, w, 1⟩
            ∧ t.grantOracle.asked = s.grantOracle.asked + 1)
      ∧ (s.cfg.bufFailPolicy = .proceed → s.grantOracle.answerAt Config.grantDraw 1 = true →
          s.grantOracle.answerAt Config.grantDraw 2 = true →
          s.grantOracle.answerAt Config.grantDraw 3 = true →
          t.trace = s.trace ++ s.rectWindow ⟨x, y, w, 1⟩ ++ s.fillCalls ⟨x, y + h - 1, w, 1⟩ c
              ++ s.fillCalls ⟨x, y, 1, h⟩ c ++ s.fillCalls ⟨x + w - 1, y, 1, h⟩ c
            ∧ t.grantOracle.asked = s.grantOracle.asked + 4)

/-- 42_raster.md R159, over the step of R158 (the spec's own, G4): CIRCLE sends its four cardinal
points and then the eight points of each step, in the order of the rule; it asks for no grant and
never reports ERR_BUF. -/
def Obligations.CircleSendsItsPoints : Prop :=
  ∀ (s : State) (x0 y0 r : Int) (c : Color), s.initDone = true →
    ∃ t, exec (.circle x0 y0 r c) s = .next t ∧ t.completedWith 0x00 0
      ∧ DrawFrame s t ∧ t.grantOracle = s.grantOracle
      ∧ t.trace = s.trace
          ++ ([(x0, y0 + r), (x0, y0 - r), (x0 + r, y0), (x0 - r, y0)]
              ++ (midpoints r).flatMap fun m =>
                  [(x0 + m.x, y0 + m.y), (x0 - m.x, y0 + m.y), (x0 + m.x, y0 - m.y),
                   (x0 - m.x, y0 - m.y), (x0 + m.y, y0 + m.x), (x0 - m.y, y0 + m.x),
                   (x0 + m.y, y0 - m.x), (x0 - m.y, y0 - m.x)]).flatMap
            fun p => s.primEvents (.pixel p.1 p.2 c)

/-- 42_raster.md R160: for every `R > 0` each on-screen cardinal point of the circle is among the
logical pixel writes of CIRCLE. -/
def Obligations.CircleDrawsItsCardinalPoints : Prop :=
  ∀ (s : State) (x0 y0 r : Int) (c : Color), s.initDone = true → windowOpcodesDistinct s.cfg →
    s.windowFits → 0 < r →
    ∃ t seg, exec (.circle x0 y0 r c) s = .next t ∧ t.trace = s.trace ++ seg
      ∧ ∀ p ∈ [(x0, y0 + r), (x0, y0 - r), (x0 + r, y0), (x0 - r, y0)],
          s.onScreen p.1 p.2 = true →
          ⟨p.1, p.2, c⟩ ∈ lpw s.cfg s.panel s.colOff s.rowOff seg

/-- The recurrence of 42_raster.md R158 (its step is `[from general knowledge, not in source]`, G4 of
93_implementation_defined.md) keeps what the midpoint method rests on: `f` is the circle
function at the next midpoint, `ddF_x` and `ddF_y` its differences, and no point strays past the
diagonal by more than one step. -/
def Obligations.MidpointRecurrenceIsExact : Prop :=
  ∀ (r : Int) (m : Midpoint), m ∈ midpoints r →
    m.ddFx = 2 * m.x + 1 ∧ m.ddFy = -2 * m.y
      ∧ m.f = (m.x + 1) * (m.x + 1) + m.y * m.y - m.y - r * r
      ∧ 1 ≤ m.x ∧ 0 ≤ m.y ∧ m.y ≤ r ∧ m.x ≤ m.y + 1

/-- 42_raster.md R161, over the step of R158 (the spec's own, G4): each step adds 1 to `x` and
subtracts 0 or 1 from `y`, and the loop `while x < y` ends after at most `max(R, 0)` steps: its last
values, or its start if it takes no step, no longer meet the condition. -/
def Obligations.MidpointLoopEnds : Prop :=
  (∀ m : Midpoint, m.step.x = m.x + 1 ∧ (m.step.y = m.y ∨ m.step.y = m.y - 1))
    ∧ ∀ r : Int, ((midpoints r).length : Int) ≤ max r 0
      ∧ ¬((midpoints r).getLast?.getD (Midpoint.start r)).x
          < ((midpoints r).getLast?.getD (Midpoint.start r)).y

/-- 42_raster.md R162, over the step of R158 (the spec's own, G4): FILLED_CIRCLE with its grants
given sends its centre span and then the four spans of each step, in the order of the rule, each
clipped on its own. -/
def Obligations.FilledCircleSendsItsSpans : Prop :=
  ∀ (s : State) (x0 y0 r : Int) (c : Color), s.initDone = true → s.grantsAll →
    ∃ t, exec (.filledCircle x0 y0 r c) s = .next t ∧ t.completedWith 0x00 0 ∧ DrawFrame s t
      ∧ t.trace = s.trace ++ s.primEvents (.fill x0 (y0 - r) 1 (2 * r + 1) c)
          ++ (midpoints r).flatMap fun m =>
              s.primEvents (.fill (x0 + m.x) (y0 - m.y) 1 (2 * m.y + 1) c)
                ++ s.primEvents (.fill (x0 + m.y) (y0 - m.x) 1 (2 * m.x + 1) c)
                ++ s.primEvents (.fill (x0 - m.x) (y0 - m.y) 1 (2 * m.y + 1) c)
                ++ s.primEvents (.fill (x0 - m.y) (y0 - m.x) 1 (2 * m.x + 1) c)

/-- 42_raster.md R164, over the step of R158 (the spec's own, G4; log entry 20): for every `R >= 0` and
centre, the pixels FILLED_CIRCLE draws, its grants given, are exactly the on-screen pixels that have a
pixel of CIRCLE's outline at or above them and one at or below them in their column; every on-screen
pixel of the outline is among them. -/
def Obligations.FilledCircleMatchesTheOutline : Prop :=
  ∀ (s : State) (x0 y0 r : Int) (c : Color), s.initDone = true → s.grantsAll →
    windowOpcodesDistinct s.cfg → s.windowFits → 0 ≤ r →
    ∃ t seg, exec (.filledCircle x0 y0 r c) s = .next t ∧ t.trace = s.trace ++ seg
      ∧ (∀ x y : Int,
          (∃ w ∈ lpw s.cfg s.panel s.colOff s.rowOff seg, w.x = x ∧ w.y = y) ↔
            s.onScreen x y = true
              ∧ (∃ p ∈ circlePoints x0 y0 r, p.1 = x ∧ p.2 ≤ y)
              ∧ ∃ p ∈ circlePoints x0 y0 r, p.1 = x ∧ y ≤ p.2)
      ∧ ∀ p ∈ circlePoints x0 y0 r, s.onScreen p.1 p.2 = true →
          ⟨p.1, p.2, c⟩ ∈ lpw s.cfg s.panel s.colOff s.rowOff seg

/-! ### Font family -/

/-- 43_font.md R182 and R183: DRAW_CHAR with its grants given: columns from left to right, rows from
the top, each cell in its colour as one pixel at scale 1 and as a block otherwise, background cells
and the spacing column only when `BG` differs from `FG`. -/
def Obligations.DrawCharSendsItsCells : Prop :=
  ∀ (s : State) (x y : Int) (sc code : Nat) (fg bg : Color), s.initDone = true → s.grantsAll →
    ∃ t, exec (.drawChar x y sc code fg bg) s = .next t ∧ t.completedWith 0x00 0 ∧ DrawFrame s t
      ∧ t.trace = s.trace
          ++ ((List.range 5).flatMap fun (col : Nat) => (List.range 7).flatMap fun (row : Nat) =>
              let set := (glyphColumn (lookupGlyph s.cfg code) col).toNat.testBit row
              if set = false ∧ bg = fg then []
              else if sc = 1 then
                s.primEvents (.pixel (x + col) (y + row) (if set then fg else bg))
              else
                s.primEvents (.fill (x + col * sc) (y + row * sc) sc sc (if set then fg else bg)))
          ++ (if bg = fg then [] else s.primEvents (.fill (x + 5 * sc) y sc (7 * sc) bg))

/-- 43_font.md R181: a code outside 32 to 127 does what '?' does, and the codes 32 to 127 select the
glyphs 0 to 95. -/
def Obligations.OutOfRangeCodesDrawTheQuestionMark : Prop :=
  (∀ (s : State) (x y : Int) (sc code : Nat) (fg bg : Color), code < 32 ∨ 127 < code →
      exec (.drawChar x y sc code fg bg) s = exec (.drawChar x y sc 0x3F fg bg) s)
    ∧ ∀ (c : Config) (code : Nat), c.wf = true → 32 ≤ code → code ≤ 127 →
        c.glyphRom[code - 32]? = some (lookupGlyph c code)

/-- 43_font.md R184: at scale 0 DRAW_CHAR draws nothing, asks for no grant and completes. -/
def Obligations.ScaleZeroDrawsNothing : Prop :=
  ∀ (s : State) (x y : Int) (code : Nat) (fg bg : Color), s.initDone = true →
    ∃ t, exec (.drawChar x y 0 code fg bg) s = .next t ∧ t.completedWith 0x00 0
      ∧ t.trace = s.trace ∧ t.grantOracle = s.grantOracle ∧ DrawFrame s t

/-- 43_font.md R185: on a screen that holds the whole glyph box, DRAW_CHAR writes `42*s*s` pixels
with `FG != BG`, and `n*s*s` with `FG = BG`, `n` being the number of set bits in bits 6:0 of the
five column bytes. -/
def Obligations.DrawCharWriteCounts : Prop :=
  ∀ (s : State) (x y : Int) (sc code : Nat) (fg bg : Color), s.initDone = true → s.grantsAll →
    windowOpcodesDistinct s.cfg → s.windowFits → 1 ≤ sc → 0 ≤ x → 0 ≤ y →
    x + 6 * sc ≤ s.width.toNat → y + 7 * sc ≤ s.height.toNat →
    ∃ t seg, exec (.drawChar x y sc code fg bg) s = .next t ∧ t.trace = s.trace ++ seg
      ∧ (fg ≠ bg →
          (lpw s.cfg s.panel s.colOff s.rowOff seg).length = 35 * sc * sc + 7 * sc * sc)
      ∧ (fg = bg →
          (lpw s.cfg s.panel s.colOff s.rowOff seg).length =
            (((List.range 5).flatMap fun col => (List.range 7).filter fun row =>
                (glyphColumn (lookupGlyph s.cfg code) col).getLsbD row).length) * sc * sc)

/-- 43_font.md R185, second sentence: with `FG = BG` DRAW_CHAR never writes more pixels than with
`FG != BG`, and strictly fewer exactly if a pixel of a background cell or of the spacing column is on
screen, wherever the glyph stands and at every scale. -/
def Obligations.TransparentBackgroundWritesFewer : Prop :=
  ∀ (s : State) (x y : Int) (sc code : Nat) (fg bg : Color), s.initDone = true → s.grantsAll →
    windowOpcodesDistinct s.cfg → s.windowFits → bg ≠ fg →
    ∃ t u segT segU, exec (.drawChar x y sc code fg fg) s = .next t
      ∧ exec (.drawChar x y sc code fg bg) s = .next u
      ∧ t.trace = s.trace ++ segT ∧ u.trace = s.trace ++ segU
      ∧ (lpw s.cfg s.panel s.colOff s.rowOff segT).length
          ≤ (lpw s.cfg s.panel s.colOff s.rowOff segU).length
      ∧ ((lpw s.cfg s.panel s.colOff s.rowOff segT).length
            < (lpw s.cfg s.panel s.colOff s.rowOff segU).length ↔
          ∃ px py : Int, s.onScreen px py = true
            ∧ ((∃ col row : Nat, col < 5 ∧ row < 7
                  ∧ (glyphColumn (lookupGlyph s.cfg code) col).getLsbD row = false
                  ∧ x + col * sc ≤ px ∧ px < x + col * sc + sc
                  ∧ y + row * sc ≤ py ∧ py < y + row * sc + sc)
                ∨ (x + 5 * sc ≤ px ∧ px < x + 6 * sc ∧ y ≤ py ∧ py < y + 7 * sc)))

/-- 43_font.md R186: the string operand is the bytes before the first 0x00 at or after the address,
and there is one exactly if such a byte lies below `HMEM_SIZE`. -/
def Obligations.StringEndsAtTheFirstZero : Prop :=
  ∀ (m : Memory) (size a : Nat),
    (∀ bytes, m.readString size a = some bytes ↔
      a + bytes.length < size ∧ m.read (a + bytes.length) = 0
        ∧ ∀ k b, bytes[k]? = some b → m.read (a + k) = b ∧ b ≠ 0)
    ∧ (m.readString size a = none ↔ ∀ k, a + k < size → m.read (a + k) ≠ 0)

/-- 43_font.md R186 and R187: DRAW_STRING of a string with no terminator below `HMEM_SIZE` ends with
ERR_SRC_RANGE and emits nothing; of one with a terminator, its grants given, it sends what its
characters send, one after the other, newlines sending nothing. -/
def Obligations.DrawStringSendsItsCharacters : Prop :=
  ∀ (s : State) (x y : Int) (sc : Nat) (fg bg : Color) (a : Nat), s.initDone = true →
    ∃ t, exec (.drawString x y sc fg bg a) s = .next t ∧ DrawFrame s t
      ∧ (s.hostMem.readString s.cfg.hmemSize a = none →
          t.completedWith 0x05 0 ∧ t.trace = s.trace ∧ t.grantOracle = s.grantOracle)
      ∧ ∀ bytes, s.hostMem.readString s.cfg.hmemSize a = some bytes → s.grantsAll →
          t.completedWith 0x00 0
            ∧ t.trace = s.trace ++ (List.range bytes.length).flatMap fun i =>
                if bytes[i]? = some 0x0A then []
                else
                  (charPlan s.cfg (cursorAt x y sc bytes i).1 (cursorAt x y sc bytes i).2
                    (bytes.getD i 0).toNat sc fg bg).flatMap s.primEvents

/-- 43_font.md R188 and R189: in a string "A newline B" the 'B' stands `8*scale` below the 'A' at the
same column; in a string "AB" it stands `6*scale` to its right. The traces are those of the two
characters drawn one after the other. -/
def Obligations.NewlineAndPitchPlaceTheNextCharacter : Prop :=
  ∀ (s : State) (x y : Int) (sc : Nat) (fg bg : Color) (a : Nat) (p q : Byte), s.initDone = true →
    s.grantsAll → p ≠ 0x0A → q ≠ 0x0A →
    ∃ t u, exec (.drawChar x y sc p.toNat fg bg) s = .next t
      ∧ exec (.drawString x y sc fg bg a) s = .next u
      ∧ (s.hostMem.readString s.cfg.hmemSize a = some [p, 0x0A, q] →
          ∃ v, exec (.drawChar x (y + 8 * sc) sc q.toNat fg bg) t = .next v ∧ v.trace = u.trace)
      ∧ (s.hostMem.readString s.cfg.hmemSize a = some [p, q] →
          ∃ v, exec (.drawChar (x + 6 * sc) y sc q.toNat fg bg) t = .next v ∧ v.trace = u.trace)

/-! ### What reaches the panel -/

/-- 41_blitter.md R131 with 20_memory.md R64, R66 and R70: as the reference panel reads it, FILL_RECT
whose grant is given writes exactly the on-screen part of its rectangle, each pixel once in the colour
asked for, row by row from the top and from left to right: the window and the stream agree. -/
def Obligations.FillRectDrawsExactlyTheOnScreenPart : Prop :=
  ∀ (s : State) (x y w h : Int) (c : Color), s.initDone = true → s.grantGiven = true →
    windowOpcodesDistinct s.cfg → s.windowFits → s.sees x y w h →
    ∃ t seg, exec (.fillRect x y w h c) s = .next t ∧ t.trace = s.trace ++ seg
      ∧ lpw s.cfg s.panel s.colOff s.rowOff seg = rectPixels (s.screenPart x y w h) c

/-- 20_memory.md R66 for every command made of primitives: if it completes with OK, its logical pixel
writes are the on-screen pixels of its primitives, in order, duplicates included; no pixel lands
anywhere else (40_panel.md R109). And for DRAW_IMAGE (41_blitter.md R139, 20_memory.md R53), whose
operands pass the checks: with its grant given it writes exactly the on-screen part of its image, each
pixel once, row by row from the top and from left to right, in the value of its little-endian element of
the unclipped array; with its grant refused it writes nothing. -/
def Obligations.DrawingCommandsDrawTheirPrimitives : Prop :=
  (∀ (i : Instr) (s t : State) (ps : List Prim), exec i s = .next t → t.lastStatus = 0x00 →
      s.initDone = true → planOf s i = some ps → windowOpcodesDistinct s.cfg → s.windowFits →
      ∃ seg, t.trace = s.trace ++ seg
        ∧ lpw s.cfg s.panel s.colOff s.rowOff seg = ps.flatMap s.primPixels)
    ∧ ∀ (s : State) (x y w h : Int) (a : Nat), s.initDone = true → s.sees x y w h → a % 2 = 0 →
        (a : Int) + 2 * w * h ≤ s.cfg.hmemSize → windowOpcodesDistinct s.cfg → s.windowFits →
        ∃ t seg, exec (.drawImage x y w h a) s = .next t ∧ t.trace = s.trace ++ seg
          ∧ (s.grantGiven = true →
              lpw s.cfg s.panel s.colOff s.rowOff seg =
                (List.range (s.screenPart x y w h).h.toNat).flatMap fun (j : Nat) =>
                  (List.range (s.screenPart x y w h).w.toNat).map fun (k : Nat) =>
                    let p := ((a : Int) + 2 * ((max y 0 + j - y) * w + (max x 0 + k - x))).toNat
                    ⟨max x 0 + k, max y 0 + j, s.hostMem.read (p + 1) ++ s.hostMem.read p⟩)
          ∧ (s.grantGiven = false → lpw s.cfg s.panel s.colOff s.rowOff seg = [])

/-! ### Refused grants -/

/-- 41_blitter.md R134 and R135, for every command made of primitives and any answers of the oracle. Each
primitive that asks for a grant gets the next answer. Under CONTINUE every primitive sends its events in
full, or its window alone if its own grant is refused; under ABORT the first refused primitive sends its
window alone and nothing follows it. The status is ERR_BUF exactly if one is refused. -/
def Obligations.PlansSendEachPrimitiveByItsAnswer : Prop :=
  ∀ (i : Instr) (s : State) (ps : List Prim), s.initDone = true → planOf s i = some ps →
    ∃ t, exec i s = .next t ∧ DrawFrame s t
      ∧ (s.cfg.bufFailPolicy = .proceed →
          t.trace = s.trace ++ (ps.zipIdx.flatMap fun q =>
              if s.refusedAt ps q.2 q.1 then s.windowAlone q.1 else s.primEvents q.1)
            ∧ t.grantOracle.asked = s.grantOracle.asked + s.asked ps ps.length
            ∧ t.completedWith (if ps.zipIdx.any fun q => s.refusedAt ps q.2 q.1 then 0x04 else 0x00) 0)
      ∧ (s.cfg.bufFailPolicy = .abort →
          (∀ k p, ps[k]? = some p → s.refusedAt ps k p = true →
              (∀ j q, j < k → ps[j]? = some q → s.refusedAt ps j q = false) →
              t.trace = s.trace ++ (ps.take k).flatMap s.primEvents ++ s.windowAlone p
                ∧ t.grantOracle.asked = s.grantOracle.asked + s.asked ps (k + 1)
                ∧ t.completedWith 0x04 0)
          ∧ ((∀ k p, ps[k]? = some p → s.refusedAt ps k p = false) →
              t.trace = s.trace ++ ps.flatMap s.primEvents
                ∧ t.grantOracle.asked = s.grantOracle.asked + s.asked ps ps.length
                ∧ t.completedWith 0x00 0))
end

