-- ==== Sys2Proof/Laws/Decode.lean ====
section
/-! SUPPORT. The operand fields of a packet and the numbers they hold: bytes of a halfword, signed
coordinates, addresses (30_encoding.md R82 to R84). -/

namespace Sys2Proof

/-! ### Bytes of a halfword -/

@[simp] theorem loByte_packBytes (hi lo : Byte) : loByte (packBytes hi lo) = lo := by
  apply BitVec.eq_of_getLsbD_eq
  intro i h
  simp only [loByte, packBytes, BitVec.getLsbD_extractLsb', BitVec.getLsbD_append]
  rw [if_pos (by omega)]
  simp [h]

@[simp] theorem hiByte_packBytes (hi lo : Byte) : hiByte (packBytes hi lo) = hi := by
  apply BitVec.eq_of_getLsbD_eq
  intro i h
  simp only [hiByte, packBytes, BitVec.getLsbD_extractLsb', BitVec.getLsbD_append]
  rw [if_neg (by omega)]
  simp [h]

@[simp] theorem packBytes_halves (h : Halfword) : packBytes (hiByte h) (loByte h) = h := by
  apply BitVec.eq_of_getLsbD_eq
  intro i hi
  simp only [packBytes, hiByte, loByte, BitVec.getLsbD_append, BitVec.getLsbD_extractLsb']
  split
  · simp [*]
  · rw [Nat.add_sub_cancel' (Nat.le_of_not_lt ‹_›)]
    simp
    omega

/-! ### Signed coordinates -/

theorem isS16_iff (v : Int) : isS16 v = true ↔ -32768 ≤ v ∧ v ≤ 32767 := by simp [isS16]

/-- An s16 operand survives its field (R82). -/
theorem sext16_s16Field (v : Int) (h : isS16 v = true) : sext16 (s16Field v) = v := by
  rw [isS16_iff] at h
  rw [sext16, s16Field, BitVec.toInt_ofInt]
  simp only [Int.bmod]
  omega

/-- A field survives its operand (R82). -/
@[simp] theorem s16Field_sext16 (h : Halfword) : s16Field (sext16 h) = h := BitVec.ofInt_toInt

/-- What a field holds is an s16 (R82). -/
@[simp] theorem isS16_sext16 (h : Halfword) : isS16 (sext16 h) = true := by
  rw [isS16_iff, sext16]
  have h1 := BitVec.le_toInt h
  have h2 := BitVec.toInt_lt (x := h)
  constructor <;> norm_num at * <;> omega

/-! ### Numbers and addresses -/

theorem ofNat_toNat_u16 (v : Nat) (h : isU16 v = true) : (BitVec.ofNat 16 v).toNat = v := by
  simp only [isU16, decide_eq_true_eq] at h
  simp
  omega

theorem ofNat_toNat_u8 (v : Nat) (h : isU8 v = true) : (BitVec.ofNat 8 v).toNat = v := by
  simp only [isU8, decide_eq_true_eq] at h
  simp
  omega

theorem isU16_toNat (h : Halfword) : isU16 h.toNat = true := by
  have := h.isLt
  simp [isU16]
  omega

theorem isU8_toNat (b : Byte) : isU8 b.toNat = true := by
  have := b.isLt
  simp [isU8]
  omega

theorem addrOfHalves_eq (lo hi : Halfword) : addrOfHalves lo hi = hi.toNat * 65536 + lo.toNat := by
  have h := lo.isLt
  rw [addrOfHalves, BitVec.toNat_append, Nat.shiftLeft_eq, Nat.mul_comm]
  have k := Nat.two_pow_add_eq_or_of_lt (i := 16) h hi.toNat
  omega

/-- An address survives its two halfwords (R84). -/
theorem addrOfHalves_split (a : Nat) (h : isU32 a = true) :
    addrOfHalves (addrLo a) (addrHi a) = a := by
  simp only [isU32, decide_eq_true_eq] at h
  rw [addrOfHalves_eq]
  simp only [addrLo, addrHi, BitVec.toNat_ofNat]
  omega

/-- Two halfwords survive their address (R84). -/
theorem addr_of_halves (lo hi : Halfword) :
    addrLo (addrOfHalves lo hi) = lo ∧ addrHi (addrOfHalves lo hi) = hi
      ∧ isU32 (addrOfHalves lo hi) = true := by
  have h1 := lo.isLt
  have h2 := hi.isLt
  rw [addrOfHalves_eq]
  refine ⟨?_, ?_, ?_⟩
  · apply BitVec.eq_of_toNat_eq
    simp only [addrLo, BitVec.toNat_ofNat]
    omega
  · apply BitVec.eq_of_toNat_eq
    simp only [addrHi, BitVec.toNat_ofNat]
    omega
  · simp only [isU32, decide_eq_true_eq]
    omega

/-! ### Whole packets -/

/-- The packet of a command passes the checks of R87 on its header and length. -/
theorem decode_encode_operands (i : Instr) :
    decode (encode i) = decodeOperands i.opcode (encode i).tail := by cases i <;> rfl

theorem opcodeRow?_mem (b : Byte) (row : OpcodeRow) (h : opcodeRow? b = some row) :
    row ∈ opcodeMap ∧ row.byte = b := by
  have hb := List.find?_some h
  exact ⟨List.mem_of_find?_eq_some h, by simpa using hb⟩

/-- A packet that decodes: its header is the opcode of a row of R86, its length the row's, and its
operands are read by the row's format. -/
theorem decode_eq_ok (h0 : Halfword) (hs : List Halfword) (i : Instr)
    (h : decode (h0 :: hs) = .ok i) :
    ∃ row ∈ opcodeMap, h0 = packBytes 0 row.byte ∧ hs.length + 1 = row.format.length
      ∧ decodeOperands row.op hs = .ok i := by
  simp only [decode] at h
  rcases hr : opcodeRow? (loByte h0) with _ | row
  · simp [hr] at h
  · simp only [hr] at h
    split at h
    · cases h
    · split at h
      · cases h
      · rename_i hh hl
        obtain ⟨hm, hb⟩ := opcodeRow?_mem _ _ hr
        simp only [ne_eq, not_not] at hh hl
        exact ⟨row, hm, by rw [hb, ← hh, packBytes_halves], hl, h⟩

end Sys2Proof
end

