-- ==== Sys2Proof/Laws/State.lean ====
section
/-! SUPPORT. One lemma per field and update of the state, so that no proof unfolds a record update. -/

namespace Sys2Proof.Machine

open Sys2Proof

variable (s : State)

/-! ### State.record -/

@[simp] theorem record_initDone (st : Status) (v : Halfword) :
    (s.record st v).initDone = s.initDone := rfl
@[simp] theorem record_rot (st : Status) (v : Halfword) : (s.record st v).rot = s.rot := rfl
@[simp] theorem record_width (st : Status) (v : Halfword) : (s.record st v).width = s.width := rfl
@[simp] theorem record_height (st : Status) (v : Halfword) :
    (s.record st v).height = s.height := rfl
@[simp] theorem record_colOff (st : Status) (v : Halfword) :
    (s.record st v).colOff = s.colOff := rfl
@[simp] theorem record_rowOff (st : Status) (v : Halfword) :
    (s.record st v).rowOff = s.rowOff := rfl
@[simp] theorem record_madctlCur (st : Status) (v : Halfword) :
    (s.record st v).madctlCur = s.madctlCur := rfl
@[simp] theorem record_inv (st : Status) (v : Halfword) : (s.record st v).inv = s.inv := rfl
@[simp] theorem record_rstLvl (st : Status) (v : Halfword) :
    (s.record st v).rstLvl = s.rstLvl := rfl
@[simp] theorem record_blLvl (st : Status) (v : Halfword) : (s.record st v).blLvl = s.blLvl := rfl
@[simp] theorem record_lastStatus (st : Status) (v : Halfword) :
    (s.record st v).lastStatus = st.code := rfl
@[simp] theorem record_lastValue (st : Status) (v : Halfword) : (s.record st v).lastValue = v := rfl
@[simp] theorem record_lineBuf (st : Status) (v : Halfword) :
    (s.record st v).lineBuf = s.lineBuf := rfl
@[simp] theorem record_bufErr (st : Status) (v : Halfword) :
    (s.record st v).bufErr = s.bufErr := rfl
@[simp] theorem record_aborted (st : Status) (v : Halfword) :
    (s.record st v).aborted = s.aborted := rfl
@[simp] theorem record_trace (st : Status) (v : Halfword) : (s.record st v).trace = s.trace := rfl
@[simp] theorem record_hostMem (st : Status) (v : Halfword) :
    (s.record st v).hostMem = s.hostMem := rfl
@[simp] theorem record_inputs (st : Status) (v : Halfword) :
    (s.record st v).inputs = s.inputs := rfl
@[simp] theorem record_busOracle (st : Status) (v : Halfword) :
    (s.record st v).busOracle = s.busOracle := rfl
@[simp] theorem record_grantOracle (st : Status) (v : Halfword) :
    (s.record st v).grantOracle = s.grantOracle := rfl
@[simp] theorem record_cfg (st : Status) (v : Halfword) : (s.record st v).cfg = s.cfg := rfl
@[simp] theorem record_panelBase (st : Status) (v : Halfword) :
    (s.record st v).panelBase = s.panelBase := rfl
@[simp] theorem record_offsetLog (st : Status) (v : Halfword) :
    (s.record st v).offsetLog = s.offsetLog := rfl

/-! ### State.complete -/

@[simp] theorem complete_initDone (v : Halfword) : (s.complete v).initDone = s.initDone := rfl
@[simp] theorem complete_rot (v : Halfword) : (s.complete v).rot = s.rot := rfl
@[simp] theorem complete_width (v : Halfword) : (s.complete v).width = s.width := rfl
@[simp] theorem complete_height (v : Halfword) : (s.complete v).height = s.height := rfl
@[simp] theorem complete_colOff (v : Halfword) : (s.complete v).colOff = s.colOff := rfl
@[simp] theorem complete_rowOff (v : Halfword) : (s.complete v).rowOff = s.rowOff := rfl
@[simp] theorem complete_madctlCur (v : Halfword) : (s.complete v).madctlCur = s.madctlCur := rfl
@[simp] theorem complete_inv (v : Halfword) : (s.complete v).inv = s.inv := rfl
@[simp] theorem complete_rstLvl (v : Halfword) : (s.complete v).rstLvl = s.rstLvl := rfl
@[simp] theorem complete_blLvl (v : Halfword) : (s.complete v).blLvl = s.blLvl := rfl
@[simp] theorem complete_lastStatus (v : Halfword) :
    (s.complete v).lastStatus = Status.ok.code := rfl
@[simp] theorem complete_lastValue (v : Halfword) : (s.complete v).lastValue = v := rfl
@[simp] theorem complete_lineBuf (v : Halfword) : (s.complete v).lineBuf = s.lineBuf := rfl
@[simp] theorem complete_bufErr (v : Halfword) : (s.complete v).bufErr = s.bufErr := rfl
@[simp] theorem complete_aborted (v : Halfword) : (s.complete v).aborted = s.aborted := rfl
@[simp] theorem complete_trace (v : Halfword) : (s.complete v).trace = s.trace := rfl
@[simp] theorem complete_hostMem (v : Halfword) : (s.complete v).hostMem = s.hostMem := rfl
@[simp] theorem complete_inputs (v : Halfword) : (s.complete v).inputs = s.inputs := rfl
@[simp] theorem complete_busOracle (v : Halfword) : (s.complete v).busOracle = s.busOracle := rfl
@[simp] theorem complete_grantOracle (v : Halfword) :
    (s.complete v).grantOracle = s.grantOracle := rfl
@[simp] theorem complete_cfg (v : Halfword) : (s.complete v).cfg = s.cfg := rfl
@[simp] theorem complete_panelBase (v : Halfword) : (s.complete v).panelBase = s.panelBase := rfl
@[simp] theorem complete_offsetLog (v : Halfword) :
    (s.complete v).offsetLog = s.offsetLog := rfl

/-! ### State.raise -/

@[simp] theorem raise_initDone (e : Status) : (s.raise e).initDone = s.initDone := rfl
@[simp] theorem raise_rot (e : Status) : (s.raise e).rot = s.rot := rfl
@[simp] theorem raise_width (e : Status) : (s.raise e).width = s.width := rfl
@[simp] theorem raise_height (e : Status) : (s.raise e).height = s.height := rfl
@[simp] theorem raise_colOff (e : Status) : (s.raise e).colOff = s.colOff := rfl
@[simp] theorem raise_rowOff (e : Status) : (s.raise e).rowOff = s.rowOff := rfl
@[simp] theorem raise_madctlCur (e : Status) : (s.raise e).madctlCur = s.madctlCur := rfl
@[simp] theorem raise_inv (e : Status) : (s.raise e).inv = s.inv := rfl
@[simp] theorem raise_rstLvl (e : Status) : (s.raise e).rstLvl = s.rstLvl := rfl
@[simp] theorem raise_blLvl (e : Status) : (s.raise e).blLvl = s.blLvl := rfl
@[simp] theorem raise_lastStatus (e : Status) : (s.raise e).lastStatus = e.code := rfl
@[simp] theorem raise_lastValue (e : Status) : (s.raise e).lastValue = 0 := rfl
@[simp] theorem raise_lineBuf (e : Status) : (s.raise e).lineBuf = s.lineBuf := rfl
@[simp] theorem raise_bufErr (e : Status) : (s.raise e).bufErr = s.bufErr := rfl
@[simp] theorem raise_aborted (e : Status) : (s.raise e).aborted = s.aborted := rfl
@[simp] theorem raise_trace (e : Status) : (s.raise e).trace = s.trace := rfl
@[simp] theorem raise_hostMem (e : Status) : (s.raise e).hostMem = s.hostMem := rfl
@[simp] theorem raise_inputs (e : Status) : (s.raise e).inputs = s.inputs := rfl
@[simp] theorem raise_busOracle (e : Status) : (s.raise e).busOracle = s.busOracle := rfl
@[simp] theorem raise_grantOracle (e : Status) : (s.raise e).grantOracle = s.grantOracle := rfl
@[simp] theorem raise_cfg (e : Status) : (s.raise e).cfg = s.cfg := rfl
@[simp] theorem raise_panelBase (e : Status) : (s.raise e).panelBase = s.panelBase := rfl
@[simp] theorem raise_offsetLog (e : Status) :
    (s.raise e).offsetLog = s.offsetLog := rfl

/-! ### State.emit -/

@[simp] theorem emit_initDone (e : Event) : (s.emit e).initDone = s.initDone := rfl
@[simp] theorem emit_rot (e : Event) : (s.emit e).rot = s.rot := rfl
@[simp] theorem emit_width (e : Event) : (s.emit e).width = s.width := rfl
@[simp] theorem emit_height (e : Event) : (s.emit e).height = s.height := rfl
@[simp] theorem emit_colOff (e : Event) : (s.emit e).colOff = s.colOff := rfl
@[simp] theorem emit_rowOff (e : Event) : (s.emit e).rowOff = s.rowOff := rfl
@[simp] theorem emit_madctlCur (e : Event) : (s.emit e).madctlCur = s.madctlCur := rfl
@[simp] theorem emit_inv (e : Event) : (s.emit e).inv = s.inv := rfl
@[simp] theorem emit_rstLvl (e : Event) : (s.emit e).rstLvl = e.resetLevel s.rstLvl := rfl
@[simp] theorem emit_blLvl (e : Event) : (s.emit e).blLvl = e.backlightLevel s.blLvl := rfl
@[simp] theorem emit_lastStatus (e : Event) : (s.emit e).lastStatus = s.lastStatus := rfl
@[simp] theorem emit_lastValue (e : Event) : (s.emit e).lastValue = s.lastValue := rfl
@[simp] theorem emit_lineBuf (e : Event) : (s.emit e).lineBuf = s.lineBuf := rfl
@[simp] theorem emit_bufErr (e : Event) : (s.emit e).bufErr = s.bufErr := rfl
@[simp] theorem emit_aborted (e : Event) : (s.emit e).aborted = s.aborted := rfl
@[simp] theorem emit_trace (e : Event) : (s.emit e).trace = s.trace ++ [e] := rfl
@[simp] theorem emit_hostMem (e : Event) : (s.emit e).hostMem = s.hostMem := rfl
@[simp] theorem emit_inputs (e : Event) : (s.emit e).inputs = s.inputs := rfl
@[simp] theorem emit_busOracle (e : Event) : (s.emit e).busOracle = s.busOracle := rfl
@[simp] theorem emit_grantOracle (e : Event) : (s.emit e).grantOracle = s.grantOracle := rfl
@[simp] theorem emit_cfg (e : Event) : (s.emit e).cfg = s.cfg := rfl
@[simp] theorem emit_panelBase (e : Event) : (s.emit e).panelBase = s.panelBase := rfl
@[simp] theorem emit_offsetLog (e : Event) :
    (s.emit e).offsetLog = s.offsetLog := rfl

/-! ### State.loadTuple -/

@[simp] theorem loadTuple_initDone (r : Fin 4) : (s.loadTuple r).initDone = s.initDone := rfl
@[simp] theorem loadTuple_rot (r : Fin 4) : (s.loadTuple r).rot = r := rfl
@[simp] theorem loadTuple_width (r : Fin 4) : (s.loadTuple r).width = (tupleOf s.cfg r).width := rfl
@[simp] theorem loadTuple_height (r : Fin 4) :
    (s.loadTuple r).height = (tupleOf s.cfg r).height := rfl
@[simp] theorem loadTuple_colOff (r : Fin 4) :
    (s.loadTuple r).colOff = (tupleOf s.cfg r).colOff := rfl
@[simp] theorem loadTuple_rowOff (r : Fin 4) :
    (s.loadTuple r).rowOff = (tupleOf s.cfg r).rowOff := rfl
@[simp] theorem loadTuple_madctlCur (r : Fin 4) :
    (s.loadTuple r).madctlCur = (tupleOf s.cfg r).madctl := rfl
@[simp] theorem loadTuple_inv (r : Fin 4) : (s.loadTuple r).inv = s.inv := rfl
@[simp] theorem loadTuple_rstLvl (r : Fin 4) : (s.loadTuple r).rstLvl = s.rstLvl := rfl
@[simp] theorem loadTuple_blLvl (r : Fin 4) : (s.loadTuple r).blLvl = s.blLvl := rfl
@[simp] theorem loadTuple_lastStatus (r : Fin 4) : (s.loadTuple r).lastStatus = s.lastStatus := rfl
@[simp] theorem loadTuple_lastValue (r : Fin 4) : (s.loadTuple r).lastValue = s.lastValue := rfl
@[simp] theorem loadTuple_lineBuf (r : Fin 4) : (s.loadTuple r).lineBuf = s.lineBuf := rfl
@[simp] theorem loadTuple_bufErr (r : Fin 4) : (s.loadTuple r).bufErr = s.bufErr := rfl
@[simp] theorem loadTuple_aborted (r : Fin 4) : (s.loadTuple r).aborted = s.aborted := rfl
@[simp] theorem loadTuple_trace (r : Fin 4) : (s.loadTuple r).trace = s.trace := rfl
@[simp] theorem loadTuple_hostMem (r : Fin 4) : (s.loadTuple r).hostMem = s.hostMem := rfl
@[simp] theorem loadTuple_inputs (r : Fin 4) : (s.loadTuple r).inputs = s.inputs := rfl
@[simp] theorem loadTuple_busOracle (r : Fin 4) : (s.loadTuple r).busOracle = s.busOracle := rfl
@[simp] theorem loadTuple_grantOracle (r : Fin 4) :
    (s.loadTuple r).grantOracle = s.grantOracle := rfl
@[simp] theorem loadTuple_cfg (r : Fin 4) : (s.loadTuple r).cfg = s.cfg := rfl
@[simp] theorem loadTuple_panelBase (r : Fin 4) : (s.loadTuple r).panelBase = s.panelBase := rfl
@[simp] theorem loadTuple_offsetLog (r : Fin 4) :
    (s.loadTuple r).offsetLog =
      ⟨s.trace.length, ⟨(tupleOf s.cfg r).colOff, (tupleOf s.cfg r).rowOff⟩⟩ :: s.offsetLog := rfl

/-! ### State.setLine -/

@[simp] theorem setLine_initDone (l : List Byte) : (s.setLine l).initDone = s.initDone := rfl
@[simp] theorem setLine_rot (l : List Byte) : (s.setLine l).rot = s.rot := rfl
@[simp] theorem setLine_width (l : List Byte) : (s.setLine l).width = s.width := rfl
@[simp] theorem setLine_height (l : List Byte) : (s.setLine l).height = s.height := rfl
@[simp] theorem setLine_colOff (l : List Byte) : (s.setLine l).colOff = s.colOff := rfl
@[simp] theorem setLine_rowOff (l : List Byte) : (s.setLine l).rowOff = s.rowOff := rfl
@[simp] theorem setLine_madctlCur (l : List Byte) : (s.setLine l).madctlCur = s.madctlCur := rfl
@[simp] theorem setLine_inv (l : List Byte) : (s.setLine l).inv = s.inv := rfl
@[simp] theorem setLine_rstLvl (l : List Byte) : (s.setLine l).rstLvl = s.rstLvl := rfl
@[simp] theorem setLine_blLvl (l : List Byte) : (s.setLine l).blLvl = s.blLvl := rfl
@[simp] theorem setLine_lastStatus (l : List Byte) : (s.setLine l).lastStatus = s.lastStatus := rfl
@[simp] theorem setLine_lastValue (l : List Byte) : (s.setLine l).lastValue = s.lastValue := rfl
@[simp] theorem setLine_lineBuf (l : List Byte) : (s.setLine l).lineBuf = some l := rfl
@[simp] theorem setLine_bufErr (l : List Byte) : (s.setLine l).bufErr = s.bufErr := rfl
@[simp] theorem setLine_aborted (l : List Byte) : (s.setLine l).aborted = s.aborted := rfl
@[simp] theorem setLine_trace (l : List Byte) : (s.setLine l).trace = s.trace := rfl
@[simp] theorem setLine_hostMem (l : List Byte) : (s.setLine l).hostMem = s.hostMem := rfl
@[simp] theorem setLine_inputs (l : List Byte) : (s.setLine l).inputs = s.inputs := rfl
@[simp] theorem setLine_busOracle (l : List Byte) : (s.setLine l).busOracle = s.busOracle := rfl
@[simp] theorem setLine_grantOracle (l : List Byte) :
    (s.setLine l).grantOracle = s.grantOracle := rfl
@[simp] theorem setLine_cfg (l : List Byte) : (s.setLine l).cfg = s.cfg := rfl
@[simp] theorem setLine_panelBase (l : List Byte) : (s.setLine l).panelBase = s.panelBase := rfl
@[simp] theorem setLine_offsetLog (l : List Byte) :
    (s.setLine l).offsetLog = s.offsetLog := rfl

/-! ### State.releaseLine -/

@[simp] theorem releaseLine_initDone : (s.releaseLine).initDone = s.initDone := rfl
@[simp] theorem releaseLine_rot : (s.releaseLine).rot = s.rot := rfl
@[simp] theorem releaseLine_width : (s.releaseLine).width = s.width := rfl
@[simp] theorem releaseLine_height : (s.releaseLine).height = s.height := rfl
@[simp] theorem releaseLine_colOff : (s.releaseLine).colOff = s.colOff := rfl
@[simp] theorem releaseLine_rowOff : (s.releaseLine).rowOff = s.rowOff := rfl
@[simp] theorem releaseLine_madctlCur : (s.releaseLine).madctlCur = s.madctlCur := rfl
@[simp] theorem releaseLine_inv : (s.releaseLine).inv = s.inv := rfl
@[simp] theorem releaseLine_rstLvl : (s.releaseLine).rstLvl = s.rstLvl := rfl
@[simp] theorem releaseLine_blLvl : (s.releaseLine).blLvl = s.blLvl := rfl
@[simp] theorem releaseLine_lastStatus : (s.releaseLine).lastStatus = s.lastStatus := rfl
@[simp] theorem releaseLine_lastValue : (s.releaseLine).lastValue = s.lastValue := rfl
@[simp] theorem releaseLine_lineBuf : (s.releaseLine).lineBuf = none := rfl
@[simp] theorem releaseLine_bufErr : (s.releaseLine).bufErr = s.bufErr := rfl
@[simp] theorem releaseLine_aborted : (s.releaseLine).aborted = s.aborted := rfl
@[simp] theorem releaseLine_trace : (s.releaseLine).trace = s.trace := rfl
@[simp] theorem releaseLine_hostMem : (s.releaseLine).hostMem = s.hostMem := rfl
@[simp] theorem releaseLine_inputs : (s.releaseLine).inputs = s.inputs := rfl
@[simp] theorem releaseLine_busOracle : (s.releaseLine).busOracle = s.busOracle := rfl
@[simp] theorem releaseLine_grantOracle : (s.releaseLine).grantOracle = s.grantOracle := rfl
@[simp] theorem releaseLine_cfg : (s.releaseLine).cfg = s.cfg := rfl
@[simp] theorem releaseLine_panelBase : (s.releaseLine).panelBase = s.panelBase := rfl
@[simp] theorem releaseLine_offsetLog :
    (s.releaseLine).offsetLog = s.offsetLog := rfl

/-! ### State.refuseGrant -/

@[simp] theorem refuseGrant_initDone : (s.refuseGrant).initDone = s.initDone := rfl
@[simp] theorem refuseGrant_rot : (s.refuseGrant).rot = s.rot := rfl
@[simp] theorem refuseGrant_width : (s.refuseGrant).width = s.width := rfl
@[simp] theorem refuseGrant_height : (s.refuseGrant).height = s.height := rfl
@[simp] theorem refuseGrant_colOff : (s.refuseGrant).colOff = s.colOff := rfl
@[simp] theorem refuseGrant_rowOff : (s.refuseGrant).rowOff = s.rowOff := rfl
@[simp] theorem refuseGrant_madctlCur : (s.refuseGrant).madctlCur = s.madctlCur := rfl
@[simp] theorem refuseGrant_inv : (s.refuseGrant).inv = s.inv := rfl
@[simp] theorem refuseGrant_rstLvl : (s.refuseGrant).rstLvl = s.rstLvl := rfl
@[simp] theorem refuseGrant_blLvl : (s.refuseGrant).blLvl = s.blLvl := rfl
@[simp] theorem refuseGrant_lastStatus : (s.refuseGrant).lastStatus = s.lastStatus := rfl
@[simp] theorem refuseGrant_lastValue : (s.refuseGrant).lastValue = s.lastValue := rfl
@[simp] theorem refuseGrant_lineBuf : (s.refuseGrant).lineBuf = s.lineBuf := rfl
@[simp] theorem refuseGrant_bufErr : (s.refuseGrant).bufErr = true := rfl
@[simp] theorem refuseGrant_aborted :
    (s.refuseGrant).aborted = (s.aborted || decide (s.cfg.bufFailPolicy = .abort)) := rfl
@[simp] theorem refuseGrant_trace : (s.refuseGrant).trace = s.trace := rfl
@[simp] theorem refuseGrant_hostMem : (s.refuseGrant).hostMem = s.hostMem := rfl
@[simp] theorem refuseGrant_inputs : (s.refuseGrant).inputs = s.inputs := rfl
@[simp] theorem refuseGrant_busOracle : (s.refuseGrant).busOracle = s.busOracle := rfl
@[simp] theorem refuseGrant_grantOracle : (s.refuseGrant).grantOracle = s.grantOracle := rfl
@[simp] theorem refuseGrant_cfg : (s.refuseGrant).cfg = s.cfg := rfl
@[simp] theorem refuseGrant_panelBase : (s.refuseGrant).panelBase = s.panelBase := rfl
@[simp] theorem refuseGrant_offsetLog :
    (s.refuseGrant).offsetLog = s.offsetLog := rfl

/-! ### State.beginDraw -/

@[simp] theorem beginDraw_initDone : (s.beginDraw).initDone = s.initDone := rfl
@[simp] theorem beginDraw_rot : (s.beginDraw).rot = s.rot := rfl
@[simp] theorem beginDraw_width : (s.beginDraw).width = s.width := rfl
@[simp] theorem beginDraw_height : (s.beginDraw).height = s.height := rfl
@[simp] theorem beginDraw_colOff : (s.beginDraw).colOff = s.colOff := rfl
@[simp] theorem beginDraw_rowOff : (s.beginDraw).rowOff = s.rowOff := rfl
@[simp] theorem beginDraw_madctlCur : (s.beginDraw).madctlCur = s.madctlCur := rfl
@[simp] theorem beginDraw_inv : (s.beginDraw).inv = s.inv := rfl
@[simp] theorem beginDraw_rstLvl : (s.beginDraw).rstLvl = s.rstLvl := rfl
@[simp] theorem beginDraw_blLvl : (s.beginDraw).blLvl = s.blLvl := rfl
@[simp] theorem beginDraw_lastStatus : (s.beginDraw).lastStatus = s.lastStatus := rfl
@[simp] theorem beginDraw_lastValue : (s.beginDraw).lastValue = s.lastValue := rfl
@[simp] theorem beginDraw_lineBuf : (s.beginDraw).lineBuf = s.lineBuf := rfl
@[simp] theorem beginDraw_bufErr : (s.beginDraw).bufErr = false := rfl
@[simp] theorem beginDraw_aborted : (s.beginDraw).aborted = false := rfl
@[simp] theorem beginDraw_trace : (s.beginDraw).trace = s.trace := rfl
@[simp] theorem beginDraw_hostMem : (s.beginDraw).hostMem = s.hostMem := rfl
@[simp] theorem beginDraw_inputs : (s.beginDraw).inputs = s.inputs := rfl
@[simp] theorem beginDraw_busOracle : (s.beginDraw).busOracle = s.busOracle := rfl
@[simp] theorem beginDraw_grantOracle : (s.beginDraw).grantOracle = s.grantOracle := rfl
@[simp] theorem beginDraw_cfg : (s.beginDraw).cfg = s.cfg := rfl
@[simp] theorem beginDraw_panelBase : (s.beginDraw).panelBase = s.panelBase := rfl
@[simp] theorem beginDraw_offsetLog :
    (s.beginDraw).offsetLog = s.offsetLog := rfl

/-! ### State.clearLatches -/

@[simp] theorem clearLatches_initDone : (s.clearLatches).initDone = s.initDone := rfl
@[simp] theorem clearLatches_rot : (s.clearLatches).rot = s.rot := rfl
@[simp] theorem clearLatches_width : (s.clearLatches).width = s.width := rfl
@[simp] theorem clearLatches_height : (s.clearLatches).height = s.height := rfl
@[simp] theorem clearLatches_colOff : (s.clearLatches).colOff = s.colOff := rfl
@[simp] theorem clearLatches_rowOff : (s.clearLatches).rowOff = s.rowOff := rfl
@[simp] theorem clearLatches_madctlCur : (s.clearLatches).madctlCur = s.madctlCur := rfl
@[simp] theorem clearLatches_inv : (s.clearLatches).inv = s.inv := rfl
@[simp] theorem clearLatches_rstLvl : (s.clearLatches).rstLvl = s.rstLvl := rfl
@[simp] theorem clearLatches_blLvl : (s.clearLatches).blLvl = s.blLvl := rfl
@[simp] theorem clearLatches_lastStatus : (s.clearLatches).lastStatus = s.lastStatus := rfl
@[simp] theorem clearLatches_lastValue : (s.clearLatches).lastValue = s.lastValue := rfl
@[simp] theorem clearLatches_lineBuf : (s.clearLatches).lineBuf = s.lineBuf := rfl
@[simp] theorem clearLatches_bufErr : (s.clearLatches).bufErr = false := rfl
@[simp] theorem clearLatches_aborted : (s.clearLatches).aborted = false := rfl
@[simp] theorem clearLatches_trace : (s.clearLatches).trace = s.trace := rfl
@[simp] theorem clearLatches_hostMem : (s.clearLatches).hostMem = s.hostMem := rfl
@[simp] theorem clearLatches_inputs : (s.clearLatches).inputs = s.inputs := rfl
@[simp] theorem clearLatches_busOracle : (s.clearLatches).busOracle = s.busOracle := rfl
@[simp] theorem clearLatches_grantOracle : (s.clearLatches).grantOracle = s.grantOracle := rfl
@[simp] theorem clearLatches_cfg : (s.clearLatches).cfg = s.cfg := rfl
@[simp] theorem clearLatches_panelBase : (s.clearLatches).panelBase = s.panelBase := rfl
@[simp] theorem clearLatches_offsetLog :
    (s.clearLatches).offsetLog = s.offsetLog := rfl

/-! ### State.issueFirst -/

@[simp] theorem issueFirst_initDone (p : Packet) : (s.issueFirst p).initDone = s.initDone := rfl
@[simp] theorem issueFirst_rot (p : Packet) : (s.issueFirst p).rot = s.rot := rfl
@[simp] theorem issueFirst_width (p : Packet) : (s.issueFirst p).width = s.width := rfl
@[simp] theorem issueFirst_height (p : Packet) : (s.issueFirst p).height = s.height := rfl
@[simp] theorem issueFirst_colOff (p : Packet) : (s.issueFirst p).colOff = s.colOff := rfl
@[simp] theorem issueFirst_rowOff (p : Packet) : (s.issueFirst p).rowOff = s.rowOff := rfl
@[simp] theorem issueFirst_madctlCur (p : Packet) : (s.issueFirst p).madctlCur = s.madctlCur := rfl
@[simp] theorem issueFirst_inv (p : Packet) : (s.issueFirst p).inv = s.inv := rfl
@[simp] theorem issueFirst_rstLvl (p : Packet) : (s.issueFirst p).rstLvl = s.rstLvl := rfl
@[simp] theorem issueFirst_blLvl (p : Packet) : (s.issueFirst p).blLvl = s.blLvl := rfl
@[simp] theorem issueFirst_lastStatus (p : Packet) :
    (s.issueFirst p).lastStatus = s.lastStatus := rfl
@[simp] theorem issueFirst_lastValue (p : Packet) : (s.issueFirst p).lastValue = s.lastValue := rfl
@[simp] theorem issueFirst_lineBuf (p : Packet) : (s.issueFirst p).lineBuf = s.lineBuf := rfl
@[simp] theorem issueFirst_bufErr (p : Packet) : (s.issueFirst p).bufErr = s.bufErr := rfl
@[simp] theorem issueFirst_aborted (p : Packet) : (s.issueFirst p).aborted = s.aborted := rfl
@[simp] theorem issueFirst_trace (p : Packet) : (s.issueFirst p).trace = s.trace := rfl
@[simp] theorem issueFirst_hostMem (p : Packet) : (s.issueFirst p).hostMem = s.hostMem := rfl
@[simp] theorem issueFirst_inputs (p : Packet) :
    (s.issueFirst p).inputs = .issue p :: s.inputs := rfl
@[simp] theorem issueFirst_busOracle (p : Packet) : (s.issueFirst p).busOracle = s.busOracle := rfl
@[simp] theorem issueFirst_grantOracle (p : Packet) :
    (s.issueFirst p).grantOracle = s.grantOracle := rfl
@[simp] theorem issueFirst_cfg (p : Packet) : (s.issueFirst p).cfg = s.cfg := rfl
@[simp] theorem issueFirst_panelBase (p : Packet) : (s.issueFirst p).panelBase = s.panelBase := rfl
@[simp] theorem issueFirst_offsetLog (p : Packet) :
    (s.issueFirst p).offsetLog = s.offsetLog := rfl

/-! ### State.blockReset -/

@[simp] theorem blockReset_initDone : (s.blockReset).initDone = false := rfl
@[simp] theorem blockReset_rot : (s.blockReset).rot = 0 := rfl
@[simp] theorem blockReset_width : (s.blockReset).width = (tupleOf s.cfg 0).width := rfl
@[simp] theorem blockReset_height : (s.blockReset).height = (tupleOf s.cfg 0).height := rfl
@[simp] theorem blockReset_colOff : (s.blockReset).colOff = (tupleOf s.cfg 0).colOff := rfl
@[simp] theorem blockReset_rowOff : (s.blockReset).rowOff = (tupleOf s.cfg 0).rowOff := rfl
@[simp] theorem blockReset_madctlCur : (s.blockReset).madctlCur = (tupleOf s.cfg 0).madctl := rfl
@[simp] theorem blockReset_inv : (s.blockReset).inv = false := rfl
@[simp] theorem blockReset_rstLvl : (s.blockReset).rstLvl = none := rfl
@[simp] theorem blockReset_blLvl : (s.blockReset).blLvl = none := rfl
@[simp] theorem blockReset_lastStatus : (s.blockReset).lastStatus = 0x00 := rfl
@[simp] theorem blockReset_lastValue : (s.blockReset).lastValue = 0x0000 := rfl
@[simp] theorem blockReset_lineBuf : (s.blockReset).lineBuf = none := rfl
@[simp] theorem blockReset_bufErr : (s.blockReset).bufErr = false := rfl
@[simp] theorem blockReset_aborted : (s.blockReset).aborted = false := rfl
@[simp] theorem blockReset_trace : (s.blockReset).trace = [] := rfl
@[simp] theorem blockReset_hostMem : (s.blockReset).hostMem = s.hostMem := rfl
@[simp] theorem blockReset_inputs : (s.blockReset).inputs = s.inputs := rfl
@[simp] theorem blockReset_busOracle : (s.blockReset).busOracle = s.busOracle := rfl
@[simp] theorem blockReset_grantOracle : (s.blockReset).grantOracle = s.grantOracle := rfl
@[simp] theorem blockReset_cfg : (s.blockReset).cfg = s.cfg := rfl
@[simp] theorem blockReset_panelBase : (s.blockReset).panelBase = s.panel := rfl
@[simp] theorem blockReset_offsetLog :
    (s.blockReset).offsetLog = [⟨0, ⟨(tupleOf s.cfg 0).colOff, (tupleOf s.cfg 0).rowOff⟩⟩] := rfl

end Sys2Proof.Machine
end

