-- ==== Sys2Proof/Laws/Ops.lean ====
section
/-! SUPPORT. What the shared operations can do, said once: the trace operations, the oracles, the
primitives and the bracket of a drawing command. -/

namespace Sys2Proof.Machine

open Sys2Proof

/-! ### Emitting -/

/-- Emitting a list appends it; the line levels follow it; nothing else changes. -/
theorem emitAll_eq (es : List Event) (s : State) :
    s.emitAll es =
      { s with
        trace := s.trace ++ es
        rstLvl := es.foldl (fun l e => e.resetLevel l) s.rstLvl
        blLvl := es.foldl (fun l e => e.backlightLevel l) s.blLvl } := by
  induction es generalizing s with
  | nil => simp [State.emitAll]
  | cons e es ih =>
    have h : s.emitAll (e :: es) = (s.emit e).emitAll es := rfl
    rw [h, ih]
    simp [State.emit]

theorem emitAll_nil (s : State) : s.emitAll [] = s := rfl

theorem emitAll_append (es fs : List Event) (s : State) :
    s.emitAll (es ++ fs) = (s.emitAll es).emitAll fs := by
  simp [State.emitAll, List.foldl_append]

@[simp] theorem emitAll_trace (es : List Event) (s : State) :
    (s.emitAll es).trace = s.trace ++ es := by rw [emitAll_eq]

@[simp] theorem emitAll_rstLvl (es : List Event) (s : State) :
    (s.emitAll es).rstLvl = es.foldl (fun l e => e.resetLevel l) s.rstLvl := by rw [emitAll_eq]

@[simp] theorem emitAll_blLvl (es : List Event) (s : State) :
    (s.emitAll es).blLvl = es.foldl (fun l e => e.backlightLevel l) s.blLvl := by rw [emitAll_eq]

@[simp] theorem emitAll_initDone (es : List Event) (s : State) :
    (s.emitAll es).initDone = s.initDone := by rw [emitAll_eq]

@[simp] theorem emitAll_rot (es : List Event) (s : State) :
    (s.emitAll es).rot = s.rot := by rw [emitAll_eq]

@[simp] theorem emitAll_width (es : List Event) (s : State) :
    (s.emitAll es).width = s.width := by rw [emitAll_eq]

@[simp] theorem emitAll_height (es : List Event) (s : State) :
    (s.emitAll es).height = s.height := by rw [emitAll_eq]

@[simp] theorem emitAll_colOff (es : List Event) (s : State) :
    (s.emitAll es).colOff = s.colOff := by rw [emitAll_eq]

@[simp] theorem emitAll_rowOff (es : List Event) (s : State) :
    (s.emitAll es).rowOff = s.rowOff := by rw [emitAll_eq]

@[simp] theorem emitAll_madctlCur (es : List Event) (s : State) :
    (s.emitAll es).madctlCur = s.madctlCur := by rw [emitAll_eq]

@[simp] theorem emitAll_inv (es : List Event) (s : State) :
    (s.emitAll es).inv = s.inv := by rw [emitAll_eq]

@[simp] theorem emitAll_lastStatus (es : List Event) (s : State) :
    (s.emitAll es).lastStatus = s.lastStatus := by rw [emitAll_eq]

@[simp] theorem emitAll_lastValue (es : List Event) (s : State) :
    (s.emitAll es).lastValue = s.lastValue := by rw [emitAll_eq]

@[simp] theorem emitAll_lineBuf (es : List Event) (s : State) :
    (s.emitAll es).lineBuf = s.lineBuf := by rw [emitAll_eq]

@[simp] theorem emitAll_bufErr (es : List Event) (s : State) :
    (s.emitAll es).bufErr = s.bufErr := by rw [emitAll_eq]

@[simp] theorem emitAll_aborted (es : List Event) (s : State) :
    (s.emitAll es).aborted = s.aborted := by rw [emitAll_eq]

@[simp] theorem emitAll_hostMem (es : List Event) (s : State) :
    (s.emitAll es).hostMem = s.hostMem := by rw [emitAll_eq]

@[simp] theorem emitAll_inputs (es : List Event) (s : State) :
    (s.emitAll es).inputs = s.inputs := by rw [emitAll_eq]

@[simp] theorem emitAll_busOracle (es : List Event) (s : State) :
    (s.emitAll es).busOracle = s.busOracle := by rw [emitAll_eq]

@[simp] theorem emitAll_grantOracle (es : List Event) (s : State) :
    (s.emitAll es).grantOracle = s.grantOracle := by rw [emitAll_eq]

@[simp] theorem emitAll_cfg (es : List Event) (s : State) :
    (s.emitAll es).cfg = s.cfg := by rw [emitAll_eq]

@[simp] theorem emitAll_panelBase (es : List Event) (s : State) :
    (s.emitAll es).panelBase = s.panelBase := by rw [emitAll_eq]

@[simp] theorem emitAll_offsetLog (es : List Event) (s : State) :
    (s.emitAll es).offsetLog = s.offsetLog := by rw [emitAll_eq]

/-- The events a drawing command makes: command bytes and non-empty data (R11). -/
def Event.drawn : Event → Bool
  | .cmd _ => true
  | .data bytes => !bytes.isEmpty
  | .rst _ | .delay _ | .bl _ => false

theorem resetLevel_of_drawn (es : List Event) (l : Option Bool) (h : es.all Event.drawn = true) :
    es.foldl (fun l e => e.resetLevel l) l = l := by
  induction es generalizing l with
  | nil => rfl
  | cons e es ih =>
    simp only [List.all_cons, Bool.and_eq_true] at h
    cases e <;> simp_all [Event.drawn, Event.resetLevel]

theorem backlightLevel_of_drawn (es : List Event) (l : Option Bool)
    (h : es.all Event.drawn = true) :
    es.foldl (fun l e => e.backlightLevel l) l = l := by
  induction es generalizing l with
  | nil => rfl
  | cons e es ih =>
    simp only [List.all_cons, Bool.and_eq_true] at h
    cases e <;> simp_all [Event.drawn, Event.backlightLevel]

/-- Emitting drawn events appends them and changes nothing else. -/
theorem emitAll_drawn (es : List Event) (s : State) (h : es.all Event.drawn = true) :
    s.emitAll es = { s with trace := s.trace ++ es } := by
  rw [emitAll_eq, resetLevel_of_drawn es _ h, backlightLevel_of_drawn es _ h]

/-! ### The window -/

theorem be16_length (v : Int) : (be16 v).length = 2 := rfl

theorem windowEvents_drawn (c : Config) (co ro : Halfword) (x0 y0 x1 y1 : Int) :
    (windowEvents c co ro x0 y0 x1 y1).all Event.drawn = true := rfl

theorem window_eq (x0 y0 x1 y1 : Int) (s : State) :
    s.window x0 y0 x1 y1 =
      { s with trace := s.trace ++ windowEvents s.cfg s.colOff s.rowOff x0 y0 x1 y1 } :=
  emitAll_drawn _ _ (windowEvents_drawn ..)

@[simp] theorem window_trace (x0 y0 x1 y1 : Int) (s : State) :
    (s.window x0 y0 x1 y1).trace = s.trace ++ windowEvents s.cfg s.colOff s.rowOff x0 y0 x1 y1 := by rw [window_eq]

@[simp] theorem window_initDone (x0 y0 x1 y1 : Int) (s : State) :
    (s.window x0 y0 x1 y1).initDone = s.initDone := by rw [window_eq]

@[simp] theorem window_rot (x0 y0 x1 y1 : Int) (s : State) :
    (s.window x0 y0 x1 y1).rot = s.rot := by rw [window_eq]

@[simp] theorem window_width (x0 y0 x1 y1 : Int) (s : State) :
    (s.window x0 y0 x1 y1).width = s.width := by rw [window_eq]

@[simp] theorem window_height (x0 y0 x1 y1 : Int) (s : State) :
    (s.window x0 y0 x1 y1).height = s.height := by rw [window_eq]

@[simp] theorem window_colOff (x0 y0 x1 y1 : Int) (s : State) :
    (s.window x0 y0 x1 y1).colOff = s.colOff := by rw [window_eq]

@[simp] theorem window_rowOff (x0 y0 x1 y1 : Int) (s : State) :
    (s.window x0 y0 x1 y1).rowOff = s.rowOff := by rw [window_eq]

@[simp] theorem window_madctlCur (x0 y0 x1 y1 : Int) (s : State) :
    (s.window x0 y0 x1 y1).madctlCur = s.madctlCur := by rw [window_eq]

@[simp] theorem window_inv (x0 y0 x1 y1 : Int) (s : State) :
    (s.window x0 y0 x1 y1).inv = s.inv := by rw [window_eq]

@[simp] theorem window_rstLvl (x0 y0 x1 y1 : Int) (s : State) :
    (s.window x0 y0 x1 y1).rstLvl = s.rstLvl := by rw [window_eq]

@[simp] theorem window_blLvl (x0 y0 x1 y1 : Int) (s : State) :
    (s.window x0 y0 x1 y1).blLvl = s.blLvl := by rw [window_eq]

@[simp] theorem window_lastStatus (x0 y0 x1 y1 : Int) (s : State) :
    (s.window x0 y0 x1 y1).lastStatus = s.lastStatus := by rw [window_eq]

@[simp] theorem window_lastValue (x0 y0 x1 y1 : Int) (s : State) :
    (s.window x0 y0 x1 y1).lastValue = s.lastValue := by rw [window_eq]

@[simp] theorem window_lineBuf (x0 y0 x1 y1 : Int) (s : State) :
    (s.window x0 y0 x1 y1).lineBuf = s.lineBuf := by rw [window_eq]

@[simp] theorem window_bufErr (x0 y0 x1 y1 : Int) (s : State) :
    (s.window x0 y0 x1 y1).bufErr = s.bufErr := by rw [window_eq]

@[simp] theorem window_aborted (x0 y0 x1 y1 : Int) (s : State) :
    (s.window x0 y0 x1 y1).aborted = s.aborted := by rw [window_eq]

@[simp] theorem window_hostMem (x0 y0 x1 y1 : Int) (s : State) :
    (s.window x0 y0 x1 y1).hostMem = s.hostMem := by rw [window_eq]

@[simp] theorem window_inputs (x0 y0 x1 y1 : Int) (s : State) :
    (s.window x0 y0 x1 y1).inputs = s.inputs := by rw [window_eq]

@[simp] theorem window_busOracle (x0 y0 x1 y1 : Int) (s : State) :
    (s.window x0 y0 x1 y1).busOracle = s.busOracle := by rw [window_eq]

@[simp] theorem window_grantOracle (x0 y0 x1 y1 : Int) (s : State) :
    (s.window x0 y0 x1 y1).grantOracle = s.grantOracle := by rw [window_eq]

@[simp] theorem window_cfg (x0 y0 x1 y1 : Int) (s : State) :
    (s.window x0 y0 x1 y1).cfg = s.cfg := by rw [window_eq]

@[simp] theorem window_panelBase (x0 y0 x1 y1 : Int) (s : State) :
    (s.window x0 y0 x1 y1).panelBase = s.panelBase := by rw [window_eq]

@[simp] theorem window_offsetLog (x0 y0 x1 y1 : Int) (s : State) :
    (s.window x0 y0 x1 y1).offsetLog = s.offsetLog := by rw [window_eq]

/-! ### The oracles -/

/-- The answer of an oracle is `answerAt 0`. -/
theorem Oracle.ask_fst (free : Nat → Bool) (o : Oracle) :
    (o.ask free).1 = o.answerAt free 0 := by
  obtain ⟨answers, n⟩ := o
  cases answers <;> simp [Oracle.ask, Oracle.answerAt]

/-- Asking an oracle counts one. -/
theorem Oracle.ask_asked (free : Nat → Bool) (o : Oracle) :
    (o.ask free).2.asked = o.asked + 1 := by
  obtain ⟨answers, n⟩ := o
  cases answers <;> rfl

/-- After one question, the j-th answer is what the (j+1)-th was. -/
theorem Oracle.ask_answerAt (free : Nat → Bool) (o : Oracle) (j : Nat) :
    (o.ask free).2.answerAt free j = o.answerAt free (j + 1) := by
  obtain ⟨answers, n⟩ := o
  cases answers <;> simp [Oracle.ask, Oracle.answerAt, Nat.add_comm, Nat.add_left_comm]

/-- `acquire` changes the grant oracle only. -/
theorem acquire_snd (n : Nat) (s : State) :
    (s.acquire n).2 = { s with grantOracle := (s.acquire n).2.grantOracle } := by
  simp only [State.acquire]
  split <;> rfl

/-- The grant and what is left of the oracle do not depend on the size asked for. -/
theorem acquire_size (n m : Nat) (s : State) : s.acquire n = s.acquire m := rfl

theorem acquire_fst_of_never (n : Nat) (s : State) (h : s.cfg.bufMayFail = false) :
    s.acquire n = (true, s) := by simp [State.acquire, h]

theorem acquire_of_may (n : Nat) (s : State) (h : s.cfg.bufMayFail = true) :
    s.acquire n =
      (s.nextGrant, { s with grantOracle := (s.grantOracle.ask Config.grantDraw).2 }) := by
  simp [State.acquire, h, State.nextGrant, Oracle.ask_fst]

theorem grantsAll_fst (n : Nat) (s : State) (h : s.grantsAll) : (s.acquire n).1 = true := by
  rcases hb : s.cfg.bufMayFail with _ | _
  · rw [acquire_fst_of_never n s hb]
  · rw [acquire_of_may n s hb]
    rcases h with h | h
    · simp [hb] at h
    · exact h 0

theorem grantsAll_snd (n : Nat) (s : State) (h : s.grantsAll) : (s.acquire n).2.grantsAll := by
  rcases hb : s.cfg.bufMayFail with _ | _
  · rw [acquire_fst_of_never n s hb]
    exact h
  · rw [acquire_of_may n s hb]
    rcases h with h | h
    · simp [hb] at h
    · exact .inr fun j => by
        show ((s.grantOracle.ask Config.grantDraw).2).answerAt Config.grantDraw j = true
        rw [Oracle.ask_answerAt]
        exact h (j + 1)

/-! ### The scanline buffer -/

theorem emitLines_eq (n : Nat) (l : List Byte) (s : State) (hl : s.lineBuf = some l) :
    s.emitLines n = { s with trace := s.trace ++ List.replicate n (.data l) } := by
  induction n generalizing s with
  | zero => simp [State.emitLines]
  | succ n ih =>
    have h1 : s.emitLine = { s with trace := s.trace ++ [.data l] } := by
      simp [State.emitLine, State.emit, hl, Event.resetLevel, Event.backlightLevel]
    rw [State.emitLines, h1, ih _ (by simpa using hl)]
    simp [List.replicate_succ]

theorem fillLine_length (n : Nat) (c : Color) : (fillLine n c).length = 2 * n := by
  simp [fillLine, colorBytes, Nat.mul_comm]

/-! ### Clipping -/

/-- A rectangle that clips to something: the intersection with the screen, not empty. -/
theorem clip_eq_some (width height x y w h : Int) (r : Rect) :
    clip width height x y w h = some r ↔
      0 < w ∧ 0 < h ∧ 0 < r.w ∧ 0 < r.h ∧ r.x = max x 0 ∧ r.y = max y 0
        ∧ r.x + r.w = min (x + w) width ∧ r.y + r.h = min (y + h) height := by
  obtain ⟨rx, ry, rw', rh⟩ := r
  simp only [clip]
  split
  · simp only [reduceCtorEq, false_iff]
    omega
  · split
    · simp only [reduceCtorEq, false_iff]
      omega
    · simp only [Option.some.injEq, Rect.mk.injEq]
      omega

theorem clip_pos (width height x y w h : Int) (r : Rect) (hr : clip width height x y w h = some r) :
    0 < r.w ∧ 0 < r.h := by
  have := (clip_eq_some ..).1 hr
  exact ⟨this.2.2.1, this.2.2.2.1⟩

/-! ### The primitives -/

/-- The fill of a clipped rectangle, its grant given. -/
theorem fillClipped_granted (r : Rect) (c : Color) (s : State)
    (h : (s.acquire (2 * r.w.toNat)).1 = true) :
    s.fillClipped r c =
      { s with
        trace := s.trace
          ++ (windowEvents s.cfg s.colOff s.rowOff r.x r.y (r.x + r.w - 1) (r.y + r.h - 1)
            ++ List.replicate r.h.toNat (.data (fillLine r.w.toNat c)))
        lineBuf := none
        grantOracle := (s.acquire (2 * r.w.toNat)).2.grantOracle } := by
  rcases hb : s.cfg.bufMayFail with _ | _
  · simp only [State.fillClipped, window_eq, State.acquire, hb]
    rw [if_pos (by simp), emitLines_eq _ _ _ rfl]
    simp [State.releaseLine, State.setLine]
  · simp only [State.acquire, hb, if_true] at h
    simp only [State.fillClipped, window_eq, State.acquire, hb, if_true, h]
    rw [emitLines_eq _ _ _ rfl]
    simp [State.releaseLine, State.setLine]

/-- The fill of a clipped rectangle, its grant refused. -/
theorem fillClipped_refused (r : Rect) (c : Color) (s : State)
    (h : (s.acquire (2 * r.w.toNat)).1 = false) :
    s.fillClipped r c =
      { s with
        trace := s.trace
          ++ windowEvents s.cfg s.colOff s.rowOff r.x r.y (r.x + r.w - 1) (r.y + r.h - 1)
        bufErr := true
        aborted := s.aborted || decide (s.cfg.bufFailPolicy = .abort)
        grantOracle := (s.acquire (2 * r.w.toNat)).2.grantOracle } := by
  rcases hb : s.cfg.bufMayFail with _ | _
  · simp [State.acquire, hb] at h
  · simp only [State.acquire, hb, if_true] at h
    simp [State.fillClipped, window_eq, State.acquire, hb, h, State.refuseGrant]

theorem pixel_onScreen (x y : Int) (c : Color) (s : State) (ha : s.aborted = false)
    (h : s.onScreen x y = true) :
    s.pixel x y c =
      { s with
        trace := s.trace
          ++ (windowEvents s.cfg s.colOff s.rowOff x y x y ++ [.data (colorBytes c)]) } := by
  simp [State.pixel, ha, h, window_eq, State.emit, Event.resetLevel, Event.backlightLevel]

theorem pixel_offScreen (x y : Int) (c : Color) (s : State) (h : s.onScreen x y = false) :
    s.pixel x y c = s := by simp [State.pixel, h]

theorem runPrim_aborted (p : Prim) (s : State) (h : s.aborted = true) : s.runPrim p = s := by
  cases p <;> simp [State.runPrim, State.fill, State.pixel, h]

theorem runPrims_aborted (ps : List Prim) (s : State) (h : s.aborted = true) :
    s.runPrims ps = s := by
  induction ps with
  | nil => rfl
  | cons p ps ih => simpa [State.runPrims, runPrim_aborted p s h] using ih

theorem runPrims_cons (p : Prim) (ps : List Prim) (s : State) :
    s.runPrims (p :: ps) = (s.runPrim p).runPrims ps := rfl

theorem runPrims_append (ps qs : List Prim) (s : State) :
    s.runPrims (ps ++ qs) = (s.runPrims ps).runPrims qs := by
  simp [State.runPrims, List.foldl_append]

/-- A state made from another by drawing alone: drawn events are appended, the hidden state and the
grant oracle may change, the scanline buffer is released, and nothing else changes. -/
def DrawsFrom (s t : State) : Prop :=
  ∃ seg lb be ab go,
    t = { s with
          trace := s.trace ++ seg, lineBuf := lb, bufErr := be, aborted := ab, grantOracle := go }
      ∧ seg.all Event.drawn = true ∧ (s.lineBuf = none → lb = none)

theorem DrawsFrom.refl (s : State) : DrawsFrom s s :=
  ⟨[], s.lineBuf, s.bufErr, s.aborted, s.grantOracle, by simp, rfl, id⟩

theorem DrawsFrom.trans {s t u : State} (h : DrawsFrom s t) (k : DrawsFrom t u) :
    DrawsFrom s u := by
  obtain ⟨seg, lb, be, ab, go, rfl, hs, hl⟩ := h
  obtain ⟨seg', lb', be', ab', go', rfl, hs', hl'⟩ := k
  refine ⟨seg ++ seg', lb', be', ab', go', by simp, by simp [List.all_append, hs, hs'], ?_⟩
  exact fun h => hl' (hl h)

theorem drawn_replicate (n : Nat) (l : List Byte) (h : l ≠ []) :
    (List.replicate n (Event.data l)).all Event.drawn = true := by
  cases l <;> simp_all [Event.drawn]

theorem fillLine_ne_nil (n : Nat) (c : Color) (h : 0 < n) : fillLine n c ≠ [] := by
  intro h0
  have := fillLine_length n c
  simp [h0] at this
  omega

theorem fillClipped_drawsFrom (r : Rect) (c : Color) (s : State) (hw : 0 < r.w) :
    DrawsFrom s (s.fillClipped r c) := by
  rcases h : (s.acquire (2 * r.w.toNat)).1 with _ | _
  · exact ⟨_, s.lineBuf, _, _, _, fillClipped_refused r c s h, windowEvents_drawn .., id⟩
  · refine ⟨_, none, s.bufErr, s.aborted, _, fillClipped_granted r c s h, ?_, fun _ => rfl⟩
    rw [List.all_append, windowEvents_drawn,
      drawn_replicate _ _ (fillLine_ne_nil _ _ (by omega))]
    rfl

theorem runPrim_drawsFrom (p : Prim) (s : State) : DrawsFrom s (s.runPrim p) := by
  cases p with
  | fill x y w h c =>
    simp only [State.runPrim, State.fill]
    split
    · exact .refl s
    · split
      · exact .refl s
      · rename_i r hr
        exact fillClipped_drawsFrom r c s (clip_pos _ _ _ _ _ _ r hr).1
  | pixel x y c =>
    rcases ha : s.aborted with _ | _
    · rcases hs : s.onScreen x y with _ | _
      · rw [State.runPrim, pixel_offScreen x y c s hs]
        exact .refl s
      · exact ⟨_, s.lineBuf, s.bufErr, s.aborted, s.grantOracle, pixel_onScreen x y c s ha hs, rfl,
          id⟩
    · rw [runPrim_aborted _ s ha]
      exact .refl s

theorem runPrims_drawsFrom (ps : List Prim) (s : State) : DrawsFrom s (s.runPrims ps) := by
  induction ps generalizing s with
  | nil => exact .refl s
  | cons p ps ih => exact (runPrim_drawsFrom p s).trans (ih _)

/-- A state made from another by a drawing command: drawn events are appended, the completion record
is written, the grant oracle may have been asked, the latches are clear, and nothing else changes. -/
def Draws (s t : State) : Prop :=
  ∃ seg lb go st,
    t = { s with
          trace := s.trace ++ seg, lineBuf := lb, bufErr := false, aborted := false
          grantOracle := go, lastStatus := Status.code st, lastValue := 0 }
      ∧ seg.all Event.drawn = true ∧ (s.lineBuf = none → lb = none)

theorem finishDraw_of (s : State) :
    s.finishDraw =
      { s with
        bufErr := false, aborted := false, lastValue := 0
        lastStatus := (if s.bufErr then Status.errBuf else Status.ok).code } := by
  cases h : s.bufErr <;>
    simp [State.finishDraw, State.clearLatches, State.raise, State.complete, State.record, h]

theorem draw_draws (ps : List Prim) (s : State) : Draws s (s.draw ps) := by
  obtain ⟨seg, lb, be, ab, go, h, hs, hl⟩ := runPrims_drawsFrom ps s.beginDraw
  refine ⟨seg, lb, go, if be then .errBuf else .ok, ?_, hs, hl⟩
  rw [State.draw, h, finishDraw_of]
  cases be <;> simp [State.beginDraw]

/-! ### Primitives whose grants are given -/

theorem colorBytes_eq_wire (c : Color) : colorBytes c = wireColor c := by
  have h := c.isLt
  simp only [colorBytes, wireColor, wireBytes, hiByte, loByte, List.cons.injEq, and_true]
  constructor
  · apply BitVec.eq_of_toNat_eq
    simp [BitVec.toNat_ofInt, Nat.shiftRight_eq_div_pow]
    omega
  · apply BitVec.eq_of_toNat_eq
    simp

theorem be16_eq_wire (v : Int) : be16 v = wireBytes v := by
  rw [be16, colorBytes_eq_wire]
  simp only [wireColor, wireBytes, List.cons.injEq, and_true]
  constructor <;> apply BitVec.eq_of_toNat_eq <;> simp only [BitVec.toNat_ofInt] <;> omega

theorem windowEvents_eq_calls (s : State) (x0 y0 x1 y1 : Int) :
    windowEvents s.cfg s.colOff s.rowOff x0 y0 x1 y1 = s.windowCalls x0 y0 x1 y1 := by
  simp [windowEvents, State.windowCalls, be16_eq_wire]

theorem fillLine_eq_wire (n : Nat) (c : Color) :
    fillLine n c = (List.replicate n (wireColor c)).flatten := by
  rw [fillLine, colorBytes_eq_wire]

/-- Clipping is the on-screen part, where there is one. -/
theorem clip_eq_screenPart (s : State) (x y w h : Int) (hs : s.sees x y w h) :
    s.clip x y w h = some (s.screenPart x y w h) := by
  obtain ⟨h1, h2, h3, h4⟩ := hs
  simp only [State.clip, clip_eq_some, State.screenPart]
  refine ⟨h1, h2, ?_, ?_, trivial, trivial, ?_, ?_⟩ <;> omega

theorem clip_eq_none (s : State) (x y w h : Int) (hs : ¬s.sees x y w h) :
    s.clip x y w h = none := by
  rcases hc : s.clip x y w h with _ | r
  · rfl
  · rw [State.clip, clip_eq_some] at hc
    simp only [State.sees] at hs
    omega

/-- The view of a state its primitives depend on is left alone by drawing. -/
theorem primEvents_of_drawsFrom {s t : State} (h : DrawsFrom s t) : t.primEvents = s.primEvents := by
  obtain ⟨seg, lb, be, ab, go, rfl, -, -⟩ := h
  funext p
  cases p <;> rfl

theorem runPrim_granted (p : Prim) (s : State) (hg : s.grantsAll) (ha : s.aborted = false) :
    (s.runPrim p).trace = s.trace ++ s.primEvents p ∧ (s.runPrim p).grantsAll
      ∧ (s.runPrim p).aborted = false ∧ (s.runPrim p).bufErr = s.bufErr := by
  cases p with
  | fill x y w h c =>
    simp only [State.runPrim, State.fill, ha, State.primEvents]
    rw [if_neg (by simp)]
    cases hc : s.clip x y w h with
    | none => exact ⟨by simp, hg, ha, rfl⟩
    | some r =>
      have hf := fillClipped_granted r c s (grantsAll_fst _ s hg)
      refine ⟨?_, ?_, ?_, ?_⟩
      · simp only [hf, State.fillCalls, State.rectWindow, windowEvents_eq_calls, fillLine_eq_wire]
      · have hs := grantsAll_snd (2 * r.w.toNat) s hg
        rw [acquire_snd] at hs
        show (s.fillClipped r c).grantsAll
        rw [hf]
        exact hs
      · simp only [hf, ha]
      · simp only [hf]
  | pixel x y c =>
    simp only [State.runPrim, State.primEvents]
    rcases hs : s.onScreen x y with _ | _
    · rw [pixel_offScreen x y c s hs]
      exact ⟨by simp, hg, ha, rfl⟩
    · rw [pixel_onScreen x y c s ha hs]
      exact ⟨by simp [windowEvents_eq_calls, colorBytes_eq_wire], hg, ha, rfl⟩

theorem runPrims_granted (ps : List Prim) (s : State) (hg : s.grantsAll) (ha : s.aborted = false) :
    (s.runPrims ps).trace = s.trace ++ ps.flatMap s.primEvents
      ∧ (s.runPrims ps).bufErr = s.bufErr := by
  induction ps generalizing s with
  | nil => exact ⟨by simp [State.runPrims], rfl⟩
  | cons p ps ih =>
    obtain ⟨h1, h2, h3, h4⟩ := runPrim_granted p s hg ha
    obtain ⟨k1, k2⟩ := ih (s.runPrim p) h2 h3
    rw [runPrims_cons]
    refine ⟨?_, k2.trans h4⟩
    rw [k1, h1, primEvents_of_drawsFrom (runPrim_drawsFrom p s)]
    simp

/-- A drawing command whose grants are all given appends the events of its primitives in order and
reports OK. -/
theorem draw_granted (ps : List Prim) (s : State) (hg : s.grantsAll) :
    (s.draw ps).trace = s.trace ++ ps.flatMap s.primEvents ∧ (s.draw ps).lastStatus = 0
      ∧ (s.draw ps).lastValue = 0 := by
  obtain ⟨h1, h2⟩ := runPrims_granted ps s.beginDraw hg rfl
  rw [State.draw, finishDraw_of]
  simp only [h1, h2]
  exact ⟨rfl, rfl, trivial⟩

end Sys2Proof.Machine
end

