-- ==== Sys2Proof/Laws/Exec.lean ====
section
/-! SUPPORT. What a whole command can do: DRAW_IMAGE and DRAW_STRING over the shared operations, and one
inversion lemma for the drawing commands and one for the panel commands. -/

namespace Sys2Proof.Machine

open Sys2Proof

/-- A drawing command keeps everything its frame names. -/
theorem Draws.frame {s t : State} (h : Draws s t) : DrawFrame s t := by
  obtain ⟨seg, lb, go, st, rfl, -, hl⟩ := h
  exact ⟨⟨⟨rfl, fun _ => rfl, rfl, rfl⟩, ⟨rfl, rfl, rfl, rfl, rfl, rfl, rfl⟩, ⟨rfl, rfl, rfl⟩⟩, rfl,
    rfl, ⟨rfl, rfl⟩, hl⟩

theorem raise_draws (e : Status) (s : State) : Draws s (s.beginDraw.raise e) :=
  ⟨[], s.lineBuf, s.grantOracle, e, by simp [State.raise, State.record, State.beginDraw], rfl, id⟩

theorem complete_draws (s : State) : Draws s (s.beginDraw.complete 0) :=
  ⟨[], s.lineBuf, s.grantOracle, .ok,
    by simp [State.complete, State.record, State.beginDraw], rfl, id⟩

/-! ### DRAW_IMAGE -/

/-- The scanlines of an image are appended, one DATA call each; only the buffer changes besides. -/
theorem emitImage_eq (addr : Nat) (x y w : Int) (r : Rect) (s : State) :
    ∃ lb, s.emitImage addr x y w r =
      { s with
        trace := s.trace
          ++ (List.range r.h.toNat).map (fun j => .data (imageLine s.hostMem addr x y w r j))
        lineBuf := lb } := by
  simp only [State.emitImage]
  generalize List.range r.h.toNat = js
  induction js generalizing s with
  | nil => exact ⟨s.lineBuf, by simp⟩
  | cons j js ih =>
    simp only [List.foldl_cons]
    obtain ⟨lb, h⟩ := ih ((s.setLine (imageLine s.hostMem addr x y w r j)).emitLine)
    refine ⟨lb, ?_⟩
    rw [h]
    simp [State.setLine, State.emitLine, State.emit, Event.resetLevel, Event.backlightLevel]

/-- DRAW_IMAGE whose grant is given. -/
theorem imageClipped_granted (addr : Nat) (x y w : Int) (r : Rect) (s : State)
    (h : (s.acquire (2 * r.w.toNat)).1 = true) :
    s.imageClipped addr x y w r =
      { s with
        trace := s.trace
          ++ (windowEvents s.cfg s.colOff s.rowOff r.x r.y (r.x + r.w - 1) (r.y + r.h - 1)
            ++ (List.range r.h.toNat).map (fun j => .data (imageLine s.hostMem addr x y w r j)))
        lineBuf := none
        grantOracle := (s.acquire (2 * r.w.toNat)).2.grantOracle
        lastStatus := Status.ok.code, lastValue := 0 } := by
  rcases hb : s.cfg.bufMayFail with _ | _
  · simp only [State.imageClipped, window_eq, State.acquire, hb]
    rw [if_pos (by simp)]
    obtain ⟨lb, h⟩ := emitImage_eq addr x y w r
      { s with
        trace := s.trace
          ++ windowEvents s.cfg s.colOff s.rowOff r.x r.y (r.x + r.w - 1) (r.y + r.h - 1) }
    simp only [Bool.false_eq_true, if_false]
    rw [h]
    simp [State.releaseLine, State.complete, State.record]
  · simp only [State.acquire, hb, if_true] at h
    simp only [State.imageClipped, window_eq, State.acquire, hb, if_true, h]
    obtain ⟨lb, h⟩ := emitImage_eq addr x y w r
      { s with
        trace := s.trace
          ++ windowEvents s.cfg s.colOff s.rowOff r.x r.y (r.x + r.w - 1) (r.y + r.h - 1)
        grantOracle := (Oracle.ask Config.grantDraw s.grantOracle).2 }
    rw [h]
    simp [State.releaseLine, State.complete, State.record]

/-- DRAW_IMAGE whose grant is refused. -/
theorem imageClipped_refused (addr : Nat) (x y w : Int) (r : Rect) (s : State)
    (h : (s.acquire (2 * r.w.toNat)).1 = false) :
    s.imageClipped addr x y w r =
      { s with
        trace := s.trace
          ++ windowEvents s.cfg s.colOff s.rowOff r.x r.y (r.x + r.w - 1) (r.y + r.h - 1)
        grantOracle := (s.acquire (2 * r.w.toNat)).2.grantOracle
        lastStatus := Status.errBuf.code, lastValue := 0 } := by
  rcases hb : s.cfg.bufMayFail with _ | _
  · simp [State.acquire, hb] at h
  · simp only [State.acquire, hb, if_true] at h
    simp [State.imageClipped, window_eq, State.acquire, hb, h, State.raise, State.record]

theorem imageLine_ne_nil (m : Memory) (addr : Nat) (x y w : Int) (r : Rect) (j : Nat)
    (h : 0 < r.w) : imageLine m addr x y w r j ≠ [] := by
  obtain ⟨n, hn⟩ : ∃ n, r.w.toNat = n + 1 := ⟨r.w.toNat - 1, by omega⟩
  simp [imageLine, hn, List.range_succ_eq_map, colorBytes]

theorem imageClipped_draws (addr : Nat) (x y w : Int) (r : Rect) (s : State) (hw : 0 < r.w) :
    Draws s (s.beginDraw.imageClipped addr x y w r) := by
  rcases h : (s.beginDraw.acquire (2 * r.w.toNat)).1 with _ | _
  · exact ⟨_, s.lineBuf, _, .errBuf, imageClipped_refused addr x y w r _ h, windowEvents_drawn ..,
      id⟩
  · refine ⟨_, none, _, .ok, imageClipped_granted addr x y w r _ h, ?_, fun _ => rfl⟩
    rw [List.all_append, windowEvents_drawn]
    simp [Event.drawn, imageLine_ne_nil _ _ _ _ _ _ _ hw]

theorem drawImage_draws (x y w h : Int) (addr : Nat) (s : State) :
    Draws s (s.drawImage x y w h addr) := by
  simp only [State.drawImage]
  split
  · exact complete_draws s
  · rename_i r hr
    split
    · exact raise_draws _ s
    · split
      · exact raise_draws _ s
      · exact imageClipped_draws _ _ _ _ _ _ (clip_pos _ _ _ _ _ _ r hr).1

/-! ### DRAW_STRING -/

theorem drawString_draws (x y : Int) (sc : Nat) (fg bg : Color) (a : Nat) (s : State) :
    Draws s (s.drawString x y sc fg bg a) := by
  simp only [State.drawString]
  split
  · exact raise_draws _ s
  · exact draw_draws _ s

/-! ### Whole commands -/

/-- A drawing command either meets the gate or draws. -/
theorem exec_drawing (i : Instr) (s t : State) (hi : drawingCommand i = true)
    (h : exec i s = .next t) :
    (s.initDone = false ∧ t = s.raise .errNotInit) ∨ (s.initDone = true ∧ Draws s t) := by
  cases hd : s.initDone
  · refine .inl ⟨rfl, ?_⟩
    cases i <;> simp [drawingCommand] at hi <;>
      simpa [exec, execFillRect, execDrawPixel, execDrawImage, execLine, execRect, execFilledRect,
        execCircle, execFilledCircle, execDrawChar, execDrawString, State.gated, hd, eq_comm] using h
  · refine .inr ⟨rfl, ?_⟩
    cases i <;> simp [drawingCommand] at hi <;>
      simp only [exec, execFillRect, execDrawPixel, execDrawImage, execLine, execRect,
        execFilledRect, execCircle, execFilledCircle, execDrawChar, execDrawString, State.gated, hd,
        if_true, Host.Outcome.next.injEq] at h <;>
      subst h <;>
      first
      | exact draw_draws _ _
      | exact drawImage_draws _ _ _ _ _ _
      | exact drawString_draws _ _ _ _ _ _ _

/-- What a command that does not draw ends in. -/
theorem exec_panelCommand (i : Instr) (s t : State) (hi : drawingCommand i = false)
    (h : exec i s = .next t) :
    (i = .init ∧ t = if s.busOk.1 then s.busOk.2.initPanel else s.busOk.2.initFailed)
      ∨ (i = .getWidth ∧ t = s.complete s.width)
      ∨ (i = .getHeight ∧ t = s.complete s.height)
      ∨ (∃ v, i = .setRotation v ∧ t = s.gated (State.setRotation v))
      ∨ (∃ v, i = .invert v ∧ t = s.gated (State.invert v))
      ∨ (∃ a b c d, i = .setWindow a b c d
          ∧ t = s.gated fun u => (u.window a b c d).complete 0) := by
  cases i <;> simp [drawingCommand] at hi <;>
    simp only [exec, execInit, execGetWidth, execGetHeight, execSetRotation, execInvert,
      execSetWindow, Host.Outcome.next.injEq] at h <;>
    subst h
  · exact .inl ⟨rfl, rfl⟩
  · exact .inr (.inr (.inr (.inl ⟨_, rfl, rfl⟩)))
  · exact .inr (.inr (.inr (.inr (.inr ⟨_, _, _, _, rfl, rfl⟩))))
  · exact .inr (.inr (.inr (.inr (.inl ⟨_, rfl, rfl⟩))))
  · exact .inr (.inl ⟨rfl, rfl⟩)
  · exact .inr (.inr (.inl ⟨rfl, rfl⟩))

/-! ### Framing of the trace -/

theorem framedTrace_append (a b : List Event) :
    framedTrace (a ++ b) = (framedTrace a && framedTrace b) := by simp [framedTrace]

theorem framedTrace_of_drawn (seg : List Event) (h : seg.all Event.drawn = true) :
    framedTrace seg = true := by
  simp only [framedTrace, List.all_eq_true] at h ⊢
  intro e he
  have := h e he
  cases e <;> simp_all [Event.drawn]

theorem framedTrace_initEvents (c : Config) : framedTrace (initEvents c) = true := by
  simp only [framedTrace, initEvents, List.all_append, List.all_flatMap, Bool.and_eq_true]
  refine ⟨⟨?_, rfl⟩, ?_⟩
  · simp only [backlightEvents]
    split <;> rfl
  · rw [List.all_eq_true]
    intro e _
    simp only [initEntryEvents]
    split <;> split <;> simp_all

end Sys2Proof.Machine
end

