-- ==== Sys2Proof/Laws/Grants.lean ====
section
/-! SUPPORT. What a list of primitives does to the grant oracle and the latches: how many grants it
asks for, which answers it gets, and what a refused one leaves behind (41_blitter.md R134, R135). -/

namespace Sys2Proof.Machine

open Sys2Proof

/-- From `s` to `t` some grants were asked for, the latch records whether one was refused, and under
ABORT the first refused one was the last one asked for. -/
structure GrantsFrom (s t : State) (k : Nat) : Prop where
  asked : t.grantOracle.asked = s.grantOracle.asked + k
  answers : ∀ j, t.grantOracle.answerAt Config.grantDraw j
    = s.grantOracle.answerAt Config.grantDraw (j + k)
  bufErr : t.bufErr = true ↔
    s.bufErr = true ∨ ∃ j, j < k ∧ s.grantOracle.answerAt Config.grantDraw j = false
  never : s.cfg.bufMayFail = false → k = 0
  policy : s.cfg.bufFailPolicy = .proceed → t.aborted = s.aborted
  aborted : s.cfg.bufFailPolicy = .abort → s.aborted = s.bufErr → t.aborted = t.bufErr
  stopped : s.aborted = true → k = 0 ∧ t.aborted = true
  abort : s.cfg.bufFailPolicy = .abort → s.aborted = s.bufErr → ∀ j, j + 1 < k →
    s.grantOracle.answerAt Config.grantDraw j = true
  last : s.cfg.bufFailPolicy = .abort → s.aborted = s.bufErr → s.bufErr = false →
    t.bufErr = true → t.trace.getLast? = some (.cmd s.cfg.cmdRamwr)

theorem GrantsFrom.refl (s : State) : GrantsFrom s s 0 := by
  refine ⟨rfl, fun _ => rfl, ?_, fun _ => rfl, fun _ => rfl, fun _ h => h, fun h => ⟨rfl, h⟩, ?_, ?_⟩
  · simp
  · intro _ _ j hj
    omega
  · intro _ _ h h'
    simp [h] at h'

/-- Nothing asked for, the latches as they were. -/
theorem GrantsFrom.of_unchanged {s t : State} (h1 : t.grantOracle = s.grantOracle)
    (h2 : t.bufErr = s.bufErr) (h3 : t.aborted = s.aborted) : GrantsFrom s t 0 := by
  refine ⟨by rw [h1]; rfl, fun _ => by rw [h1]; rfl, ?_, fun _ => rfl, fun _ => h3,
    fun _ h => by rw [h3, h2, h], fun h => ⟨rfl, by rw [h3, h]⟩, ?_, ?_⟩
  · simp [h2]
  · intro _ _ j hj
    omega
  · intro _ _ h h'
    simp [h2, h] at h'

theorem GrantsFrom.trans {s t u : State} {k l : Nat} (h : GrantsFrom s t k) (g : GrantsFrom t u l)
    (hc : t.cfg = s.cfg) (hu : t.aborted = true → u = t) : GrantsFrom s u (k + l) := by
  refine ⟨?_, ?_, ?_, ?_, ?_, ?_, ?_, ?_, ?_⟩
  · rw [g.asked, h.asked, Nat.add_assoc]
  · intro j
    rw [g.answers, h.answers, Nat.add_assoc, Nat.add_comm l k]
  · rw [g.bufErr, h.bufErr, or_assoc]
    refine or_congr Iff.rfl ⟨?_, ?_⟩
    · rintro (⟨j, hj, hv⟩ | ⟨j, hj, hv⟩)
      · exact ⟨j, by omega, hv⟩
      · exact ⟨j + k, by omega, by rwa [← h.answers]⟩
    · rintro ⟨j, hj, hv⟩
      rcases Nat.lt_or_ge j k with hjk | hjk
      · exact .inl ⟨j, hjk, hv⟩
      · refine .inr ⟨j - k, by omega, ?_⟩
        rw [h.answers, Nat.sub_add_cancel hjk]
        exact hv
  · intro hb
    rw [h.never hb, g.never (by rw [hc]; exact hb)]
  · intro hp
    rw [g.policy (by rw [hc]; exact hp), h.policy hp]
  · intro hp ha
    exact g.aborted (by rw [hc]; exact hp) (h.aborted hp ha)
  · intro ha
    obtain ⟨hk, ht⟩ := h.stopped ha
    obtain ⟨hl, hu⟩ := g.stopped ht
    exact ⟨by omega, hu⟩
  · intro hp ha j hj
    have hta := h.aborted hp ha
    rcases hte : t.bufErr with _ | _
    · rcases Nat.lt_or_ge j k with hjk | hjk
      · rcases hv : s.grantOracle.answerAt Config.grantDraw j with _ | _
        · rw [h.bufErr.2 (.inr ⟨j, hjk, hv⟩)] at hte
          simp at hte
        · rfl
      · have := g.abort (by rw [hc]; exact hp) hta (j - k) (by omega)
        rwa [h.answers, Nat.sub_add_cancel hjk] at this
    · rw [hte] at hta
      have hl := (g.stopped hta).1
      exact h.abort hp ha j (by omega)
  · intro hp ha hs hue
    rcases hte : t.bufErr with _ | _
    · rw [← hc]
      exact g.last (by rw [hc]; exact hp) (h.aborted hp ha) hte hue
    · have hta := h.aborted hp ha
      rw [hte] at hta
      rw [hu hta]
      exact h.last hp ha hs hte

/-- The last event of a window is the memory-write command (R108). -/
theorem windowEvents_getLast (l : List Event) (c : Config) (co ro : Halfword) (x0 y0 x1 y1 : Int) :
    (l ++ windowEvents c co ro x0 y0 x1 y1).getLast? = some (.cmd c.cmdRamwr) := by
  simp [windowEvents]

theorem fillClipped_grants (r : Rect) (c : Color) (s : State) (ha : s.aborted = false) :
    ∃ k, GrantsFrom s (s.fillClipped r c) k := by
  rcases hb : s.cfg.bufMayFail with _ | _
  · have ha := acquire_fst_of_never (2 * r.w.toNat) s hb
    rw [fillClipped_granted r c s (by rw [ha])]
    exact ⟨0, .of_unchanged (by rw [ha]) rfl rfl⟩
  · have hfst : (s.acquire (2 * r.w.toNat)).1 = s.grantOracle.answerAt Config.grantDraw 0 := by
      rw [acquire_of_may _ _ hb]
      rfl
    have hsnd : (s.acquire (2 * r.w.toNat)).2.grantOracle
        = (s.grantOracle.ask Config.grantDraw).2 := by rw [acquire_of_may _ _ hb]
    refine ⟨1, ?_⟩
    rcases h : (s.acquire (2 * r.w.toNat)).1 with _ | _
    · rw [fillClipped_refused r c s h]
      rw [hfst] at h
      refine ⟨?_, ?_, ?_, ?_, ?_, ?_, ?_, ?_, ?_⟩
      · simp [hsnd, Oracle.ask_asked]
      · intro j
        simp [hsnd, Oracle.ask_answerAt]
      · simp only [true_iff]
        exact .inr ⟨0, by omega, h⟩
      · simp [hb]
      · intro hp
        simp [hp]
      · intro hp _
        simp [hp]
      · intro h'
        simp [ha] at h'
      · intro _ _ j hj
        omega
      · intro _ _ _ _
        exact windowEvents_getLast ..
    · rw [fillClipped_granted r c s h]
      rw [hfst] at h
      refine ⟨?_, ?_, ?_, ?_, ?_, ?_, ?_, ?_, ?_⟩
      · simp [hsnd, Oracle.ask_asked]
      · intro j
        simp [hsnd, Oracle.ask_answerAt]
      · refine ⟨.inl, ?_⟩
        rintro (h' | ⟨j, hj, hv⟩)
        · exact h'
        · obtain rfl : j = 0 := by omega
          simp [h] at hv
      · simp [hb]
      · intro _
        rfl
      · intro _ h'
        exact h'
      · intro h'
        simp [ha] at h'
      · intro _ _ j hj
        omega
      · intro _ _ h1 h2
        simp [h1] at h2

/-- What a refused primitive would send and whether it asks are left alone by drawing. -/
theorem asks_of_drawsFrom {s t : State} (h : DrawsFrom s t) :
    t.asks = s.asks ∧ t.windowAlone = s.windowAlone := by
  obtain ⟨seg, lb, be, ab, go, rfl, -, -⟩ := h
  constructor <;> funext p <;> cases p <;> rfl

/-- Everything one primitive does, by the answer it gets: its events or its window alone, at most one
question, and the latches. -/
theorem runPrim_answered (p : Prim) (s : State) (ha : s.aborted = false) :
    (s.runPrim p).trace
        = s.trace ++ (if s.refusedAt [] 0 p then s.windowAlone p else s.primEvents p)
      ∧ (s.runPrim p).grantOracle.asked = s.grantOracle.asked + (s.asks p).toNat
      ∧ (∀ j, (s.runPrim p).grantOracle.answerAt Config.grantDraw j
          = s.grantOracle.answerAt Config.grantDraw (j + (s.asks p).toNat))
      ∧ (s.runPrim p).bufErr = (s.bufErr || s.refusedAt [] 0 p)
      ∧ (s.runPrim p).aborted
        = (s.refusedAt [] 0 p && decide (s.cfg.bufFailPolicy = .abort)) := by
  cases p with
  | pixel x y c =>
    simp only [State.runPrim, State.refusedAt, State.asks, State.primEvents]
    rcases hs : s.onScreen x y with _ | _
    · rw [pixel_offScreen x y c s hs]
      simp [ha]
    · rw [pixel_onScreen x y c s ha hs]
      simp [ha, windowEvents_eq_calls, colorBytes_eq_wire]
  | fill x y w h c =>
    simp only [State.runPrim, State.fill, ha, State.refusedAt, State.asks, State.primEvents,
      State.asked, List.take_nil, List.countP_nil, State.windowAlone]
    rw [if_neg (by simp)]
    cases hc : s.clip x y w h with
    | none => simp [ha]
    | some r =>
      have hr : s.screenPart x y w h = r := by
        by_cases hs : s.sees x y w h
        · rw [clip_eq_screenPart s x y w h hs] at hc
          simpa using hc
        · rw [clip_eq_none s x y w h hs] at hc
          simp at hc
      rcases hb : s.cfg.bufMayFail with _ | _
      · have e := acquire_fst_of_never (2 * r.w.toNat) s hb
        simp only [fillClipped_granted r c s (by rw [e]), e]
        simp [ha, State.fillCalls, State.rectWindow, windowEvents_eq_calls, fillLine_eq_wire]
      · have e := acquire_of_may (2 * r.w.toNat) s hb
        rcases hg : s.nextGrant with _ | _
        · have hg' : s.grantOracle.answerAt Config.grantDraw 0 = false := hg
          simp only [fillClipped_refused r c s (by rw [e, hg]), e]
          simp [ha, hg', hr, State.rectWindow, windowEvents_eq_calls, Oracle.ask_asked,
            Oracle.ask_answerAt]
        · have hg' : s.grantOracle.answerAt Config.grantDraw 0 = true := hg
          simp only [fillClipped_granted r c s (by rw [e, hg]), e]
          simp [ha, hg', State.fillCalls, State.rectWindow, windowEvents_eq_calls, fillLine_eq_wire,
            Oracle.ask_asked, Oracle.ask_answerAt]

theorem runPrim_grants (p : Prim) (s : State) : ∃ k, GrantsFrom s (s.runPrim p) k := by
  rcases ha : s.aborted with _ | _
  · cases p with
    | fill x y w h c =>
      simp only [State.runPrim, State.fill, ha]
      rw [if_neg (by simp)]
      split
      · exact ⟨0, .refl s⟩
      · exact fillClipped_grants _ _ _ ha
    | pixel x y c =>
      refine ⟨0, ?_⟩
      simp only [State.runPrim]
      rcases hs : s.onScreen x y with _ | _
      · rw [pixel_offScreen x y c s hs]
        exact .refl s
      · rw [pixel_onScreen x y c s ha hs]
        exact .of_unchanged rfl rfl rfl
  · rw [runPrim_aborted p s ha]
    exact ⟨0, .refl s⟩

theorem runPrims_grants (ps : List Prim) (s : State) : ∃ k, GrantsFrom s (s.runPrims ps) k := by
  induction ps generalizing s with
  | nil => exact ⟨0, .refl s⟩
  | cons p ps ih =>
    obtain ⟨k, hk⟩ := runPrim_grants p s
    obtain ⟨l, hl⟩ := ih (s.runPrim p)
    refine ⟨k + l, hk.trans hl ?_ fun ha => runPrims_aborted ps _ ha⟩
    obtain ⟨seg, lb, be, ab, go, h, -, -⟩ := runPrim_drawsFrom p s
    rw [h]

/-- Primitives that never fill ask for no grant and refuse none. -/
theorem runPrims_pixels (ps : List Prim) (s : State)
    (h : ∀ p ∈ ps, ∃ x y c, p = .pixel x y c) (ha : s.aborted = false) :
    s.runPrims ps = { s with trace := s.trace ++ ps.flatMap s.primEvents } := by
  induction ps generalizing s with
  | nil => simp [State.runPrims]
  | cons p ps ih =>
    obtain ⟨x, y, c, rfl⟩ := h p (by simp)
    have hps : ∀ q ∈ ps, ∃ x y c, q = .pixel x y c := fun q hq => h q (by simp [hq])
    have h1 : s.runPrim (.pixel x y c)
        = { s with trace := s.trace ++ s.primEvents (.pixel x y c) } := by
      simp only [State.runPrim, State.primEvents]
      rcases hs : s.onScreen x y with _ | _
      · simp [pixel_offScreen x y c s hs]
      · rw [pixel_onScreen x y c s ha hs]
        simp [windowEvents_eq_calls, colorBytes_eq_wire]
    have h2 : State.primEvents { s with trace := s.trace ++ s.primEvents (.pixel x y c) }
        = s.primEvents := by
      funext q
      cases q <;> rfl
    rw [runPrims_cons, h1, ih _ hps (by simpa using ha), h2]
    simp

/-- A drawing command made of pixels appends the events of the on-screen ones in order, asks for no
grant and reports OK (R138). -/
theorem draw_pixels (ps : List Prim) (s : State) (h : ∀ p ∈ ps, ∃ x y c, p = .pixel x y c) :
    s.draw ps =
      { s with
        trace := s.trace ++ ps.flatMap s.primEvents
        bufErr := false, aborted := false, lastStatus := Status.ok.code, lastValue := 0 } := by
  rw [State.draw, runPrims_pixels ps _ h rfl, finishDraw_of]
  have h2 : s.beginDraw.primEvents = s.primEvents := by
    funext q
    cases q <;> rfl
  rw [h2]
  simp [State.beginDraw]

end Sys2Proof.Machine
end

