-- ==== Sys2Proof/Laws/Independence.lean ====
section
/-! SUPPORT. What the primitives do not depend on: `INV` and host operand memory (20_memory.md R50,
40_panel.md R112). -/

namespace Sys2Proof.Machine

open Sys2Proof

/-- A state with another inversion state and another host operand memory. -/
def State.other (b : Bool) (m : Memory) (s : State) : State := { s with inv := b, hostMem := m }

theorem acquire_other (b : Bool) (m : Memory) (n : Nat) (s : State) :
    (s.other b m).acquire n = ((s.acquire n).1, (s.acquire n).2.other b m) := by
  rcases h : s.cfg.bufMayFail with _ | _ <;> simp [State.acquire, State.other, h]

theorem emitLines_other (b : Bool) (m : Memory) (n : Nat) (s : State) :
    (s.other b m).emitLines n = (s.emitLines n).other b m := by
  induction n generalizing s with
  | zero => rfl
  | succ n ih => exact ih s.emitLine

theorem window_other (b : Bool) (m : Memory) (x0 y0 x1 y1 : Int) (s : State) :
    (s.other b m).window x0 y0 x1 y1 = (s.window x0 y0 x1 y1).other b m := by
  simp [window_eq, State.other]

theorem setLine_other (b : Bool) (m : Memory) (l : List Byte) (s : State) :
    (s.other b m).setLine l = (s.setLine l).other b m := rfl

theorem releaseLine_other (b : Bool) (m : Memory) (s : State) :
    (s.other b m).releaseLine = s.releaseLine.other b m := rfl

theorem refuseGrant_other (b : Bool) (m : Memory) (s : State) :
    (s.other b m).refuseGrant = s.refuseGrant.other b m := rfl

theorem fillClipped_other (b : Bool) (m : Memory) (r : Rect) (c : Color) (s : State) :
    (s.other b m).fillClipped r c = (s.fillClipped r c).other b m := by
  simp only [State.fillClipped, window_other, acquire_other, setLine_other, emitLines_other,
    releaseLine_other, refuseGrant_other]
  exact (apply_ite (State.other b m) _ _ _).symm

theorem runPrim_other (b : Bool) (m : Memory) (p : Prim) (s : State) :
    (s.other b m).runPrim p = (s.runPrim p).other b m := by
  rcases ha : s.aborted with _ | _
  · have ha' : (s.other b m).aborted = false := ha
    cases p with
    | fill x y w h c =>
      have hc : (s.other b m).clip x y w h = s.clip x y w h := rfl
      rcases hr : s.clip x y w h with _ | r <;>
        simp [State.runPrim, State.fill, ha, ha', hc, hr, fillClipped_other]
    | pixel x y c =>
      have hc : (s.other b m).onScreen x y = s.onScreen x y := rfl
      rcases hs : s.onScreen x y with _ | _
      · simp [State.runPrim, State.pixel, ha, ha', hc, hs]
      · simp only [State.runPrim]
        rw [pixel_onScreen x y c _ ha' (by rw [hc, hs]), pixel_onScreen x y c s ha hs]
        rfl
  · rw [runPrim_aborted p s ha, runPrim_aborted p (s.other b m) ha]

theorem runPrims_other (b : Bool) (m : Memory) (ps : List Prim) (s : State) :
    (s.other b m).runPrims ps = (s.runPrims ps).other b m := by
  induction ps generalizing s with
  | nil => rfl
  | cons p ps ih => rw [runPrims_cons, runPrim_other, ih, runPrims_cons]

/-- What a drawing command made of primitives does depends on neither. -/
theorem draw_other (b : Bool) (m : Memory) (ps : List Prim) (s : State) :
    (s.other b m).draw ps = (s.draw ps).other b m := by
  have h : (s.other b m).beginDraw = s.beginDraw.other b m := rfl
  rw [State.draw, h, runPrims_other, State.draw, finishDraw_of, finishDraw_of]
  rfl

end Sys2Proof.Machine
end

