-- ==== Sys2Proof/Laws/Invariant.lean ====
section
/-! SUPPORT. What the shared operations do to the invariant of a state between two commands, and the
line levels as the trace records them. -/

namespace Sys2Proof.Machine

open Sys2Proof

/-! ### The line levels -/

/-- Where a trace leaves the reset line: at the last level driven, else where it was (R32). -/
theorem foldl_resetLevel (es : List Event) (l : Option Bool) :
    es.foldl (fun l e => e.resetLevel l) l = (resetLevels es).getLast?.or l := by
  induction es generalizing l with
  | nil => rfl
  | cons e es ih =>
    simp only [List.foldl_cons, ih]
    cases e <;> simp [Event.resetLevel, resetLevels, List.getLast?_cons]

/-- Where a trace leaves the backlight line (R32). -/
theorem foldl_backlightLevel (es : List Event) (l : Option Bool) :
    es.foldl (fun l e => e.backlightLevel l) l = (backlightLevels es).getLast?.or l := by
  induction es generalizing l with
  | nil => rfl
  | cons e es ih =>
    simp only [List.foldl_cons, ih]
    cases e <;> simp [Event.backlightLevel, backlightLevels, List.getLast?_cons]

theorem resetLevels_append (a b : List Event) :
    resetLevels (a ++ b) = resetLevels a ++ resetLevels b := by simp [resetLevels]

theorem backlightLevels_append (a b : List Event) :
    backlightLevels (a ++ b) = backlightLevels a ++ backlightLevels b := by simp [backlightLevels]

theorem resetLevels_of_drawn (es : List Event) (h : es.all Event.drawn = true) :
    resetLevels es = [] := by
  simp only [resetLevels, List.filterMap_eq_nil_iff]
  intro e he
  have := List.all_eq_true.1 h e he
  cases e <;> simp_all [Event.drawn]

theorem backlightLevels_of_drawn (es : List Event) (h : es.all Event.drawn = true) :
    backlightLevels es = [] := by
  simp only [backlightLevels, List.filterMap_eq_nil_iff]
  intro e he
  have := List.all_eq_true.1 h e he
  cases e <;> simp_all [Event.drawn]

/-- INIT leaves the panel out of reset (R100). -/
theorem resetLevels_initEvents (c : Config) : (resetLevels (initEvents c)).getLast? = some true := by
  have h1 : resetLevels (c.initSeq.flatMap initEntryEvents) = [] := by
    simp only [resetLevels, List.filterMap_flatMap, List.flatMap_eq_nil_iff]
    intro e _
    simp only [initEntryEvents]
    split <;> split <;> rfl
  have h2 : resetLevels (resetPulse c) = [true, false, true] := rfl
  simp [initEvents, resetLevels_append, h1, h2]

/-! ### The invariant -/

theorem Status.code_le (st : Status) : st.code.toNat ≤ 6 := by cases st <;> decide

/-- The record of the offsets stays right while the trace grows. -/
theorem State.offsetsLogged.grow {s t : State} (h : s.offsetsLogged) (seg : List Event)
    (ht : t.trace = s.trace ++ seg) (hl : t.offsetLog = s.offsetLog) (hc : t.colOff = s.colOff)
    (hr : t.rowOff = s.rowOff) : t.offsetsLogged := by
  refine ⟨by rw [hl, hc, hr]; exact h.1, by rw [hl]; exact h.2.1, fun e he => ?_⟩
  rw [hl] at he
  have := h.2.2 e he
  rw [ht, List.length_append]
  omega

/-- Loading a tuple keeps the record of the offsets right. -/
theorem State.offsetsLogged.loadTuple {s : State} (h : s.offsetsLogged) (r : Fin 4) :
    (s.loadTuple r).offsetsLogged := by
  obtain ⟨-, h2, h3⟩ := h
  refine ⟨rfl, ?_, fun e he => ?_⟩
  · rcases hl : s.offsetLog with _ | ⟨e, l⟩
    · simp [hl] at h2
    · simpa [hl] using h2
  · rcases List.mem_cons.1 he with rfl | he
    · exact le_rfl
    · exact h3 e he

theorem State.Inv.draws {s t : State} (hi : s.Inv) (hd : Draws s t) : t.Inv := by
  obtain ⟨seg, lb, go, st, rfl, hs, hl⟩ := hd
  refine ⟨hi.params, hi.tuple, hi.offsets.grow seg rfl rfl rfl rfl, hi.memory, hi.memoryRange, ?_, ?_,
    ?_, hi.outOfReset, ⟨rfl, rfl⟩, hl hi.released, Status.code_le st, fun _ => rfl, hi.panelMemory⟩
  · simp [framedTrace_append, hi.framed, framedTrace_of_drawn seg hs]
  · simp [resetLevels_append, resetLevels_of_drawn seg hs, hi.resetLine]
  · simp [backlightLevels_append, backlightLevels_of_drawn seg hs, hi.backlightLine]

theorem State.Inv.record {s : State} (hi : s.Inv) (st : Status) (v : Halfword) (h : st = .ok ∨ v = 0) :
    (s.record st v).Inv := by
  refine ⟨hi.params, hi.tuple, hi.offsets, hi.memory, hi.memoryRange, hi.framed, hi.resetLine,
    hi.backlightLine, hi.outOfReset, hi.latches, hi.released, Status.code_le st, ?_,
    hi.panelMemory⟩
  intro hne
  rcases h with rfl | rfl
  · exact absurd rfl hne
  · rfl

theorem State.Inv.takeInput {s : State} (hi : s.Inv) (l : List HostInput) :
    State.Inv { s with inputs := l } :=
  ⟨hi.params, hi.tuple, hi.offsets, hi.memory, hi.memoryRange, hi.framed, hi.resetLine, hi.backlightLine,
    hi.outOfReset, hi.latches, hi.released, hi.status, hi.errorValue, hi.panelMemory⟩

/-- Emitting keeps the levels those the trace records. -/
theorem emitAll_levels (es : List Event) (s : State)
    (h1 : s.rstLvl = (resetLevels s.trace).getLast?)
    (h2 : s.blLvl = (backlightLevels s.trace).getLast?) :
    (s.emitAll es).rstLvl = (resetLevels (s.emitAll es).trace).getLast?
      ∧ (s.emitAll es).blLvl = (backlightLevels (s.emitAll es).trace).getLast? := by
  simp [foldl_resetLevel, foldl_backlightLevel, resetLevels_append, backlightLevels_append, h1, h2,
    List.getLast?_append]

theorem State.Inv.emitAll {s : State} (hi : s.Inv) (es : List Event) (hf : framedTrace es = true)
    (hr : resetLevels es = []) : (s.emitAll es).Inv := by
  have hl := emitAll_levels es s hi.resetLine hi.backlightLine
  refine ⟨?_, ?_, ?_, ?_, ?_, ?_, hl.1, hl.2, ?_, ?_, ?_, ?_, ?_, ?_⟩
  · simpa using hi.params
  · simpa [State.tuple] using hi.tuple
  · exact hi.offsets.grow es (by simp) (by simp) (by simp) (by simp)
  · simpa using hi.memory
  · simpa using hi.memoryRange
  · simp [framedTrace_append, hi.framed, hf]
  · simpa [foldl_resetLevel, hr] using hi.outOfReset
  · simpa using hi.latches
  · simpa using hi.released
  · simpa using hi.status
  · simpa using hi.errorValue
  · simpa using hi.panelMemory

theorem State.Inv.gated {s : State} (hi : s.Inv) (body : State → State)
    (hb : s.initDone = true → (body s).Inv) : (s.gated body).Inv := by
  simp only [State.gated]
  split
  · exact hb ‹_›
  · exact hi.record _ _ (.inr rfl)

end Sys2Proof.Machine
end

