-- ==== Sys2Proof/Laws/Memory.lean ====
section
/-! SUPPORT. Sorted cells and host operand memory: a read after a write, every other address left
alone, and the canonical form kept. -/

namespace Sys2Proof.Machine

open Sys2Proof

variable {α : Type}

theorem risingCells_nil : risingCells ([] : List (Nat × α)) = true := by simp [risingCells]

theorem risingCells_cons (b : Nat) (u : α) (l : List (Nat × α)) :
    risingCells ((b, u) :: l) = true ↔ (∀ c ∈ l, b < c.1) ∧ risingCells l = true := by
  simp only [risingCells, List.map_cons, List.pairwise_cons, decide_eq_true_eq]
  exact and_congr_left' (by simp)

/-! ### Reading cells -/

theorem findCell_eq_none_of_lt (l : List (Nat × α)) (a : Nat) (h : ∀ c ∈ l, a < c.1) :
    findCell l a = none := by
  induction l with
  | nil => rfl
  | cons c l ih =>
    obtain ⟨b, u⟩ := c
    have hb : a < b := h (b, u) (by simp)
    simp only [findCell, if_neg (by omega : b ≠ a)]
    exact ih fun c hc => h c (by simp [hc])

theorem findCell_putCell_same (l : List (Nat × α)) (a : Nat) (v : α) :
    findCell (putCell l a v) a = some v := by
  induction l with
  | nil => simp [putCell, findCell]
  | cons c l ih =>
    obtain ⟨b, u⟩ := c
    simp only [putCell]
    split
    · simp [findCell]
    · split
      · simp [findCell]
      · simp only [findCell, if_neg (by omega : b ≠ a)]
        exact ih

theorem findCell_putCell_other (l : List (Nat × α)) (a b : Nat) (v : α) (h : b ≠ a) :
    findCell (putCell l a v) b = findCell l b := by
  induction l with
  | nil => simp [putCell, findCell, h.symm]
  | cons c l ih =>
    obtain ⟨d, u⟩ := c
    simp only [putCell]
    split
    · simp [findCell, h.symm]
    · split
      · rename_i h1
        subst h1
        simp [findCell, h.symm]
      · simp only [findCell, ih]

theorem findCell_dropCell_same (l : List (Nat × α)) (a : Nat) (h : risingCells l = true) :
    findCell (dropCell l a) a = none := by
  induction l with
  | nil => rfl
  | cons c l ih =>
    obtain ⟨b, u⟩ := c
    rw [risingCells_cons] at h
    simp only [dropCell]
    split
    · rename_i h1
      exact findCell_eq_none_of_lt l a (by subst h1; exact h.1)
    · rename_i h1
      simp only [findCell, if_neg h1]
      exact ih h.2

theorem findCell_dropCell_other (l : List (Nat × α)) (a b : Nat) (h : b ≠ a) :
    findCell (dropCell l a) b = findCell l b := by
  induction l with
  | nil => rfl
  | cons c l ih =>
    obtain ⟨d, u⟩ := c
    simp only [dropCell]
    split
    · rename_i h1
      subst h1
      simp [findCell, h.symm]
    · simp only [findCell, ih]

/-! ### Keeping the keys rising -/

theorem mem_putCell (l : List (Nat × α)) (a : Nat) (v : α) (c : Nat × α)
    (h : c ∈ putCell l a v) : c = (a, v) ∨ c ∈ l := by
  induction l with
  | nil => simpa [putCell] using h
  | cons d l ih =>
    obtain ⟨b, u⟩ := d
    simp only [putCell] at h
    split at h
    · simpa using h
    · split at h
      · simp only [List.mem_cons] at h ⊢
        exact h.imp_right Or.inr
      · simp only [List.mem_cons] at h ⊢
        rcases h with h | h
        · exact .inr (.inl h)
        · exact (ih h).imp_right Or.inr

theorem mem_dropCell (l : List (Nat × α)) (a : Nat) (c : Nat × α) (h : c ∈ dropCell l a) :
    c ∈ l := by
  induction l with
  | nil => exact h
  | cons d l ih =>
    obtain ⟨b, u⟩ := d
    simp only [dropCell] at h
    split at h
    · exact List.mem_cons_of_mem _ h
    · simp only [List.mem_cons] at h ⊢
      exact h.imp_right ih

theorem risingCells_putCell (l : List (Nat × α)) (a : Nat) (v : α) (h : risingCells l = true) :
    risingCells (putCell l a v) = true := by
  induction l with
  | nil => simp [putCell, risingCells]
  | cons d l ih =>
    obtain ⟨b, u⟩ := d
    have h' := (risingCells_cons b u l).1 h
    simp only [putCell]
    split
    · rename_i hab
      refine (risingCells_cons ..).2 ⟨?_, h⟩
      intro c hc
      simp only [List.mem_cons] at hc
      rcases hc with rfl | hc
      · exact hab
      · exact lt_trans hab (h'.1 c hc)
    · split
      · rename_i hab
        subst hab
        exact (risingCells_cons ..).2 h'
      · rename_i hab hne
        refine (risingCells_cons ..).2 ⟨?_, ih h'.2⟩
        intro c hc
        rcases mem_putCell l a v c hc with rfl | hc
        · show b < a
          omega
        · exact h'.1 c hc

theorem risingCells_dropCell (l : List (Nat × α)) (a : Nat) (h : risingCells l = true) :
    risingCells (dropCell l a) = true := by
  induction l with
  | nil => simpa [dropCell] using h
  | cons d l ih =>
    obtain ⟨b, u⟩ := d
    have h' := (risingCells_cons b u l).1 h
    simp only [dropCell]
    split
    · exact h'.2
    · exact (risingCells_cons ..).2 ⟨fun c hc => h'.1 c (mem_dropCell l a c hc), ih h'.2⟩

/-! ### Host operand memory -/

theorem Memory.rising_of_wf (m : Memory) (h : m.wf = true) : risingCells m = true := by
  simp only [Memory.wf, Bool.and_eq_true] at h
  exact h.1

/-- A read after a write gives the byte written. -/
theorem Memory.read_write_same (m : Memory) (a : Nat) (v : Byte) (h : m.wf = true) :
    (m.write a v).read a = v := by
  simp only [Memory.write, Memory.read]
  split
  · rename_i hv
    rw [findCell_dropCell_same m a (Memory.rising_of_wf m h)]
    exact hv.symm
  · rw [findCell_putCell_same]
    rfl

/-- A write leaves every other address alone. -/
theorem Memory.read_write_other (m : Memory) (a b : Nat) (v : Byte) (h : b ≠ a) :
    (m.write a v).read b = m.read b := by
  simp only [Memory.write, Memory.read]
  split
  · rw [findCell_dropCell_other m a b h]
  · rw [findCell_putCell_other m a b v h]

/-- A write keeps the canonical form. -/
theorem Memory.wf_write (m : Memory) (a : Nat) (v : Byte) (h : m.wf = true) :
    (m.write a v).wf = true := by
  have hr := Memory.rising_of_wf m h
  simp only [Memory.wf, Bool.and_eq_true, List.all_eq_true] at h
  simp only [Memory.wf, Bool.and_eq_true, List.all_eq_true, Memory.write]
  split
  · exact ⟨risingCells_dropCell m a hr, fun c hc => h.2 c (mem_dropCell m a c hc)⟩
  · rename_i hv
    refine ⟨risingCells_putCell m a v hr, fun c hc => ?_⟩
    rcases mem_putCell m a v c hc with rfl | hc
    · simpa using hv
    · exact h.2 c hc

/-- A write at an existing address keeps memory inside its size. -/
theorem Memory.within_write (m : Memory) (a size : Nat) (v : Byte) (h : m.within size = true)
    (ha : a < size) : (m.write a v).within size = true := by
  simp only [Memory.within, List.all_eq_true, decide_eq_true_eq] at h ⊢
  intro c hc
  simp only [Memory.write] at hc
  split at hc
  · exact h c (mem_dropCell m a c hc)
  · rcases mem_putCell m a v c hc with rfl | hc
    · exact ha
    · exact h c hc

theorem Memory.wf_nil : Memory.wf [] = true := by simp [Memory.wf, risingCells]

end Sys2Proof.Machine
end

