-- ==== Sys2Proof/Laws/PerInstr.lean ====
section
/-! SUPPORT. One statement about every command as syntax, one lemma per constructor: its packet begins
with its opcode, its header is otherwise zero, it has the length of its format, and its operands alone
decide what the decoder reads from it (30_encoding.md R81, R85, R86). -/

namespace Sys2Proof.Laws.EncodedHeader

open Sys2Proof

/-- The opcode map holds a row of the command, and its packet is that row's header followed by the
operand halfwords the row's format counts. -/
def Statement (i : Instr) : Prop :=
  ∃ row ∈ opcodeMap, row.op = i.opcode
    ∧ (encode i).head? = some (packBytes 0 row.byte)
    ∧ (encode i).length = row.format.length
    ∧ decode (encode i) = decodeOperands row.op (encode i).tail

theorem init : Statement .init :=
  ⟨⟨.init, 0x01, .n⟩, by decide, rfl, rfl, rfl, rfl⟩

theorem setRotation (val : Nat) : Statement (.setRotation val) :=
  ⟨⟨.setRotation, 0x02, .v⟩, by decide, rfl, rfl, rfl, rfl⟩

theorem setWindow (x0 y0 x1 y1 : Int) : Statement (.setWindow x0 y0 x1 y1) :=
  ⟨⟨.setWindow, 0x03, .win⟩, by decide, rfl, rfl, rfl, rfl⟩

theorem invert (on : Nat) : Statement (.invert on) :=
  ⟨⟨.invert, 0x04, .v⟩, by decide, rfl, rfl, rfl, rfl⟩

theorem getWidth : Statement .getWidth :=
  ⟨⟨.getWidth, 0x05, .n⟩, by decide, rfl, rfl, rfl, rfl⟩

theorem getHeight : Statement .getHeight :=
  ⟨⟨.getHeight, 0x06, .n⟩, by decide, rfl, rfl, rfl, rfl⟩

theorem fillRect (x y w h : Int) (color : Color) : Statement (.fillRect x y w h color) :=
  ⟨⟨.fillRect, 0x10, .q5⟩, by decide, rfl, rfl, rfl, rfl⟩

theorem drawPixel (x y : Int) (color : Color) : Statement (.drawPixel x y color) :=
  ⟨⟨.drawPixel, 0x11, .pix⟩, by decide, rfl, rfl, rfl, rfl⟩

theorem drawImage (x y w h : Int) (addr : Nat) : Statement (.drawImage x y w h addr) :=
  ⟨⟨.drawImage, 0x12, .img⟩, by decide, rfl, rfl, rfl, rfl⟩

theorem line (x0 y0 x1 y1 : Int) (color : Color) : Statement (.line x0 y0 x1 y1 color) :=
  ⟨⟨.line, 0x20, .q5⟩, by decide, rfl, rfl, rfl, rfl⟩

theorem rect (x y w h : Int) (color : Color) : Statement (.rect x y w h color) :=
  ⟨⟨.rect, 0x21, .q5⟩, by decide, rfl, rfl, rfl, rfl⟩

theorem filledRect (x y w h : Int) (color : Color) : Statement (.filledRect x y w h color) :=
  ⟨⟨.filledRect, 0x22, .q5⟩, by decide, rfl, rfl, rfl, rfl⟩

theorem circle (x0 y0 r : Int) (color : Color) : Statement (.circle x0 y0 r color) :=
  ⟨⟨.circle, 0x23, .cir⟩, by decide, rfl, rfl, rfl, rfl⟩

theorem filledCircle (x0 y0 r : Int) (color : Color) : Statement (.filledCircle x0 y0 r color) :=
  ⟨⟨.filledCircle, 0x24, .cir⟩, by decide, rfl, rfl, rfl, rfl⟩

theorem drawChar (x y : Int) (scale code : Nat) (fg bg : Color) :
    Statement (.drawChar x y scale code fg bg) :=
  ⟨⟨.drawChar, 0x30, .chr⟩, by decide, rfl, rfl, rfl, rfl⟩

theorem drawString (x y : Int) (scale : Nat) (fg bg : Color) (addr : Nat) :
    Statement (.drawString x y scale fg bg addr) :=
  ⟨⟨.drawString, 0x31, .str⟩, by decide, rfl, rfl, rfl, rfl⟩

end Sys2Proof.Laws.EncodedHeader
end

