-- ==== Sys2Proof/Laws/RefPanel.lean ====
section
/-! SUPPORT. What the reference panel does with a trace: its memory stays sorted, a window command sets
its registers, a stream of colour bytes fills the window row by row, and the logical pixel writes of a
trace grow by those of the events appended. -/

namespace Sys2Proof.Machine

open Sys2Proof

/-! ### Panel memory stays sorted -/

theorem advance_gram (p : Panel) : p.advance.gram = p.gram := by
  simp only [Panel.advance]
  split <;> rfl

theorem writeGram_rising (c : Config) (col row : Int) (v : Color) (p : Panel)
    (h : risingCells p.gram = true) : risingCells (p.writeGram c col row v).gram = true := by
  simp only [Panel.writeGram]
  split
  · exact risingCells_putCell _ _ _ h
  · exact h

theorem panelPixel_rising (c : Config) (v : Color) (p : Panel) (h : risingCells p.gram = true) :
    risingCells (Panel.pixel c v p).gram = true := by
  simp only [Panel.pixel, advance_gram]
  split
  · exact writeGram_rising c _ _ _ _ h
  · exact writeGram_rising c _ _ _ _ h

theorem paramByte_gram (b : Byte) (p : Panel) : (p.paramByte b).gram = p.gram := by
  simp only [Panel.paramByte, Panel.latch]
  split
  · split
    · split <;> rfl
    · rfl
  · rfl

theorem dataByte_rising (c : Config) (p : Panel) (b : Byte) (h : risingCells p.gram = true) :
    risingCells (p.dataByte c b).gram = true := by
  simp only [Panel.dataByte]
  split
  · rwa [paramByte_gram]
  · rwa [paramByte_gram]
  · simp only [Panel.writeByte]
    split
    · exact h
    · exact panelPixel_rising c _ _ h
  · exact h
  · exact h

theorem command_gram (c : Config) (b : Byte) (p : Panel) : (p.command c b).gram = p.gram := by
  have h : p.endParams.gram = p.gram := by
    simp only [Panel.endParams]
    split
    · split <;> rfl
    · rfl
  simp only [Panel.command]
  split
  · exact h
  · split
    · exact h
    · split <;> exact h

theorem event_rising (c : Config) (e : Event) (p : Panel) (h : risingCells p.gram = true) :
    risingCells (p.event c e).gram = true := by
  cases e with
  | cmd b => rwa [Panel.event, command_gram]
  | data l =>
    simp only [Panel.event]
    induction l generalizing p with
    | nil => exact h
    | cons b l ih => exact ih _ (dataByte_rising c p b h)
  | rst _ => exact h
  | delay _ => exact h
  | bl _ => exact h

theorem observe_rising (c : Config) (tr : List Event) (p : Panel) (h : risingCells p.gram = true) :
    risingCells (p.observe c tr).gram = true := by
  simp only [Panel.observe]
  induction tr generalizing p with
  | nil => exact h
  | cons e tr ih => exact ih _ (event_rising c e p h)

/-! ### Windows and pixel streams -/

theorem observe_append (c : Config) (a b : List Event) (p : Panel) :
    p.observe c (a ++ b) = (p.observe c a).observe c b := by
  simp [Panel.observe, List.foldl_append]

/-- The panel waits for pixels of a window with these corners (R62, R64), its pointer at a place. -/
structure Panel.Waiting (p : Panel) (x0 y0 x1 y1 : Halfword) (col row : Int) : Prop where
  mode : p.mode = .write
  pending : p.pending = none
  pxs : p.pxs = x0
  pxe : p.pxe = x1
  pys : p.pys = y0
  pye : p.pye = y1
  pc : p.pc = col
  pr : p.pr = row

theorem endParams_same (p : Panel) :
    p.endParams.writes = p.writes ∧ p.endParams.mode = p.mode ∧ p.endParams.params = p.params := by
  simp only [Panel.endParams]
  split
  · split <;> exact ⟨rfl, by simp_all, rfl⟩
  · exact ⟨rfl, rfl, rfl⟩

/-- The window of R108 leaves the panel waiting at its first pixel; nothing is written. -/
theorem observe_window (c : Config) (hc : windowOpcodesDistinct c) (co ro : Halfword)
    (x0 y0 x1 y1 : Int) (p : Panel) :
    (p.observe c (windowEvents c co ro x0 y0 x1 y1)).Waiting
        (BitVec.ofInt 16 (x0 + co.toNat)) (BitVec.ofInt 16 (y0 + ro.toNat))
        (BitVec.ofInt 16 (x1 + co.toNat)) (BitVec.ofInt 16 (y1 + ro.toNat))
        (BitVec.ofInt 16 (x0 + co.toNat)).toNat (BitVec.ofInt 16 (y0 + ro.toNat)).toNat
      ∧ (p.observe c (windowEvents c co ro x0 y0 x1 y1)).writes = p.writes := by
  obtain ⟨h1, h2, h3⟩ := hc
  have e1 := endParams_same p
  have key : ∀ v : Int, packBytes (hiByte (BitVec.ofInt 16 v)) (loByte (BitVec.ofInt 16 v))
      = BitVec.ofInt 16 v := fun v => packBytes_halves _
  simp only [windowEvents, Panel.observe, List.foldl_cons, List.foldl_nil, Panel.event,
    Panel.command, be16, colorBytes, List.cons_append, List.nil_append, if_true,
    if_neg (Ne.symm h1), if_neg (Ne.symm h2), if_neg (Ne.symm h3)]
  simp only [Panel.dataByte, Panel.paramByte, Panel.latch, Panel.endParams, List.length_nil,
    List.length_cons, List.nil_append, List.cons_append, Nat.reduceAdd, Nat.reduceLT, if_true,
    if_false, reduceCtorEq, key]
  exact ⟨⟨rfl, rfl, rfl, rfl, rfl, rfl, rfl, rfl⟩, e1.1⟩

theorem plot_eq (c : Config) (v : Color) (p : Panel) :
    ∃ g, p.plot c v = { p with gram := g, writes := p.writes ++ [⟨p.pc, p.pr, v⟩] } := by
  simp only [Panel.plot, Panel.writeGram]
  split
  · exact ⟨_, rfl⟩
  · exact ⟨p.gram, rfl⟩

/-- One pixel inside the window is written where the pointer stands, and the pointer moves on (R64). -/
theorem dataBytes_pixel (c : Config) (v : Color) (p : Panel) (x0 y0 x1 y1 : Halfword)
    (col row : Int) (h : p.Waiting x0 y0 x1 y1 col row) (hx : x0.toNat ≤ x1.toNat)
    (hy : y0.toNat ≤ y1.toNat) (hr : row ≤ y1.toNat) :
    ((colorBytes v).foldl (Panel.dataByte c) p).Waiting x0 y0 x1 y1
        (if col + 1 > x1.toNat then x0.toNat else col + 1)
        (if col + 1 > x1.toNat then row + 1 else row)
      ∧ ((colorBytes v).foldl (Panel.dataByte c) p).writes = p.writes ++ [⟨col, row, v⟩] := by
  obtain ⟨h1, h2, rfl, rfl, rfl, rfl, rfl, rfl⟩ := h
  have hi : p.inverted = false := by
    simp only [Panel.inverted, Bool.or_eq_false_iff, decide_eq_false_iff_not, BitVec.lt_def]
    omega
  have e : (colorBytes v).foldl (Panel.dataByte c) p
      = ({ p with pending := none } : Panel).pixel c v := by
    simp [colorBytes, Panel.dataByte, h1, Panel.writeByte, h2, packBytes_halves]
  have hi' : ({ p with pending := none } : Panel).inverted = false := hi
  have f : ({ p with pending := none } : Panel).pixel c v
      = (({ p with pending := none } : Panel).plot c v).advance := by
    rw [Panel.pixel, if_pos ⟨hr, by simp [hi']⟩]
  obtain ⟨g, hg⟩ := plot_eq c v { p with pending := none }
  rw [e, f, hg, Panel.advance]
  split
  · exact ⟨⟨h1, rfl, rfl, rfl, rfl, rfl, rfl, rfl⟩, rfl⟩
  · exact ⟨⟨h1, rfl, rfl, rfl, rfl, rfl, rfl, rfl⟩, rfl⟩

/-- The panel writes of one scanline of colours starting at a place. -/
def scanWrites : List Color → Int → Int → List PanelWrite
  | [], _, _ => []
  | v :: vs, col, row => ⟨col, row, v⟩ :: scanWrites vs (col + 1) row

/-- A scanline that fills the rest of a row is written there, and the pointer moves to the next row. -/
theorem dataBytes_scanline (c : Config) (vs : List Color) (p : Panel) (x0 y0 x1 y1 : Halfword)
    (col row : Int) (h : p.Waiting x0 y0 x1 y1 col row) (hx : x0.toNat ≤ x1.toNat)
    (hy : y0.toNat ≤ y1.toNat) (hr : row ≤ y1.toNat) (hv : vs ≠ [])
    (hl : col + vs.length = x1.toNat + 1) :
    ((vs.flatMap colorBytes).foldl (Panel.dataByte c) p).Waiting x0 y0 x1 y1 x0.toNat (row + 1)
      ∧ ((vs.flatMap colorBytes).foldl (Panel.dataByte c) p).writes
        = p.writes ++ scanWrites vs col row := by
  induction vs generalizing p col with
  | nil => exact absurd rfl hv
  | cons v vs ih =>
    obtain ⟨k1, k2⟩ := dataBytes_pixel c v p x0 y0 x1 y1 col row h hx hy hr
    rw [List.flatMap_cons, List.foldl_append]
    rcases vs with _ | ⟨v', vs⟩
    · simp only [List.length_cons, List.length_nil] at hl
      rw [if_pos (by omega), if_pos (by omega)] at k1
      exact ⟨k1, k2⟩
    · simp only [List.length_cons] at hl
      push_cast at hl
      rw [if_neg (by omega), if_neg (by omega)] at k1
      obtain ⟨m1, m2⟩ := ih _ (col + 1) k1 (by simp)
        (by simp only [List.length_cons]; push_cast; omega)
      exact ⟨m1, by rw [m2, k2]; simp [scanWrites]⟩

/-- The panel writes of scanlines one below the other. -/
def rowsWrites : List (List Color) → Int → Int → List PanelWrite
  | [], _, _ => []
  | vs :: rest, col, row => scanWrites vs col row ++ rowsWrites rest col (row + 1)

/-- Scanlines of the window's width are written row by row (R64). -/
theorem observe_rows (c : Config) (rows : List (List Color)) (p : Panel) (x0 y0 x1 y1 : Halfword)
    (row : Int) (h : p.Waiting x0 y0 x1 y1 x0.toNat row) (hx : x0.toNat ≤ x1.toNat)
    (hy : y0.toNat ≤ y1.toNat) (hr : row + rows.length ≤ y1.toNat + 1)
    (hl : ∀ vs ∈ rows, x0.toNat + vs.length = x1.toNat + 1) :
    (p.observe c (rows.map fun vs => .data (vs.flatMap colorBytes))).Waiting x0 y0 x1 y1 x0.toNat
        (row + rows.length)
      ∧ (p.observe c (rows.map fun vs => .data (vs.flatMap colorBytes))).writes
        = p.writes ++ rowsWrites rows x0.toNat row := by
  induction rows generalizing p row with
  | nil => exact ⟨by simpa [Panel.observe] using h, by simp [Panel.observe, rowsWrites]⟩
  | cons vs rows ih =>
    have hvs := hl vs (by simp)
    simp only [List.length_cons] at hr
    push_cast at hr
    obtain ⟨k1, k2⟩ := dataBytes_scanline c vs p x0 y0 x1 y1 x0.toNat row h hx hy (by omega)
      (by rintro rfl; simp at hvs; omega) (by omega)
    obtain ⟨m1, m2⟩ := ih _ (row + 1) k1 (by omega) fun ws hws => hl ws (by simp [hws])
    refine ⟨?_, ?_⟩
    · have e : row + ((vs :: rows).length : Int) = row + 1 + rows.length := by
        simp only [List.length_cons]
        push_cast
        omega
      rw [e]
      exact m1
    · refine m2.trans ?_
      rw [k2]
      simp [rowsWrites]

/-! ### What a primitive draws -/

/-- A logical pixel write in controller coordinates (R66). -/
def LogicalWrite.physical (colOff rowOff : Halfword) (w : LogicalWrite) : PanelWrite :=
  ⟨w.x + colOff.toNat, w.y + rowOff.toNat, w.value⟩

theorem logical_physical (co ro : Halfword) (w : LogicalWrite) :
    (w.physical co ro).logical co ro = w := by
  simp [LogicalWrite.physical, PanelWrite.logical]

theorem scanWrites_replicate (n : Nat) (c : Color) (col row : Int) :
    scanWrites (List.replicate n c) col row =
      (List.range n).map fun (i : Nat) => ⟨col + i, row, c⟩ := by
  induction n generalizing col with
  | zero => rfl
  | succ n ih =>
    rw [List.replicate_succ, scanWrites, ih, List.range_succ_eq_map]
    simp [Function.comp_def]
    intro i _
    omega

theorem rowsWrites_replicate (n m : Nat) (c : Color) (col row : Int) :
    rowsWrites (List.replicate n (List.replicate m c)) col row =
      (List.range n).flatMap fun (j : Nat) =>
        (List.range m).map fun (i : Nat) => ⟨col + i, row + j, c⟩ := by
  induction n generalizing row with
  | zero => rfl
  | succ n ih =>
    rw [List.replicate_succ, rowsWrites, ih, List.range_succ_eq_map, scanWrites_replicate]
    simp only [List.flatMap_cons, List.flatMap_map, Nat.cast_zero, add_zero, Nat.succ_eq_add_one,
      Nat.cast_add, Nat.cast_one]
    congr 3
    funext j
    simp only [List.map_inj_left, PanelWrite.mk.injEq, true_and, and_true]
    intro i _
    omega

/-- A scanline of an image. -/
theorem scanWrites_map (f : Nat → Color) (n : Nat) (col row : Int) :
    scanWrites ((List.range n).map f) col row =
      (List.range n).map fun (i : Nat) => ⟨col + i, row, f i⟩ := by
  induction n generalizing col f with
  | zero => rfl
  | succ n ih =>
    rw [List.range_succ_eq_map, List.map_cons, List.map_map, scanWrites, ih (f ∘ Nat.succ) (col + 1)]
    simp [Function.comp_def]
    intro i _
    omega

/-- The scanlines of an image. -/
theorem rowsWrites_map (g : Nat → List Color) (n : Nat) (col row : Int) :
    rowsWrites ((List.range n).map g) col row =
      (List.range n).flatMap fun (j : Nat) => scanWrites (g j) col (row + j) := by
  induction n generalizing row g with
  | zero => rfl
  | succ n ih =>
    rw [List.range_succ_eq_map, List.map_cons, List.map_map, rowsWrites, ih (g ∘ Nat.succ)]
    simp only [List.flatMap_cons, List.flatMap_map, Function.comp_def]
    congr 2
    · simp
    · funext j
      congr 1
      push_cast
      omega

theorem fillLine_eq_flatMap (n : Nat) (c : Color) :
    fillLine n c = (List.replicate n c).flatMap colorBytes := by
  simp [fillLine, List.flatMap_def]

/-- A rectangle on the screen. -/
def State.holds (s : State) (r : Rect) : Prop :=
  0 ≤ r.x ∧ 0 ≤ r.y ∧ 0 < r.w ∧ 0 < r.h ∧ r.x + r.w ≤ s.width.toNat ∧ r.y + r.h ≤ s.height.toNat

theorem ofInt_toNat (v : Int) (h0 : 0 ≤ v) (h : v < 65536) :
    ((BitVec.ofInt 16 v).toNat : Int) = v := by
  rw [BitVec.toNat_ofInt]
  omega

/-- The window of a rectangle on the screen is where the rectangle is (R58, R109). -/
theorem observe_rectWindow (s : State) (hc : windowOpcodesDistinct s.cfg) (hf : s.windowFits)
    (r : Rect) (hr : s.holds r) (p : Panel) :
    ∃ x0 y0 x1 y1 : Halfword,
      (x0.toNat : Int) = r.x + s.colOff.toNat ∧ (y0.toNat : Int) = r.y + s.rowOff.toNat
        ∧ (x1.toNat : Int) = r.x + r.w - 1 + s.colOff.toNat
        ∧ (y1.toNat : Int) = r.y + r.h - 1 + s.rowOff.toNat
        ∧ (p.observe s.cfg (s.rectWindow r)).Waiting x0 y0 x1 y1 x0.toNat y0.toNat
        ∧ (p.observe s.cfg (s.rectWindow r)).writes = p.writes := by
  obtain ⟨h1, h2, h3, h4, h5, h6⟩ := hr
  obtain ⟨f1, f2⟩ := hf
  obtain ⟨k1, k2⟩ := observe_window s.cfg hc s.colOff s.rowOff r.x r.y (r.x + r.w - 1)
    (r.y + r.h - 1) p
  rw [windowEvents_eq_calls] at k1 k2
  refine ⟨_, _, _, _, ofInt_toNat _ ?_ ?_, ofInt_toNat _ ?_ ?_, ofInt_toNat _ ?_ ?_,
    ofInt_toNat _ ?_ ?_, k1, k2⟩ <;> omega

/-- A filled rectangle on the screen is written pixel by pixel, row by row (R64, R70). -/
theorem observe_fillCalls (s : State) (hc : windowOpcodesDistinct s.cfg) (hf : s.windowFits)
    (r : Rect) (hr : s.holds r) (c : Color) (p : Panel) :
    (p.observe s.cfg (s.fillCalls r c)).writes =
      p.writes ++ (rectPixels r c).map (LogicalWrite.physical s.colOff s.rowOff) := by
  obtain ⟨x0, y0, x1, y1, e1, e2, e3, e4, k1, k2⟩ := observe_rectWindow s hc hf r hr p
  obtain ⟨h1, h2, h3, h4, -, -⟩ := hr
  have hrows : List.replicate r.h.toNat
        (Event.data (List.replicate r.w.toNat (wireColor c)).flatten)
      = (List.replicate r.h.toNat (List.replicate r.w.toNat c)).map
          fun vs => .data (vs.flatMap colorBytes) := by
    rw [List.map_replicate, ← fillLine_eq_flatMap, fillLine_eq_wire]
  rw [State.fillCalls, observe_append, hrows,
    (observe_rows s.cfg _ _ x0 y0 x1 y1 _ k1 (by omega) (by omega)
      (by rw [List.length_replicate]; omega)
      (by
        intro vs hvs
        rw [List.eq_of_mem_replicate hvs, List.length_replicate]
        omega)).2, k2, rowsWrites_replicate]
  congr 1
  simp only [rectPixels, List.map_flatMap, List.map_map]
  congr 1
  funext j
  apply List.map_congr_left
  intro i _
  simp only [Function.comp_apply, LogicalWrite.physical, PanelWrite.mk.injEq, and_true]
  omega

/-- Each primitive writes its on-screen pixels (R66). -/
theorem observe_primEvents (s : State) (hc : windowOpcodesDistinct s.cfg) (hf : s.windowFits)
    (q : Prim) (p : Panel) :
    (p.observe s.cfg (s.primEvents q)).writes =
      p.writes ++ (s.primPixels q).map (LogicalWrite.physical s.colOff s.rowOff) := by
  cases q with
  | fill x y w h c =>
    simp only [State.primEvents, State.primPixels]
    rcases hr : s.clip x y w h with _ | r
    · simp [Panel.observe]
    · rw [State.clip, clip_eq_some] at hr
      exact observe_fillCalls s hc hf r (by simp only [State.holds]; omega) c p
  | pixel x y c =>
    simp only [State.primEvents, State.primPixels]
    rcases hs : s.onScreen x y with _ | _
    · simp [Panel.observe]
    · simp only [State.onScreen, Bool.and_eq_true, decide_eq_true_eq] at hs
      have e : s.windowCalls x y x y ++ [.data (wireColor c)] = s.fillCalls ⟨x, y, 1, 1⟩ c := by
        simp [State.fillCalls, State.rectWindow]
      have f : rectPixels ⟨x, y, 1, 1⟩ c = [⟨x, y, c⟩] := by simp [rectPixels]
      have k := observe_fillCalls s hc hf ⟨x, y, 1, 1⟩ (by simp only [State.holds]; omega) c p
      rw [f, ← e] at k
      simpa using k

theorem observe_primsEvents (s : State) (hc : windowOpcodesDistinct s.cfg) (hf : s.windowFits)
    (qs : List Prim) (p : Panel) :
    (p.observe s.cfg (qs.flatMap s.primEvents)).writes =
      p.writes ++ (qs.flatMap s.primPixels).map (LogicalWrite.physical s.colOff s.rowOff) := by
  induction qs generalizing p with
  | nil => simp [Panel.observe]
  | cons q qs ih =>
    rw [List.flatMap_cons, observe_append, ih, observe_primEvents s hc hf]
    simp

/-- The logical pixel writes of primitives whose grants are given (R66). -/
theorem lpw_primsEvents (s : State) (hc : windowOpcodesDistinct s.cfg) (hf : s.windowFits)
    (qs : List Prim) (p : Panel) :
    lpw s.cfg p s.colOff s.rowOff (qs.flatMap s.primEvents) = qs.flatMap s.primPixels := by
  rw [lpw, observe_primsEvents s hc hf, List.drop_left, List.map_map]
  simp [Function.comp_def, logical_physical]

/-! ### Logical pixel writes of a whole trace -/

/-- The panel only ever adds to its write list. -/
theorem dataByte_writes (c : Config) (p : Panel) (b : Byte) :
    p.writes <+: (p.dataByte c b).writes ∧ (p.dataByte c b).mode = p.mode
      ∧ (p.mode ≠ .write → (p.dataByte c b).writes = p.writes) := by
  have hp : (p.paramByte b).writes = p.writes ∧ (p.paramByte b).mode = p.mode := by
    simp only [Panel.paramByte, Panel.latch]
    split
    · split
      · split <;> exact ⟨rfl, rfl⟩
      · exact ⟨rfl, rfl⟩
    · exact ⟨rfl, rfl⟩
  have hw : ∀ (q : Panel) (col row : Int) (v : Color),
      (q.writeGram c col row v).writes = q.writes ∧ (q.writeGram c col row v).mode = q.mode := by
    intro q col row v
    simp only [Panel.writeGram]
    split <;> exact ⟨rfl, rfl⟩
  have ha : ∀ q : Panel, q.advance.writes = q.writes ∧ q.advance.mode = q.mode := by
    intro q
    simp only [Panel.advance]
    split <;> exact ⟨rfl, rfl⟩
  rcases hm : p.mode with _ | _ | _ | _ | _ <;> simp only [Panel.dataByte, hm]
  · simp
  · simp [hp, hm]
  · simp [hp, hm]
  · simp only [Panel.writeByte]
    split
    · simp [hm]
    · simp only [Panel.pixel, ha]
      split
      · simp [Panel.plot, hw, hm]
      · simp only [Panel.stray, hw, hm]
        split <;> simp
  · simp

theorem event_writes (c : Config) (p : Panel) (e : Event) : p.writes <+: (p.event c e).writes := by
  cases e with
  | cmd b =>
    have := endParams_same p
    simp only [Panel.event, Panel.command]
    split
    · simp [this]
    · split
      · simp [this]
      · split <;> simp [this]
  | data l =>
    simp only [Panel.event]
    induction l generalizing p with
    | nil => exact List.prefix_rfl
    | cons b l ih => exact (dataByte_writes c p b).1.trans (ih _)
  | rst _ => exact List.prefix_rfl
  | delay _ => exact List.prefix_rfl
  | bl _ => exact List.prefix_rfl

theorem observe_writes (c : Config) (tr : List Event) (p : Panel) :
    p.writes <+: (p.observe c tr).writes := by
  induction tr generalizing p with
  | nil => exact List.prefix_rfl
  | cons e tr ih => exact (event_writes c p e).trans (ih _)

/-- The data of an event outside memory-write mode write nothing and leave the mode. -/
theorem data_outside (c : Config) (l : List Byte) (p : Panel) :
    (p.event c (.data l)).mode = p.mode
      ∧ (p.mode ≠ .write → (p.event c (.data l)).writes = p.writes) := by
  simp only [Panel.event]
  induction l generalizing p with
  | nil => exact ⟨rfl, fun _ => rfl⟩
  | cons b l ih =>
    obtain ⟨-, h2, h3⟩ := dataByte_writes c p b
    obtain ⟨k1, k2⟩ := ih (p.dataByte c b)
    exact ⟨k1.trans h2, fun h => (k2 (by rwa [h2])).trans (h3 h)⟩

/-- A command byte writes nothing, and only `CMD_RAMWR` starts a stream. -/
theorem command_outside (c : Config) (b : Byte) (p : Panel) :
    (p.command c b).writes = p.writes
      ∧ ((p.command c b).mode = .write → b = c.cmdRamwr) := by
  have := endParams_same p
  simp only [Panel.command]
  split
  · simp [this]
  · split
    · simp [this]
    · split <;> simp_all

theorem lpw_cons (c : Config) (p : Panel) (co ro : Halfword) (e : Event) (tr : List Event) :
    lpw c p co ro (e :: tr) =
      ((p.event c e).writes.drop p.writes.length).map (PanelWrite.logical co ro)
        ++ lpw c (p.event c e) co ro tr := by
  obtain ⟨a, ha⟩ := event_writes c p e
  obtain ⟨b, hb⟩ := observe_writes c tr (p.event c e)
  have h : p.observe c (e :: tr) = (p.event c e).observe c tr := rfl
  simp only [lpw]
  rw [h, ← hb, ← ha, List.drop_left, List.drop_left, List.append_assoc, List.drop_left,
    List.map_append]

/-- No data call stands before the first command byte. -/
def opensWithCommand : List Event → Bool
  | [] => true
  | .cmd _ :: _ => true
  | .data _ :: _ => false
  | .rst _ :: tr | .delay _ :: tr | .bl _ :: tr => opensWithCommand tr

/-- Events that open with a command byte, or stand in a stream begun under offsets `o`, are read by `o`
alone if `o` are the offsets in force at each of them. -/
theorem logicalWrites_const (c : Config) (f : Nat → Offsets) (o : Offsets) (tr : List Event)
    (k : Nat) (p : Panel) (cur : Offsets) (hf : ∀ j, k ≤ j → j < k + tr.length → f j = o)
    (ho : p.mode = .write → cur = o ∨ opensWithCommand tr = true) :
    logicalWrites c f k p cur tr = lpw c p o.col o.row tr := by
  induction tr generalizing k p cur with
  | nil => simp [logicalWrites, lpw, Panel.observe]
  | cons e tr ih =>
    simp only [List.length_cons] at hf
    have hk : f k = o := hf k le_rfl (by omega)
    have hf' : ∀ j, k + 1 ≤ j → j < k + 1 + tr.length → f j = o :=
      fun j h1 h2 => hf j (by omega) (by omega)
    rw [logicalWrites, lpw_cons]
    cases e with
    | cmd b =>
      obtain ⟨h1, h2⟩ := command_outside c b p
      refine congrArg₂ _ (by simp [Panel.event, h1]) (ih _ _ _ hf' fun hm => .inl ?_)
      rw [if_pos (by rw [h2 hm]), hk]
    | data l =>
      obtain ⟨h1, h2⟩ := data_outside c l p
      rw [if_neg (by simp)]
      rcases Decidable.em (p.mode = .write) with hm | hm
      · have hc : cur = o := by simpa [opensWithCommand] using ho hm
        subst hc
        exact congrArg₂ _ rfl (ih _ _ _ hf' fun _ => .inl rfl)
      · exact congrArg₂ _ (by simp [h2 hm])
          (ih _ _ _ hf' fun h => absurd (h1 ▸ h) hm)
    | rst _ | delay _ | bl _ =>
      exact congrArg₂ _ (by simp [Panel.event])
        (ih _ _ _ hf' fun h => by simpa [opensWithCommand] using ho h)

theorem logicalWrites_congr (c : Config) (f g : Nat → Offsets) (tr : List Event) (k : Nat) (p : Panel)
    (cur : Offsets) (h : ∀ j, j < k + tr.length → f j = g j) :
    logicalWrites c f k p cur tr = logicalWrites c g k p cur tr := by
  induction tr generalizing k p cur with
  | nil => rfl
  | cons e tr ih =>
    simp only [List.length_cons] at h
    rw [logicalWrites, logicalWrites, h k (by omega), ih _ _ _ fun j hj => h j (by omega)]

theorem logicalWrites_append (c : Config) (f : Nat → Offsets) (a b : List Event) (k : Nat) (p : Panel)
    (cur : Offsets) :
    ∃ cur', logicalWrites c f k p cur (a ++ b) =
      logicalWrites c f k p cur a ++ logicalWrites c f (k + a.length) (p.observe c a) cur' b := by
  induction a generalizing k p cur with
  | nil => exact ⟨cur, rfl⟩
  | cons e a ih =>
    obtain ⟨cur', h⟩ := ih (k + 1) (p.event c e) (if e = .cmd c.cmdRamwr then f k else cur)
    refine ⟨cur', ?_⟩
    have hk : k + (e :: a).length = k + 1 + a.length := by
      simp only [List.length_cons]
      omega
    rw [List.cons_append, logicalWrites, h, logicalWrites, List.append_assoc, hk]
    rfl

/-- From the end of the trace on, the offsets in force are the current ones. -/
theorem offsetsAt_current {s : State} (h : s.offsetsLogged) (k : Nat) (hk : s.trace.length ≤ k) :
    s.offsetsAt k = ⟨s.colOff, s.rowOff⟩ := by
  obtain ⟨h1, -, h3⟩ := h
  rcases hl : s.offsetLog with _ | ⟨e, l⟩
  · simp [hl] at h1
  · rw [hl] at h1 h3
    have := h3 e (by simp)
    simp only [State.offsetsAt, hl]
    rw [List.find?_cons_of_pos (by simp; omega)]
    simpa using h1

/-- The offsets in force at an event are a matter of the record alone. -/
theorem offsetsAt_of_log {s t : State} (h : s.offsetsLogged) (hl : t.offsetLog = s.offsetLog) (k : Nat) :
    t.offsetsAt k = s.offsetsAt k := by
  obtain ⟨-, h2, -⟩ := h
  have hz : (s.offsetLog.find? fun e => decide (e.after ≤ k)).isSome = true := by
    rw [List.find?_isSome]
    rcases he : s.offsetLog.getLast? with _ | e
    · simp [he] at h2
    · refine ⟨e, List.mem_of_getLast? he, ?_⟩
      have : e.after = 0 := by simpa [he] using h2
      simp [this]
  obtain ⟨e, he⟩ := Option.isSome_iff_exists.1 hz
  simp only [State.offsetsAt, hl, he]

/-- A tuple loaded at the end of the trace changes no offsets of the trace before it. -/
theorem offsetsAt_loaded {s t : State} (h : s.offsetsLogged) (n : Nat) (o : Offsets)
    (hl : t.offsetLog = ⟨n, o⟩ :: s.offsetLog) (k : Nat) (hk : k < n) :
    t.offsetsAt k = s.offsetsAt k := by
  have hu : State.offsetsAt { t with offsetLog := s.offsetLog } k = t.offsetsAt k := by
    simp only [State.offsetsAt, hl]
    rw [List.find?_cons_of_neg (by simp; omega)]
  rw [← hu]
  exact offsetsAt_of_log (t := { t with offsetLog := s.offsetLog }) h rfl k

/-- Appending events that open with a command byte appends their own logical pixel writes, read by the
offsets `o` in force at them; what the trace showed before stays. -/
theorem lpw_grow (s t : State) (seg : List Event) (o : Offsets) (hc : t.cfg = s.cfg)
    (hb : t.panelBase = s.panelBase) (ht : t.trace = s.trace ++ seg)
    (hold : ∀ k, k < s.trace.length → t.offsetsAt k = s.offsetsAt k)
    (hnew : ∀ k, s.trace.length ≤ k → k < s.trace.length + seg.length → t.offsetsAt k = o)
    (hs : opensWithCommand seg = true) :
    t.lpw = s.lpw ++ lpw s.cfg s.panel o.col o.row seg := by
  rcases htr : s.trace with _ | ⟨e, tr⟩
  · rw [htr] at ht hnew
    simp only [State.lpw, State.panel, hc, hb, ht, htr]
    rw [List.nil_append]
    exact logicalWrites_const _ _ o _ _ _ _ (by simpa using hnew) fun _ => .inr hs
  · simp only [State.lpw, hc, hb, ht]
    obtain ⟨cur', h⟩ := logicalWrites_append s.cfg t.offsetsAt s.trace seg 0 s.panelBase
      (t.offsetsAt 0)
    rw [h, logicalWrites_congr s.cfg t.offsetsAt s.offsetsAt s.trace 0 s.panelBase _
      (fun j hj => hold j (by simpa using hj)), hold 0 (by simp [htr])]
    congr 1
    exact logicalWrites_const _ _ o _ _ _ _ (by simpa using hnew) fun _ => .inr hs

end Sys2Proof.Machine
end

