-- ==== Sys2Proof/Tests/Slice0.lean ====
section
/-! SUPPORT. The model's own tests: ill-formed commands are refused, words written out from
30_encoding.md decode, single steps give what the vectors of 95_test_vectors.md say, and the hypotheses
of the statements are met. The configuration is TC of 95_test_vectors.md section 2; it is a test's
choice, no claim about the hardware. -/

namespace Sys2Proof.Tests

open Sys2Proof Sys2Proof.Machine

/-! ### The test configuration -/

/-- The four glyphs of TC, at their places. -/
def tcRom : List Glyph :=
  (((List.replicate 96 default).set 31 ⟨0x02, 0x01, 0x51, 0x09, 0x06⟩).set 33
    ⟨0x7C, 0x12, 0x11, 0x12, 0x7C⟩).set 34 ⟨0x7F, 0x49, 0x49, 0x49, 0x36⟩

/-- `INIT_SEQ` of TC. -/
def tcSeq : List InitEntry :=
  [⟨.softwareReset, 0x01, [], 150⟩, ⟨.sleepOut, 0x11, [], 500⟩,
   ⟨.frameRate, 0xB1, [0x01, 0x2C, 0x2D], 0⟩, ⟨.power, 0xC0, [0xA2, 0x02, 0x84], 0⟩,
   ⟨.gamma, 0xE0, [0x02, 0x1C, 0x07, 0x12, 0x37, 0x32, 0x29, 0x2D, 0x29, 0x25, 0x2B, 0x39, 0x00,
     0x01, 0x03, 0x10], 0⟩,
   ⟨.pixelFormat, 0x3A, [0x05], 0⟩, ⟨.displayOn, 0x29, [], 100⟩]

/-- TC. -/
def TC : Config :=
  { madctl := ⟨0xC8, 0xA8, 0x08, 0x68⟩
    colStart := ⟨26, 1, 26, 1⟩, rowStart := ⟨1, 26, 1, 26⟩
    cmdCaset := 0x2A, cmdRaset := 0x2B, cmdRamwr := 0x2C
    cmdMadctl := 0x36, cmdInvon := 0x21, cmdInvoff := 0x20
    initSeq := tcSeq, glyphRom := tcRom, hmemSize := 0x300, bufMayFail := false
    gramCols := 132, gramRows := 162 }

/-- A reference panel that has seen nothing, its free values all zero. -/
def blankPanel : Panel :=
  { pxs := 0, pxe := 0, pys := 0, pye := 0, mode := .idle, params := [], pc := 0, pr := 0
    pending := none, gram := [], writes := [], strays := 0, shorts := 0 }

/-- TC after block reset; the bus oracle answers as given. -/
def cold (bus : Bool) : State :=
  { State.powerOn TC with busOracle := ⟨[bus], 0⟩, panelBase := blankPanel }

/-- TC initialised, at a rotation. -/
def ready (r : Fin 4) : State := { (cold true).loadTuple r with initDone := true }

/-- TC initialised with a fallible allocator that answers as given. -/
def fallible (grants : List Bool) (policy : BufFailPolicy) : State :=
  { ready 0 with
    cfg := { TC with bufMayFail := true, bufFailPolicy := policy }
    grantOracle := ⟨grants, 0⟩ }

/-- Host operand memory with bytes listed from an address on. -/
def bytesAt (a : Nat) (l : List Byte) : Memory :=
  (l.zipIdx).foldl (fun m b => m.write (a + b.2) b.1) []

/-- The state after a command. -/
def after (i : Instr) (s : State) : State :=
  match exec i s with
  | .next t => t
  | .fault _ => s
  | .refused _ => s

/-- The pixels a command adds, without their colours. -/
def pixelsOf (i : Instr) (s : State) : List (Int × Int) :=
  (lpw TC s.panel s.colOff s.rowOff ((after i s).trace.drop s.trace.length)).map fun w => (w.x, w.y)

/-! ### Ill-formed commands (30_encoding.md R82 to R84, R91) -/

theorem test_wf_s16_bounds :
    (Instr.fillRect (-32768) 32767 0 0 0).wf = true ∧ (Instr.fillRect 32768 0 0 0 0).wf = false
      ∧ (Instr.fillRect (-32769) 0 0 0 0).wf = false := by decide

theorem test_wf_s16_every_operand :
    (Instr.setWindow 0 32768 0 0).wf = false ∧ (Instr.setWindow 0 0 32768 0).wf = false
      ∧ (Instr.setWindow 0 0 0 32768).wf = false ∧ (Instr.setWindow 32768 0 0 0).wf = false
      ∧ (Instr.fillRect 0 32768 0 0 0).wf = false ∧ (Instr.fillRect 0 0 32768 0 0).wf = false
      ∧ (Instr.fillRect 0 0 0 32768 0).wf = false
      ∧ (Instr.drawPixel 32768 0 0).wf = false ∧ (Instr.drawPixel 0 32768 0).wf = false := by decide

theorem test_wf_s16_raster :
    (Instr.line 32768 0 0 0 0).wf = false ∧ (Instr.line 0 0 0 (-32769) 0).wf = false
      ∧ (Instr.rect 0 32768 0 0 0).wf = false ∧ (Instr.filledRect 0 0 32768 0 0).wf = false
      ∧ (Instr.circle 0 0 32768 0).wf = false ∧ (Instr.filledCircle 0 0 (-32769) 0).wf = false := by
  decide

theorem test_wf_u8 :
    (Instr.drawChar 0 0 255 255 0 0).wf = true ∧ (Instr.drawChar 0 0 256 0 0 0).wf = false
      ∧ (Instr.drawChar 0 0 0 256 0 0).wf = false ∧ (Instr.drawString 0 0 256 0 0 0).wf = false := by
  decide

theorem test_wf_u16 :
    (Instr.setRotation 65535).wf = true ∧ (Instr.setRotation 65536).wf = false
      ∧ (Instr.invert 65536).wf = false := by decide

theorem test_wf_u32 :
    (Instr.drawImage 0 0 0 0 4294967295).wf = true ∧ (Instr.drawImage 0 0 0 0 4294967296).wf = false
      ∧ (Instr.drawString 0 0 0 0 0 4294967296).wf = false := by decide

/-! ### Decoding: halfwords written out from R81 to R86 -/

theorem test_decode_init : decode [0x0001] = .ok .init := by decide
theorem test_decode_setRotation : decode [0x0002, 0xFFFF] = .ok (.setRotation 65535) := by decide
theorem test_decode_setWindow :
    decode [0x0003, 0xFFE2, 0x0000, 0xFFFF, 0x0007] = .ok (.setWindow (-30) 0 (-1) 7) := by decide
theorem test_decode_invert : decode [0x0004, 0x0002] = .ok (.invert 2) := by decide
theorem test_decode_getWidth : decode [0x0005] = .ok .getWidth := by decide
theorem test_decode_getHeight : decode [0x0006] = .ok .getHeight := by decide
theorem test_decode_fillRect :
    decode [0x0010, 0x0096, 0x0046, 0x0014, 0x0015, 0xF800] = .ok (.fillRect 150 70 20 21 0xF800) := by
  decide
theorem test_decode_drawPixel :
    decode [0x0011, 0x004F, 0x009F, 0x1234] = .ok (.drawPixel 79 159 0x1234) := by decide
theorem test_decode_drawImage :
    decode [0x0012, 0x000A, 0x000B, 0x0002, 0x0001, 0x0200, 0x0003]
      = .ok (.drawImage 10 11 2 1 0x00030200) := by decide
theorem test_decode_line :
    decode [0x0020, 0xFFFF, 0x0000, 0x0003, 0x0001, 0x001F] = .ok (.line (-1) 0 3 1 0x001F) := by
  decide
theorem test_decode_rect :
    decode [0x0021, 0x000A, 0x000B, 0x0003, 0xFFFE, 0x0001] = .ok (.rect 10 11 3 (-2) 1) := by decide
theorem test_decode_filledRect :
    decode [0x0022, 0xFFFB, 0xFFFA, 0x000A, 0x000B, 0x07E0] = .ok (.filledRect (-5) (-6) 10 11 0x07E0) := by
  decide
theorem test_decode_circle :
    decode [0x0023, 0x0014, 0x0015, 0x8000, 0x0001] = .ok (.circle 20 21 (-32768) 1) := by decide
theorem test_decode_filledCircle :
    decode [0x0024, 0x0014, 0x0015, 0x7FFF, 0x0001] = .ok (.filledCircle 20 21 32767 1) := by decide
theorem test_decode_drawChar :
    decode [0x0030, 0x0001, 0x0002, 0x0241, 0xFFFF, 0x0003]
      = .ok (.drawChar 1 2 2 0x41 0xFFFF 0x0003) := by decide
theorem test_decode_drawString :
    decode [0x0031, 0x0001, 0x0002, 0x0300, 0xFFFF, 0x0004, 0x0100, 0x0002]
      = .ok (.drawString 1 2 3 0xFFFF 0x0004 0x00020100) := by decide

/-- V100 to V106: what fails decode (R87, R89). -/
theorem test_decode_rejects :
    decode [0x0000] = .error (.unknownOpcode 0x00) ∧ decode [0x0007] = .error (.unknownOpcode 0x07)
      ∧ decode [0x00FF] = .error (.unknownOpcode 0xFF)
      ∧ decode [0x0101] = .error (.reservedHeader 0x01)
      ∧ decode [0x0005, 0x0000] = .error (.wrongLength 0x05)
      ∧ decode [0x0011, 0x0000, 0x0000] = .error (.wrongLength 0x11)
      ∧ decode [0x0031, 0, 0, 0x0001, 1, 0, 0x0100, 0] = .error (.reservedString 0x31)
      ∧ decode [] = .error .emptyPacket := by decide

/-- The table's numbering: `H[0]` is bits 15:0, operand words without bits are zero. -/
theorem test_decodeTableWord :
    decodeTableWord 16 0x0010 = some (.fillRect 0 0 0 0 0)
      ∧ decodeTableWord 64 0x1234009F004F0011 = some (.drawPixel 79 159 0x1234)
      ∧ decodeTableWord 16 0x0131 = none := by decide

/-! ### Single steps -/

/-- P1, step 1 and V16: the twenty events of INIT under TC. -/
theorem test_init_V16 :
    (after .init (cold true)).trace =
        [.rst true, .delay 50, .rst false, .delay 100, .rst true, .delay 200,
         .cmd 0x01, .delay 150, .cmd 0x11, .delay 500, .cmd 0xB1, .data [0x01, 0x2C, 0x2D],
         .cmd 0xC0, .data [0xA2, 0x02, 0x84], .cmd 0xE0,
         .data [0x02, 0x1C, 0x07, 0x12, 0x37, 0x32, 0x29, 0x2D, 0x29, 0x25, 0x2B, 0x39, 0x00, 0x01,
           0x03, 0x10],
         .cmd 0x3A, .data [0x05], .cmd 0x29, .delay 100]
      ∧ (after .init (cold true)).initDone = true ∧ (after .init (cold true)).rstLvl = some true := by
  decide

/-- V15. -/
theorem test_init_V15 :
    (after .init (cold false)).lastStatus = 0x03 ∧ (after .init (cold false)).trace = []
      ∧ (after .init (cold false)).initDone = false := by decide

/-- V6: 65535 mod 4 is 3. -/
theorem test_setRotation_V6 :
    (after (.setRotation 65535) (ready 0)).tuple = ⟨0x68, 1, 26, 160, 80⟩
      ∧ (after (.setRotation 65535) (ready 0)).trace = [.cmd 0x36, .data [0x68]] := by decide

/-- V9: no clip, values modulo 2^16. -/
theorem test_setWindow_V9 :
    (after (.setWindow (-30) 0 (-1) 0) (ready 0)).trace =
      [.cmd 0x2A, .data [0xFF, 0xFC, 0x00, 0x19], .cmd 0x2B, .data [0x00, 0x01, 0x00, 0x01],
       .cmd 0x2C] := by decide

/-- V12: any nonzero operand turns inversion on. -/
theorem test_invert_V12 :
    (after (.invert 2) (ready 0)).trace = [.cmd 0x21] ∧ (after (.invert 2) (ready 0)).inv = true := by
  decide

/-- V14. -/
theorem test_invert_V14 :
    (after (.invert 0) { ready 0 with inv := true }).trace = [.cmd 0x20]
      ∧ (after (.invert 0) { ready 0 with inv := true }).inv = false := by decide

/-- V7. -/
theorem test_getters_V7 :
    (after .getWidth (ready 1)).lastValue = 160 ∧ (after .getHeight (ready 1)).lastValue = 80
      ∧ (after .getWidth (ready 2)).lastValue = 80 ∧ (after .getHeight (ready 2)).lastValue = 160 := by
  decide

/-- V20: clipped on the right at rotation 1. -/
theorem test_fillRect_V20 :
    (after (.fillRect 150 70 20 20 0xF800) (ready 1)).trace =
      [.cmd 0x2A, .data [0x00, 0x97, 0x00, 0xA0], .cmd 0x2B, .data [0x00, 0x60, 0x00, 0x69],
       .cmd 0x2C] ++ List.replicate 10 (.data (List.replicate 10 [0xF8, 0x00]).flatten) := by decide

/-- V110: a refused grant leaves the window and ERR_BUF. -/
theorem test_fillRect_V110 :
    (after (.fillRect 0 0 2 2 0xF800) (fallible [false] .proceed)).trace =
        [.cmd 0x2A, .data [0x00, 0x1A, 0x00, 0x1B], .cmd 0x2B, .data [0x00, 0x01, 0x00, 0x02],
         .cmd 0x2C]
      ∧ (after (.fillRect 0 0 2 2 0xF800) (fallible [false] .proceed)).lastStatus = 0x04 := by decide

/-- V30. -/
theorem test_drawPixel_V30 :
    (after (.drawPixel 79 159 0x1234) (ready 0)).trace =
      [.cmd 0x2A, .data [0x00, 0x69, 0x00, 0x69], .cmd 0x2B, .data [0x00, 0xA0, 0x00, 0xA0],
       .cmd 0x2C, .data [0x12, 0x34]] := by decide

/-- V31. -/
theorem test_drawPixel_V31 :
    (after (.drawPixel 80 0 1) (ready 0)).trace = [] ∧ (after (.drawPixel (-1) 0 1) (ready 0)).trace = []
      ∧ (after (.drawPixel 0 160 1) (ready 0)).trace = [] := by decide

/-- V34 and V35 in one: the left column dropped, little-endian memory to a big-endian wire. -/
theorem test_drawImage_V34 :
    (after (.drawImage (-1) 0 3 1 0)
        { ready 0 with hostMem := bytesAt 0 [0x01, 0xA0, 0x02, 0xA0, 0x03, 0xA0] }).trace =
      [.cmd 0x2A, .data [0x00, 0x1A, 0x00, 0x1B], .cmd 0x2B, .data [0x00, 0x01, 0x00, 0x01],
       .cmd 0x2C, .data [0xA0, 0x02, 0xA0, 0x03]] := by decide

/-- V36 to V38: the checks in their order. -/
theorem test_drawImage_V36 :
    (after (.drawImage 0 0 2 1 0x201) (ready 0)).lastStatus = 0x06
      ∧ (after (.drawImage 0 0 2 1 0x2FE) (ready 0)).lastStatus = 0x05
      ∧ (after (.drawImage 100 0 2 1 0x201) (ready 0)).lastStatus = 0x00 := by decide

/-- V46 and V42: a flat and a steep line. -/
theorem test_line_V46 :
    linePoints 0 0 5 2 = [(0, 0), (1, 0), (2, 1), (3, 1), (4, 2), (5, 2)]
      ∧ linePoints 0 0 1 3 = [(0, 0), (0, 1), (1, 2), (1, 3)]
      ∧ linePoints 0 3 3 0 = [(0, 3), (1, 2), (2, 1), (3, 0)] := by decide

/-- V47: the first point is off screen. -/
theorem test_line_V47 :
    pixelsOf (.line (-1) 0 3 1 0x001F) (ready 0) = [(0, 0), (1, 0), (2, 1), (3, 1)] := by decide

/-- V50: corners are written twice. -/
theorem test_rect_V50 :
    pixelsOf (.rect 10 10 3 2 1) (ready 0) =
      [(10, 10), (11, 10), (12, 10), (10, 11), (11, 11), (12, 11), (10, 10), (10, 11), (12, 10),
       (12, 11)] := by decide

/-- V53: the bottom row is `Y + H - 1`. -/
theorem test_rect_V53 :
    pixelsOf (.rect 10 10 2 (-1) 1) (ready 0) = [(10, 10), (11, 10), (10, 8), (11, 8)] := by decide

/-- V54: the trace of V21. -/
theorem test_filledRect_V54 :
    (after (.filledRect (-5) (-5) 10 10 0x07E0) (ready 0)).trace =
      [.cmd 0x2A, .data [0x00, 0x1A, 0x00, 0x1E], .cmd 0x2B, .data [0x00, 0x01, 0x00, 0x05],
       .cmd 0x2C] ++ List.replicate 5 (.data (List.replicate 5 [0x07, 0xE0]).flatten) := by decide

/-- V62. -/
theorem test_circle_V62 :
    circlePoints 20 20 2 =
      [(20, 22), (20, 18), (22, 20), (18, 20), (21, 22), (19, 22), (21, 18), (19, 18), (22, 21),
       (18, 21), (22, 19), (18, 19), (22, 21), (18, 21), (22, 19), (18, 19), (21, 22), (19, 22),
       (21, 18), (19, 18)] := by decide

/-- V61: a circle on the panel. -/
theorem test_circle_V61 :
    pixelsOf (.circle 20 20 1 1) (ready 0) =
      [(20, 21), (20, 19), (21, 20), (19, 20), (21, 20), (19, 20), (21, 20), (19, 20), (20, 21),
       (20, 21), (20, 19), (20, 19)] := by decide

/-- V71: the spans of a filled circle, the centre column first. -/
theorem test_filledCircle_V71 :
    circleSpans 20 20 1 = [⟨20, 19, 3⟩, ⟨21, 20, 1⟩, ⟨20, 19, 3⟩, ⟨19, 20, 1⟩, ⟨20, 19, 3⟩] := by
  decide

/-- V70 and V74. -/
theorem test_filledCircle_V70 :
    pixelsOf (.filledCircle 20 20 0 1) (ready 0) = [(20, 20)]
      ∧ (after (.filledCircle 20 20 (-1) 1) (ready 0)).trace = [] := by decide

/-- V80: 'A' with a transparent background. -/
theorem test_drawChar_V80 :
    pixelsOf (.drawChar 0 0 1 0x41 0xFFFF 0xFFFF) (ready 0) =
      [(0, 2), (0, 3), (0, 4), (0, 5), (0, 6), (1, 1), (1, 4), (2, 0), (2, 4), (3, 1), (3, 4),
       (4, 2), (4, 3), (4, 4), (4, 5), (4, 6)] := by decide +kernel

/-- V82: 35 cells of two by two and the spacing column, 264 events. -/
theorem test_drawChar_V82 :
    (after (.drawChar 0 0 2 0x41 0xFFFF 0) (ready 0)).trace.length = 264 := by decide +kernel

/-- V90: the newline takes 'B' eight rows down, at the start column. -/
theorem test_drawString_V90 :
    (after (.drawString 0 0 1 0xFFFF 0xFFFF 0x100)
        { ready 0 with hostMem := bytesAt 0x100 [0x41, 0x0A, 0x42] }).trace =
      (after (.drawChar 0 8 1 0x42 0xFFFF 0xFFFF)
        (after (.drawChar 0 0 1 0x41 0xFFFF 0xFFFF) (ready 0))).trace := by decide +kernel

/-- V95: no terminator below `HMEM_SIZE`. -/
theorem test_drawString_V95 :
    (after (.drawString 0 0 1 1 0 0x2F0)
        { ready 0 with hostMem := bytesAt 0x2F0 (List.replicate 16 0x58) }).lastStatus = 0x05
      ∧ (after (.drawString 0 0 1 1 0 0x2F0)
        { ready 0 with hostMem := bytesAt 0x2F0 (List.replicate 16 0x58) }).trace = [] := by decide

/-- V107 to V109: the gate, what is not gated, and decode before the gate. -/
theorem test_gate_V107 :
    (after (.fillRect 0 0 1 1 0xFFFF) (cold true)).lastStatus = 0x02
      ∧ (after .getHeight (cold true)).completedWith 0x00 160
      ∧ (match step { cold true with inputs := [.issue [0x0007]] } with
         | .next t => t.lastStatus
         | .fault _ => 0xFF
         | .refused _ => 0xFF) = 0x01 := ⟨by decide, ⟨by decide, by decide⟩, by decide⟩

/-- V112: CONTINUE goes on after the refused bottom edge. -/
theorem test_rect_V112 :
    (after (.rect 10 10 3 2 1) (fallible [true, false, true, true] .proceed)).trace.length = 25 := by
  decide

/-- The panel memory after P1's fill corner: a cell of `GRAM` holds what was written there (R64). -/
theorem test_panel_gram :
    (after (.drawPixel 3 4 0x1234) (ready 0)).panel.gramAt 29 5 = 0x1234
      ∧ (after (.drawPixel 3 4 0x1234) (ready 0)).panel.writes = [⟨29, 5, 0x1234⟩] := by decide

/-- R91 and R92: pseudo-instructions, comments, and what does not assemble. -/
theorem test_assemble :
    parseLine "HLINE 1, 2, 3, 0x0004 ; a span".toList = .ok (some (.fillRect 1 2 3 1 4))
      ∧ parseLine "INVOFF".toList = .ok (some (.invert 0))
      ∧ parseLine "FILL_RECT 0, 0, 40000, 1, 1".toList = .error .outOfRange
      ∧ parseLine "FILL_RECT 0, 0".toList = .error .wrongOperands
      ∧ parseLine "NOP".toList = .error .unknownMnemonic
      ∧ parseLine "; nothing".toList = .ok none := by decide +kernel

/-! ### The hypotheses of the statements are met -/

theorem tc_wf : TC.wf = true := by decide

theorem cold_offsets : (cold true).offsetsLogged := by
  simp only [State.offsetsLogged]
  decide

theorem ready_inv : (cold true).Inv := by
  refine ⟨by decide, by decide, cold_offsets, by decide, by decide, by decide, by decide, by decide,
    by decide, ⟨by decide, by decide⟩, by decide, by decide, ?_, by decide⟩
  intro _
  rfl

theorem ready_distinct : windowOpcodesDistinct TC := by
  refine ⟨by decide, by decide, by decide⟩

theorem ready_fits (r : Fin 4) : (ready r).windowFits := by
  revert r
  simp only [State.windowFits]
  decide

theorem ready_grants (r : Fin 4) : (ready r).grantsAll := .inl rfl

theorem witness_blockReset :
    { ready 1 with inputs := [.blockReset, .issue [0x0001]] }.inputs
      = .blockReset :: [HostInput.issue [0x0001]] := rfl

theorem witness_stepKeepsTheInvariant :
    State.Inv { cold true with inputs := [.issue [0x0001]] }
      ∧ ∃ t, step { cold true with inputs := [.issue [0x0001]] } = .next t :=
  ⟨ready_inv.takeInput _, _, rfl⟩

theorem witness_stepRuns :
    { cold true with inputs := [.issue [0x0001]] }.inputs = .issue [0x0001] :: []
      ∧ decode [0x0001] = .ok .init ∧ (cold true).inputs = [] := ⟨rfl, by decide, rfl⟩

theorem witness_fetchWord : decodeTableWord 96 0xF80000140014004600960010
    = some (.fillRect 150 70 20 20 0xF800) := by decide

theorem witness_hostStore_inside :
    { ready 0 with inputs := [.store 0x2FF 5] }.inputs = .store 0x2FF 5 :: []
      ∧ 0x2FF < (ready 0).cfg.hmemSize ∧ (ready 0).hostMem.wf = true := by decide

theorem witness_hostStore_outside :
    { ready 0 with inputs := [.store 0x300 5] }.inputs = .store 0x300 5 :: []
      ∧ ¬0x300 < (ready 0).cfg.hmemSize := by decide

theorem witness_decodeOfEncode :
    (Instr.setWindow (-32768) 32767 0 (-1)).wf = true ∧ (Instr.setRotation 65535).wf = true
      ∧ (Instr.drawChar 0 0 255 255 0 0).wf = true
      ∧ (Instr.drawString 0 0 255 0 0 4294967295).wf = true := by decide

theorem witness_encodeOfDecode :
    decode [0x0031, 0x8000, 0x7FFF, 0xFF00, 0xFFFF, 0x0000, 0xFFFF, 0xFFFF]
      = .ok (.drawString (-32768) 32767 255 0xFFFF 0 0xFFFFFFFF) := by decide

theorem witness_decodeRejects :
    { ready 0 with inputs := [.issue [0x0007]] }.inputs = .issue (0x0007 :: []) :: []
      ∧ decode [0x0007] = .error (.unknownOpcode 0x07) := ⟨rfl, by decide⟩

theorem witness_gate : gatedCommand (.setRotation 1) = true ∧ (cold true).initDone = false := by decide

/-- Every status but ERR_ILLEGAL is reached by a command that decodes. -/
theorem witness_statuses :
    (∃ t, exec (.fillRect 0 0 1 1 0) (ready 0) = .next t ∧ t.lastStatus = 0x00)
      ∧ (∃ t, exec (.fillRect 0 0 1 1 0) (cold true) = .next t ∧ t.lastStatus = 0x02)
      ∧ (∃ t, exec .init (cold false) = .next t ∧ t.lastStatus = 0x03)
      ∧ (∃ t, exec (.fillRect 0 0 1 1 0) (fallible [false] .abort) = .next t ∧ t.lastStatus = 0x04)
      ∧ (∃ t, exec (.drawImage 0 0 2 1 0x2FE) (ready 0) = .next t ∧ t.lastStatus = 0x05)
      ∧ ∃ t, exec (.drawImage 0 0 2 1 0x201) (ready 0) = .next t ∧ t.lastStatus = 0x06 := by
  refine ⟨⟨_, rfl, by decide⟩, ⟨_, rfl, by decide⟩, ⟨_, rfl, by decide⟩, ⟨_, rfl, by decide⟩,
    ⟨_, rfl, by decide⟩, ⟨_, rfl, by decide⟩⟩

theorem witness_earlyErrors :
    ∃ t, exec (.drawImage 0 0 2 1 0x201) (ready 0) = .next t
      ∧ t.lastStatus ∈ [(0x02 : Byte), 0x03, 0x05, 0x06] := ⟨_, rfl, by decide⟩

theorem witness_anyCommand : ∃ t, exec (.line 0 0 3 1 1) (ready 0) = .next t ∧ t.trace ≠ [] :=
  ⟨_, rfl, by decide⟩

theorem witness_writers :
    (∃ t, exec (.setRotation 1) (ready 0) = .next t ∧ t.width = 160)
      ∧ (∃ t, exec (.invert 1) (ready 0) = .next t ∧ t.inv = true)
      ∧ Instr.setRotation 1 ≠ .init ∧ (∀ v, Instr.setRotation 1 ≠ .invert v)
      ∧ ∀ v, Instr.invert 1 ≠ .setRotation v :=
  ⟨⟨_, rfl, by decide⟩, ⟨_, rfl, by decide⟩, by decide, nofun, nofun⟩

theorem witness_errBuf :
    ∃ t, exec (.rect 10 10 3 2 1) (fallible [true, false, true, true] .proceed) = .next t
      ∧ t.lastStatus = 0x04 ∧ t.grantOracle.asked = 4 := ⟨_, rfl, by decide, by decide⟩

theorem witness_abort :
    ∃ t, exec (.rect 10 10 3 2 1) (fallible [true, false, true, true] .abort) = .next t
      ∧ (fallible [true, false, true, true] .abort).cfg.bufFailPolicy = .abort
      ∧ t.lastStatus = 0x04 ∧ t.grantOracle.asked = 2 := ⟨_, rfl, rfl, by decide, by decide⟩

theorem witness_readsMemory :
    readsHostMemory (.drawChar 0 0 1 0x41 1 0) = false
      ∧ ∃ t, exec (.drawChar 0 0 1 0x41 1 0) (ready 0) = .next t := ⟨rfl, _, rfl⟩

theorem witness_init :
    (cold true).busOracle.answerAt Config.busDraw 0 = true
      ∧ (cold false).busOracle.answerAt Config.busDraw 0 = false
      ∧ (cold true).cfg.wf = true := ⟨rfl, rfl, tc_wf⟩

theorem witness_initialised : (ready 0).initDone = true := rfl

theorem witness_rotations : (65535 : Nat) % 4 = 3 ∧ 4 % 4 = 0 ∧ 5 % 4 = 1 ∧ 6 % 4 = 2 := by decide

theorem witness_setWindow : (ready 0).initDone = true ∧ windowOpcodesDistinct (ready 0).cfg :=
  ⟨rfl, ready_distinct⟩

theorem witness_invert : (65535 : Nat) ≠ 0 ∧ (1 : Nat) ≠ 0 := by decide

/-- The last column and row are on screen, the next ones are not; both answers to a grant. -/
theorem witness_fillRect :
    (ready 0).sees 79 159 1 1 ∧ ¬(ready 0).sees 80 159 1 1 ∧ ¬(ready 0).sees 79 160 1 1
      ∧ ¬(ready 0).sees 0 0 0 5 ∧ (ready 0).sees (-4) 0 5 1 ∧ ¬(ready 0).sees (-5) 0 5 1
      ∧ (ready 0).grantGiven = true ∧ (fallible [false] .abort).grantGiven = false
      ∧ (fallible [false] .abort).sees 0 0 1 1
      ∧ (fallible [false] .abort).cfg.bufMayFail = true := by
  simp only [State.sees]
  decide

theorem witness_fillScreen :
    (ready 3).initDone = true ∧ (ready 3).tuple = tupleOf (ready 3).cfg (ready 3).rot
      ∧ (ready 3).grantGiven = true := by decide

theorem witness_drawPixel :
    ((0 : Int) ≤ 79 ∧ (79 : Int) < (ready 0).width.toNat ∧ (0 : Int) ≤ 159
        ∧ (159 : Int) < (ready 0).height.toNat)
      ∧ ¬((0 : Int) ≤ 80 ∧ (80 : Int) < (ready 0).width.toNat) := by decide

/-- The range check at its edge: the array ends at `HMEM_SIZE`, and two bytes beyond it. -/
theorem witness_drawImage :
    (ready 0).sees 0 0 2 1 ∧ 0x2FC % 2 = 0
      ∧ ((0x2FC : Nat) : Int) + 2 * 2 * 1 ≤ (ready 0).cfg.hmemSize
      ∧ ((ready 0).cfg.hmemSize : Int) < (0x2FE : Nat) + 2 * 2 * 1
      ∧ 0x201 % 2 ≠ 0 ∧ ¬(ready 0).sees 100 0 2 1
      ∧ (ready 0).grantGiven = true ∧ (fallible [false] .proceed).grantGiven = false
      ∧ (fallible [false] .proceed).sees 0 0 2 1 := by
  simp only [State.sees]
  decide

theorem witness_lineConnected :
    (linePoints 0 0 1 3)[0]? = some (0, 0) ∧ (linePoints 0 0 1 3)[1]? = some (0, 1)
      ∧ |(3 : Int) - 0| > |(1 : Int) - 0|
      ∧ (linePoints 0 0 3 3)[2]? = some (2, 2) ∧ (linePoints 0 0 3 3)[3]? = some (3, 3)
      ∧ ¬|(3 : Int) - 0| > |(3 : Int) - 0| := by decide

theorem witness_lineSlope :
    (0 : Int) < 3 ∧ |(3 : Int) - 0| ≤ 3 - 0 ∧ |(0 : Int) - 0| ≤ 1 - 0 ∧ |(-3 : Int) - 0| ≤ 3 - 0 := by
  decide

theorem witness_rect :
    (ready 0).initDone = true ∧ (ready 0).grantsAll ∧ (0 : Int) ≤ 0 ∧ (-1 : Int) ≤ 0 :=
  ⟨rfl, ready_grants 0, by decide, by decide⟩

theorem witness_rectRefused :
    (fallible [false, true, true, true] .proceed).initDone = true
      ∧ (fallible [false, true, true, true] .proceed).cfg.bufMayFail = true
      ∧ (fallible [false, true, true, true] .abort).cfg.bufFailPolicy = .abort
      ∧ (78 : Int) + 2 ≤ (fallible [false, true, true, true] .proceed).width.toNat
      ∧ (159 : Int) + 1 ≤ (fallible [false, true, true, true] .proceed).height.toNat
      ∧ (fallible [false, true, true, true] .proceed).grantOracle.answerAt Config.grantDraw 0 = false
      ∧ (fallible [false, true, true, true] .proceed).grantOracle.answerAt Config.grantDraw 1 = true
      ∧ (fallible [false, true, true, true] .proceed).grantOracle.answerAt Config.grantDraw 2 = true
      ∧ (fallible [false, true, true, true] .proceed).grantOracle.answerAt Config.grantDraw 3 = true :=
  ⟨rfl, rfl, rfl, by decide, by decide, rfl, rfl, rfl, rfl⟩

theorem witness_cardinalPoints :
    (ready 0).initDone = true ∧ windowOpcodesDistinct (ready 0).cfg ∧ (ready 0).windowFits
      ∧ (0 : Int) < 1 ∧ (ready 0).onScreen (20 + 1) 20 = true
      ∧ (21, 20) ∈ [((20 : Int), (20 : Int) + 1), (20, 20 - 1), (20 + 1, 20), (20 - 1, 20)] :=
  ⟨rfl, ready_distinct, ready_fits 0, by decide, by decide, by decide⟩

theorem witness_midpoint : (⟨3, 3, 0, 1, 0⟩ : Midpoint) ∈ midpoints 1 ∧ midpoints 0 = [] := by decide

theorem witness_outline :
    (ready 0).initDone = true ∧ (ready 0).grantsAll ∧ windowOpcodesDistinct (ready 0).cfg
      ∧ (ready 0).windowFits ∧ (0 : Int) ≤ 0 ∧ (0 : Int) ≤ 32767
      ∧ (5, 5) ∈ circlePoints 5 5 0 ∧ (ready 0).onScreen 5 5 = true :=
  ⟨rfl, ready_grants 0, ready_distinct, ready_fits 0, by decide, by decide, by decide, by decide⟩

theorem witness_drawChar : (ready 0).initDone = true ∧ (ready 0).grantsAll := ⟨rfl, ready_grants 0⟩

theorem witness_glyphCodes :
    (31 < 32 ∨ 127 < 31) ∧ (128 < 32 ∨ 127 < 128) ∧ TC.wf = true ∧ 32 ≤ 32 ∧ 127 ≤ 127
      ∧ lookupGlyph TC 127 = default ∧ lookupGlyph TC 0x41 = ⟨0x7C, 0x12, 0x11, 0x12, 0x7C⟩ := by
  decide

/-- The box of a glyph at scale 2 in the last place that holds it. -/
theorem witness_writeCounts :
    (ready 0).initDone = true ∧ (ready 0).grantsAll ∧ windowOpcodesDistinct (ready 0).cfg
      ∧ (ready 0).windowFits ∧ 1 ≤ 2 ∧ (68 : Int) + 6 * (2 : Nat) ≤ (ready 0).width.toNat
      ∧ (146 : Int) + 7 * (2 : Nat) ≤ (ready 0).height.toNat :=
  ⟨rfl, ready_grants 0, ready_distinct, ready_fits 0, by decide, by decide, by decide⟩

/-- A background cell of 'A' in the last column and row of the screen, and a glyph wholly off screen. -/
theorem witness_transparent :
    (ready 0).initDone = true ∧ (ready 0).grantsAll ∧ windowOpcodesDistinct (ready 0).cfg
      ∧ (ready 0).windowFits ∧ (0 : Color) ≠ 1 ∧ (ready 0).onScreen 79 159 = true
      ∧ (glyphColumn (lookupGlyph (ready 0).cfg 0x41) 0).getLsbD 0 = false
      ∧ (ready 0).onScreen 80 159 = false :=
  ⟨rfl, ready_grants 0, ready_distinct, ready_fits 0, by decide, by decide, by decide, by decide⟩

theorem witness_string :
    Memory.readString (bytesAt 0x2FD [0x41, 0x0A]) 0x300 0x2FD = some [0x41, 0x0A]
      ∧ Memory.readString (bytesAt 0x2FD [0x41, 0x0A, 0x42]) 0x300 0x2FD = none
      ∧ Memory.readString (bytesAt 0 []) 0x300 0x300 = none
      ∧ Memory.readString (bytesAt 0x10 [0x41, 0x0A, 0x42]) 0x300 0x10 = some [0x41, 0x0A, 0x42]
      ∧ Memory.readString (bytesAt 0x10 [0x41, 0x42]) 0x300 0x10 = some [0x41, 0x42]
      ∧ (0x41 : Byte) ≠ 0x0A ∧ (0x42 : Byte) ≠ 0x0A := by decide

theorem witness_fillPixels :
    (ready 1).initDone = true ∧ (ready 1).grantGiven = true ∧ windowOpcodesDistinct (ready 1).cfg
      ∧ (ready 1).windowFits ∧ (ready 1).sees 150 70 20 20 := by
  refine ⟨rfl, rfl, ready_distinct, ready_fits 1, ?_⟩
  simp only [State.sees]
  decide

theorem witness_drawingCommands :
    (∃ t, exec (.circle 20 20 2 1) (ready 0) = .next t ∧ t.lastStatus = 0x00)
      ∧ (ready 0).initDone = true ∧ (∃ ps, planOf (ready 0) (.circle 20 20 2 1) = some ps)
      ∧ windowOpcodesDistinct (ready 0).cfg ∧ (ready 0).windowFits :=
  ⟨⟨_, rfl, by decide⟩, rfl, ⟨_, rfl⟩, ready_distinct, ready_fits 0⟩

theorem witness_emptyPacket :
    { ready 0 with inputs := [.issue []] }.inputs = .issue [] :: [] := rfl

theorem witness_imagePixels :
    (ready 0).initDone = true ∧ (ready 0).sees 78 0 3 2 ∧ 0x100 % 2 = 0
      ∧ ((0x100 : Nat) : Int) + 2 * 3 * 2 ≤ (ready 0).cfg.hmemSize
      ∧ windowOpcodesDistinct (ready 0).cfg ∧ (ready 0).windowFits ∧ (ready 0).grantGiven = true
      ∧ (fallible [false] .proceed).sees 78 0 3 2 ∧ (fallible [false] .proceed).grantGiven = false := by
  refine ⟨rfl, ?_, by decide, by decide, ready_distinct, ready_fits 0, rfl, ?_, rfl⟩ <;>
    · simp only [State.sees]
      decide

/-- A rotation between two draws; R66 and 70_reset_and_hazards.md R228. -/
def rotated : State := after (.setRotation 1) (after (.drawPixel 3 4 0x1111) (ready 0))

theorem witness_offsets :
    rotated.offsetsLogged ∧ ∃ t, exec (.drawPixel 150 70 0x2222) rotated = .next t := by
  refine ⟨?_, _, rfl⟩
  simp only [State.offsetsLogged]
  decide

/-- The first pixel stays where it was drawn, though the offsets were 26 and 1 for it and are 1 and 26
for the second. -/
theorem test_rotation_between_draws :
    rotated.lpw = [⟨3, 4, 0x1111⟩]
      ∧ (after (.drawPixel 150 70 0x2222) rotated).lpw = [⟨3, 4, 0x1111⟩, ⟨150, 70, 0x2222⟩] := by
  decide

/-- The second edge of a rectangle is refused, the others are not; an off-screen edge asks for none. -/
theorem witness_plans :
    (fallible [true, false, true, true] .proceed).initDone = true
      ∧ planOf (fallible [true, false, true, true] .proceed) (.rect 10 10 3 2 1)
        = some (rectPlan 10 10 3 2 1)
      ∧ (fallible [true, false, true, true] .proceed).cfg.bufFailPolicy = .proceed
      ∧ (fallible [true, false, true, true] .abort).cfg.bufFailPolicy = .abort
      ∧ (rectPlan 10 10 3 2 1)[1]? = some (.fill 10 11 3 1 1)
      ∧ (fallible [true, false, true, true] .abort).refusedAt (rectPlan 10 10 3 2 1) 1
          (.fill 10 11 3 1 1) = true
      ∧ (fallible [true, false, true, true] .abort).refusedAt (rectPlan 10 10 3 2 1) 0
          (.fill 10 10 3 1 1) = false
      ∧ (fallible [false] .abort).refusedAt [.fill 100 0 1 1 1] 0 (.fill 100 0 1 1 1) = false := by
  decide

end Sys2Proof.Tests
end

section
/-! Block reset (10_state.md R39): the values of the registers right after it. -/

namespace Sys2Proof.Machine

open Sys2Proof

/-- `TUPLE[0]` (R8, R39): the entries of rotation 0 and the native, unswapped extents. -/
theorem tupleOf_zero (c : Config) :
    tupleOf c 0 = ⟨c.madctl.r0, c.colStart.r0, c.rowStart.r0, 80, 160⟩ := rfl

/-- Whatever the parameters, reset loads the tuple registers from `TUPLE[0]` (R39). -/
theorem powerOn_tuple (c : Config) : (State.powerOn c).tuple = tupleOf c 0 := rfl

/-- Settles O1: the tuple registers are those of `TUPLE[0]` (R39), and every other register is a
literal of `State.powerOn`. -/
theorem resetHoldsTheValuesOfBlockReset : Obligations.ResetHoldsTheValuesOfBlockReset := by
  have htuple := (powerOn_tuple Config.params.cfg).trans (tupleOf_zero Config.params.cfg)
  obtain ⟨hmadctl, hcol, hrow, hwidth, hheight⟩ := Tuple.mk.inj htuple
  exact ⟨rfl, rfl, hmadctl, hcol, hrow, hwidth, hheight,
    rfl, rfl, rfl, rfl, rfl, rfl, rfl, rfl, rfl⟩

end Sys2Proof.Machine
end

section
/-! Host operand memory and the rest of the environment (20_memory.md R51): no command writes them. -/

namespace Sys2Proof.Machine

open Sys2Proof

/-! ### The operations a command is built of -/

/-- A state with the same environment fields reads every byte of host operand memory the same. -/
theorem KeepsEnvironment.of_fields {s t : State} (hcfg : t.cfg = s.cfg)
    (hmem : t.hostMem = s.hostMem) (hinputs : t.inputs = s.inputs)
    (hpanel : t.panelBase = s.panelBase) : KeepsEnvironment s t :=
  ⟨hcfg, fun a => congrArg (Memory.read · a) hmem, hinputs, hpanel⟩

theorem KeepsEnvironment.trans {s t u : State} (h : KeepsEnvironment s t)
    (k : KeepsEnvironment t u) : KeepsEnvironment s u :=
  ⟨k.cfg.trans h.cfg, fun a => (k.memory a).trans (h.memory a), k.inputs.trans h.inputs,
    k.panelBase.trans h.panelBase⟩

/-- Writing the completion record, as `complete` and `raise` do, keeps the environment. -/
theorem record_keepsEnvironment (st : Status) (v : Halfword) (s : State) :
    KeepsEnvironment s (s.record st v) := .of_fields rfl rfl rfl rfl

theorem emitAll_keepsEnvironment (es : List Event) (s : State) :
    KeepsEnvironment s (s.emitAll es) :=
  .of_fields (emitAll_cfg es s) (emitAll_hostMem es s) (emitAll_inputs es s)
    (emitAll_panelBase es s)

theorem loadTuple_keepsEnvironment (r : Fin 4) (s : State) :
    KeepsEnvironment s (s.loadTuple r) := .of_fields rfl rfl rfl rfl

theorem busOk_keepsEnvironment (s : State) : KeepsEnvironment s s.busOk.2 :=
  .of_fields rfl rfl rfl rfl

/-- A gated command keeps the environment if its body does (R202). -/
theorem gated_keepsEnvironment {body : State → State} {s : State}
    (h : KeepsEnvironment s (body s)) : KeepsEnvironment s (s.gated body) := by
  rw [State.gated]
  split
  · exact h
  · exact record_keepsEnvironment _ _ s

/-! ### The bodies of the panel commands -/

theorem setRotation_keepsEnvironment (v : Nat) (s : State) :
    KeepsEnvironment s (s.setRotation v) :=
  ((loadTuple_keepsEnvironment _ s).trans (emitAll_keepsEnvironment _ _)).trans
    (record_keepsEnvironment _ _ _)

theorem setWindow_keepsEnvironment (x0 y0 x1 y1 : Int) (s : State) :
    KeepsEnvironment s ((s.window x0 y0 x1 y1).complete 0) :=
  (emitAll_keepsEnvironment _ s).trans (record_keepsEnvironment _ _ _)

theorem invert_keepsEnvironment (on : Nat) (s : State) : KeepsEnvironment s (s.invert on) := by
  rw [State.invert]
  split <;> exact .of_fields rfl rfl rfl rfl

theorem initPanel_keepsEnvironment (s : State) : KeepsEnvironment s s.initPanel := by
  have hload : KeepsEnvironment s ((s.emitAll (initEvents s.cfg)).loadTuple 0) :=
    (emitAll_keepsEnvironment _ s).trans (loadTuple_keepsEnvironment 0 _)
  exact hload.trans (.of_fields rfl rfl rfl rfl)

theorem initFailed_keepsEnvironment (s : State) : KeepsEnvironment s s.initFailed :=
  .of_fields rfl rfl rfl rfl

/-- INIT keeps the environment whether the bus is registered or not (R100, R101). -/
theorem init_keepsEnvironment (s : State) :
    KeepsEnvironment s (if s.busOk.1 then s.busOk.2.initPanel else s.busOk.2.initFailed) := by
  refine (busOk_keepsEnvironment s).trans ?_
  split
  · exact initPanel_keepsEnvironment _
  · exact initFailed_keepsEnvironment _

/-! ### Whole commands -/

/-- A command that does not draw keeps the environment. -/
theorem exec_panelCommand_keepsEnvironment (i : Instr) (s t : State)
    (hi : drawingCommand i = false) (h : exec i s = .next t) : KeepsEnvironment s t := by
  rcases exec_panelCommand i s t hi h with ⟨-, rfl⟩ | ⟨-, rfl⟩ | ⟨-, rfl⟩ | ⟨v, -, rfl⟩ |
    ⟨on, -, rfl⟩ | ⟨x0, y0, x1, y1, -, rfl⟩
  · exact init_keepsEnvironment s
  · exact record_keepsEnvironment _ _ s
  · exact record_keepsEnvironment _ _ s
  · exact gated_keepsEnvironment (setRotation_keepsEnvironment v s)
  · exact gated_keepsEnvironment (invert_keepsEnvironment on s)
  · exact gated_keepsEnvironment (setWindow_keepsEnvironment x0 y0 x1 y1 s)

/-- A drawing command keeps the environment: it ends at the gate or within its frame. -/
theorem exec_drawing_keepsEnvironment (i : Instr) (s t : State)
    (hi : drawingCommand i = true) (h : exec i s = .next t) : KeepsEnvironment s t := by
  rcases exec_drawing i s t hi h with ⟨-, rfl⟩ | ⟨-, hdraws⟩
  · exact record_keepsEnvironment _ _ s
  · exact hdraws.frame.panel.environment

/-- Settles O17, by the two kinds of command: those that draw and those that do not. -/
theorem commandsKeepTheEnvironment : Obligations.CommandsKeepTheEnvironment := by
  intro i s t h
  cases hi : drawingCommand i with
  | true => exact exec_drawing_keepsEnvironment i s t hi h
  | false => exact exec_panelCommand_keepsEnvironment i s t hi h

end Sys2Proof.Machine
end

section
/-! SET_WINDOW (20_memory.md R58, 40_panel.md R108): the bytes it sends. -/

namespace Sys2Proof.Machine

open Sys2Proof

/-- The gate lets a command through once the panel is initialised (R202). -/
theorem gated_of_initDone {s : State} (h : s.initDone = true) (body : State → State) :
    s.gated body = body s := if_pos h

/-- The window appends its transport calls, each corner with its offset modulo 2^16, and changes
nothing else (R58, R108). -/
theorem window_eq_calls (x0 y0 x1 y1 : Int) (s : State) :
    s.window x0 y0 x1 y1 = { s with trace := s.trace ++ s.windowCalls x0 y0 x1 y1 } := by
  rw [window_eq, windowEvents_eq_calls]

/-- Once initialised, SET_WINDOW is its window and a completion with value 0 (R108). -/
theorem exec_setWindow_of_initDone {s : State} (h : s.initDone = true) (x0 y0 x1 y1 : Int) :
    exec (.setWindow x0 y0 x1 y1) s = .next ((s.window x0 y0 x1 y1).complete 0) :=
  congrArg Host.Outcome.next (gated_of_initDone h _)

/-- Settles O29: SET_WINDOW is the window's calls and the completion record. -/
theorem setWindowSendsTheOffsetCorners : Obligations.SetWindowSendsTheOffsetCorners := by
  intro s x0 y0 x1 y1 hinit
  rw [exec_setWindow_of_initDone hinit, window_eq_calls]
  rfl

end Sys2Proof.Machine
end

section
/-! INIT (40_panel.md R100 to R104): its events and the state a successful INIT leaves. -/

namespace Sys2Proof.Machine

open Sys2Proof

/-! ### The bus registration (R101) -/

/-- The registration succeeds exactly when the next answer of the bus oracle is true. -/
theorem busOk_fst (s : State) : s.busOk.1 = s.busOracle.answerAt Config.busDraw 0 :=
  Oracle.ask_fst _ _

/-- Registering asks the bus oracle once. -/
theorem busOk_asked (s : State) : s.busOk.2.busOracle.asked = s.busOracle.asked + 1 :=
  Oracle.ask_asked _ _

/-- INIT on a bus that registers is the panel's initialisation. -/
theorem exec_init_of_registered {s : State} (h : s.busOracle.answerAt Config.busDraw 0 = true) :
    exec .init s = .next s.busOk.2.initPanel :=
  congrArg Host.Outcome.next (if_pos ((busOk_fst s).trans h))

/-! ### The events (R100, R102) -/

/-- An entry of `INIT_SEQ` sends its command, its data if it has any, and its delay if positive. -/
theorem initEntryEvents_eq (e : InitEntry) :
    initEntryEvents e =
      [Event.cmd e.cmd] ++ (if e.data ≠ [] then [Event.data e.data] else [])
        ++ (if e.delay > 0 then [Event.delay e.delay] else []) := by
  simp [initEntryEvents]

/-- All events of INIT: the backlight if there is one, the reset pulse, then every entry in order. -/
theorem initEvents_eq (c : Config) :
    initEvents c =
      (if c.pins.backlight.isSome then [.bl true] else [])
        ++ [.rst true, .delay c.tRstHigh, .rst false, .delay c.tRstLow, .rst true, .delay c.tRstWait]
        ++ (c.initSeq.map fun e =>
              [Event.cmd e.cmd] ++ (if e.data ≠ [] then [Event.data e.data] else [])
                ++ (if e.delay > 0 then [Event.delay e.delay] else [])).flatten := by
  rw [initEvents, List.flatMap, funext initEntryEvents_eq, backlightEvents, resetPulse]

/-- INIT drives the backlight line exactly when there is a backlight, and then on. -/
theorem backlightLevels_initEvents (c : Config) :
    backlightLevels (initEvents c) = if c.pins.backlight.isSome then [true] else [] := by
  have hseq : backlightLevels (c.initSeq.flatMap initEntryEvents) = [] := by
    simp only [backlightLevels, List.filterMap_flatMap, List.flatMap_eq_nil_iff]
    intro e _
    simp only [initEntryEvents]
    split <;> split <;> rfl
  have hpulse : backlightLevels (resetPulse c) = [] := rfl
  have hbl : backlightLevels (backlightEvents c)
      = if c.pins.backlight.isSome then [true] else [] := by
    rw [backlightEvents]
    split <;> rfl
  simp [initEvents, backlightLevels_append, hseq, hpulse, hbl]

/-! ### The inversion state (R104) -/

/-- Going through `INIT_SEQ` entry by entry leaves the state its last inversion command names. -/
theorem invAfter_eq_last (c : Config) :
    invAfter c =
      ((c.initSeq.filter fun e => e.cmd == c.cmdInvon || e.cmd == c.cmdInvoff).getLast?.map
        fun e => e.cmd == c.cmdInvon).getD false := by
  rw [invAfter]
  induction c.initSeq using List.reverseRecOn with
  | nil => rfl
  | append_singleton es e ih =>
    rw [List.foldl_append, ih, List.filter_append]
    by_cases hon : e.cmd = c.cmdInvon
    · simp [hon]
    · by_cases hoff : e.cmd = c.cmdInvoff
      · have hne : c.cmdInvoff ≠ c.cmdInvon := fun h => hon (hoff.trans h)
        simp [hoff, hne]
      · simp [hon, hoff]

/-! ### The state after a successful INIT (R102, R104) -/

theorem initPanel_trace (s : State) : s.initPanel.trace = s.trace ++ initEvents s.cfg :=
  emitAll_trace _ s

/-- The tuple registers are loaded from `TUPLE[0]`. -/
theorem initPanel_tuple (s : State) : s.initPanel.tuple = tupleOf s.cfg 0 := by
  simp [State.initPanel, State.tuple]

theorem initPanel_inv (s : State) : s.initPanel.inv = invAfter s.cfg := by
  simp [State.initPanel]

/-- The panel is out of reset. -/
theorem initPanel_rstLvl (s : State) : s.initPanel.rstLvl = some true := by
  simp [State.initPanel, foldl_resetLevel, resetLevels_initEvents]

/-- The backlight is on if there is one; otherwise its line is left alone. -/
theorem initPanel_blLvl (s : State) :
    s.initPanel.blLvl = if s.cfg.pins.backlight.isSome then some true else s.blLvl := by
  simp only [State.initPanel, complete_blLvl, loadTuple_blLvl, emitAll_blLvl, foldl_backlightLevel,
    backlightLevels_initEvents]
  split <;> rfl

theorem initPanel_busOracle (s : State) : s.initPanel.busOracle = s.busOracle :=
  emitAll_busOracle _ s

/-- Initialising the panel asks for no buffer and leaves the latches alone. -/
theorem initPanel_keepsBlitter (s : State) : KeepsBlitter s s.initPanel :=
  ⟨emitAll_lineBuf _ s, emitAll_bufErr _ s, emitAll_aborted _ s, emitAll_grantOracle _ s⟩

/-- Settles O23: the bus registers, and what is left is the panel's initialisation, field by field.
Registering changes the bus oracle only, so every other field of `s.busOk.2` is that of `s`. -/
theorem initRunsTheWholeSequence : Obligations.InitRunsTheWholeSequence := by
  intro s hbus
  have htuple := initPanel_tuple s.busOk.2
  obtain ⟨-, -, -, hwidth, hheight⟩ := Tuple.mk.inj (htuple.trans (tupleOf_zero s.cfg))
  have htrace : s.busOk.2.initPanel.trace = s.trace ++ initEvents s.cfg := initPanel_trace _
  rw [initEvents_eq, ← List.append_assoc, ← List.append_assoc] at htrace
  refine ⟨s.busOk.2.initPanel, exec_init_of_registered hbus, htrace, rfl, rfl, htuple, hwidth, hheight,
    (initPanel_inv _).trans (invAfter_eq_last s.cfg), initPanel_rstLvl _, initPanel_blLvl _,
    ⟨rfl, rfl⟩, (busOk_keepsEnvironment s).trans (initPanel_keepsEnvironment _), ?_, ?_⟩
  · obtain ⟨hline, herr, habort, hgrant⟩ := initPanel_keepsBlitter s.busOk.2
    exact ⟨hline, herr, habort, hgrant⟩
  · rw [initPanel_busOracle, busOk_asked]

end Sys2Proof.Machine
end

section
/-! The fill primitive as a whole command (41_blitter.md R130, R131, R134): nothing for a rectangle
with no on-screen part, and otherwise what the answer to its one grant decides. -/

namespace Sys2Proof.Machine

open Sys2Proof

/-! ### The grant (R134) -/

/-- A grant of any size is given when the allocator cannot fail or the next answer is true. -/
theorem acquire_fst (n : Nat) (s : State) : (s.acquire n).1 = s.grantGiven := by
  cases hmay : s.cfg.bufMayFail with
  | false => simp [acquire_fst_of_never n s hmay, State.grantGiven, hmay]
  | true => simp [acquire_of_may n s hmay, State.grantGiven, hmay]

/-! ### One fill between `begin()` and `finish()` -/

/-- A fill with no on-screen part only ends the command (R130). -/
theorem draw_fill_of_not_sees {s : State} {x y w h : Int} (hs : ¬s.sees x y w h) (c : Color) :
    s.draw [.fill x y w h c] = s.beginDraw.finishDraw := by
  have hclip : s.beginDraw.clip x y w h = none := clip_eq_none s.beginDraw x y w h hs
  have hfill : s.beginDraw.fill x y w h c = s.beginDraw := by simp [State.fill, hclip]
  exact congrArg State.finishDraw hfill

/-- A fill with an on-screen part is the fill of that part (R131). -/
theorem draw_fill_of_sees {s : State} {x y w h : Int} (hs : s.sees x y w h) (c : Color) :
    s.draw [.fill x y w h c]
      = (s.beginDraw.fillClipped (s.screenPart x y w h) c).finishDraw := by
  have hclip : s.beginDraw.clip x y w h = some (s.screenPart x y w h) :=
    clip_eq_screenPart s.beginDraw x y w h hs
  have hfill : s.beginDraw.fill x y w h c = s.beginDraw.fillClipped (s.screenPart x y w h) c := by
    simp [State.fill, hclip]
  exact congrArg State.finishDraw hfill

/-- With its grant given, an on-screen fill sends its window and its scanlines and reports OK. -/
theorem draw_fill_granted {s : State} {x y w h : Int} (hs : s.sees x y w h) (c : Color)
    (hg : s.grantGiven = true) :
    (s.draw [.fill x y w h c]).trace = s.trace ++ s.fillCalls (s.screenPart x y w h) c
      ∧ (s.draw [.fill x y w h c]).completedWith 0x00 0 := by
  rw [draw_fill_of_sees hs, fillClipped_granted _ _ _ ((acquire_fst _ s.beginDraw).trans hg),
    windowEvents_eq_calls, fillLine_eq_wire, finishDraw_of]
  exact ⟨rfl, rfl, rfl⟩

/-- With its grant refused, an on-screen fill sends its window alone and reports ERR_BUF. -/
theorem draw_fill_refused {s : State} {x y w h : Int} (hs : s.sees x y w h) (c : Color)
    (hg : s.grantGiven = false) :
    (s.draw [.fill x y w h c]).trace = s.trace ++ s.rectWindow (s.screenPart x y w h)
      ∧ (s.draw [.fill x y w h c]).completedWith 0x04 0 := by
  rw [draw_fill_of_sees hs, fillClipped_refused _ _ _ ((acquire_fst _ s.beginDraw).trans hg),
    windowEvents_eq_calls, finishDraw_of]
  exact ⟨rfl, rfl, rfl⟩

/-- The fill of a clipped rectangle leaves the grant oracle as its one question does, whatever
the answer. -/
theorem fillClipped_grantOracle (r : Rect) (c : Color) (s : State) :
    (s.fillClipped r c).grantOracle = (s.acquire (2 * r.w.toNat)).2.grantOracle := by
  cases hg : (s.acquire (2 * r.w.toNat)).1 with
  | true => rw [fillClipped_granted r c s hg]
  | false => rw [fillClipped_refused r c s hg]

/-- An on-screen fill asks once where the allocator can fail (R134). -/
theorem draw_fill_asked {s : State} {x y w h : Int} (hs : s.sees x y w h) (c : Color)
    (hmay : s.cfg.bufMayFail = true) :
    (s.draw [.fill x y w h c]).grantOracle.asked = s.grantOracle.asked + 1 := by
  rw [draw_fill_of_sees hs, finishDraw_of]
  change (s.beginDraw.fillClipped (s.screenPart x y w h) c).grantOracle.asked = _
  rw [fillClipped_grantOracle, acquire_of_may _ s.beginDraw hmay]
  exact Oracle.ask_asked _ _

/-! ### FILL_RECT and FILLED_RECT -/

/-- Once initialised, FILL_RECT and FILLED_RECT are the same one fill (R131, R157). -/
theorem exec_fill_of_initDone {s : State} (hinit : s.initDone = true) {x y w h : Int} {c : Color}
    {i : Instr} (hi : i = .fillRect x y w h c ∨ i = .filledRect x y w h c) :
    exec i s = .next (s.draw [.fill x y w h c]) := by
  rcases hi with rfl | rfl <;> exact congrArg Host.Outcome.next (gated_of_initDone hinit _)

/-- Settles O32, by whether the rectangle has an on-screen part and whether its grant is given. -/
theorem fillRectFillsTheOnScreenPart : Obligations.FillRectFillsTheOnScreenPart := by
  intro s x y w h c i hinit hi
  refine ⟨s.draw [.fill x y w h c], exec_fill_of_initDone hinit hi, (draw_draws _ s).frame, ?_,
    fun hs hg => draw_fill_granted hs c hg, fun hs hg => draw_fill_refused hs c hg,
    fun hs hmay => draw_fill_asked hs c hmay⟩
  intro hs
  rw [draw_fill_of_not_sees hs, finishDraw_of]
  exact ⟨rfl, ⟨rfl, rfl⟩, rfl⟩

end Sys2Proof.Machine
end

section
/-! DRAW_PIXEL (41_blitter.md R137, R138): one pixel, with no buffer and no grant. -/

namespace Sys2Proof.Machine

open Sys2Proof

/-- A coordinate is on screen when it lies within the current extents (R137). -/
theorem onScreen_iff (s : State) (x y : Int) :
    s.onScreen x y = true ↔ 0 ≤ x ∧ x < s.width.toNat ∧ 0 ≤ y ∧ y < s.height.toNat := by
  simp only [State.onScreen, Bool.and_eq_true, decide_eq_true_eq]
  omega

/-- Once initialised, DRAW_PIXEL is one pixel primitive (R137). -/
theorem exec_drawPixel_of_initDone {s : State} (hinit : s.initDone = true) (x y : Int) (c : Color) :
    exec (.drawPixel x y c) s = .next (s.draw [.pixel x y c]) :=
  congrArg Host.Outcome.next (gated_of_initDone hinit _)

/-- A command of one pixel appends what the pixel sends, writes the completion record and clears the
latches; the buffer and the grant oracle are not touched (R138). -/
theorem draw_pixel (x y : Int) (c : Color) (s : State) :
    s.draw [.pixel x y c] =
      { s with
        trace := s.trace ++ s.primEvents (.pixel x y c)
        bufErr := false, aborted := false, lastStatus := 0x00, lastValue := 0 } := by
  rw [draw_pixels _ s (by simp), List.flatMap_singleton]
  rfl

/-- Settles O34, by whether the pixel is on screen. -/
theorem drawPixelSendsOnePixel : Obligations.DrawPixelSendsOnePixel := by
  intro s x y c hinit
  refine ⟨s.draw [.pixel x y c], exec_drawPixel_of_initDone hinit x y c, ?_,
    (draw_draws _ s).frame, ?_⟩
  · rw [draw_pixel]
    exact ⟨rfl, rfl⟩
  · rw [draw_pixel, ← onScreen_iff]
    refine ⟨rfl, rfl, fun hon => ?_, fun hoff => ?_⟩
    · simp [State.primEvents, hon]
    · simp [State.primEvents, hoff]

end Sys2Proof.Machine
end

section
/-! DRAW_IMAGE (41_blitter.md R139 to R141): its checks in their order, then the image itself. -/

namespace Sys2Proof.Machine

open Sys2Proof

/-- Once initialised, DRAW_IMAGE is its body (R139). -/
theorem exec_drawImage_of_initDone {s : State} (hinit : s.initDone = true) (x y w h : Int)
    (a : Nat) :
    exec (.drawImage x y w h a) s = .next (s.drawImage x y w h a) :=
  congrArg Host.Outcome.next (gated_of_initDone hinit _)

section
variable {s : State} {x y w h : Int} {a : Nat}

/-! ### The checks (R140) -/

/-- An image with no on-screen part completes whatever its address. -/
theorem drawImage_of_not_sees (hs : ¬s.sees x y w h) :
    s.drawImage x y w h a = s.beginDraw.complete 0 := by
  have hclip : s.beginDraw.clip x y w h = none := clip_eq_none s.beginDraw x y w h hs
  simp only [State.drawImage, hclip]

/-- An image with an on-screen part goes on to the alignment and then to the range. -/
theorem drawImage_of_sees (hs : s.sees x y w h) :
    s.drawImage x y w h a =
      if a % 2 ≠ 0 then s.beginDraw.raise .errSrcAlign
      else if (a : Int) + 2 * w * h > s.cfg.hmemSize then s.beginDraw.raise .errSrcRange
      else s.beginDraw.imageClipped a x y w (s.screenPart x y w h) := by
  have hclip : s.beginDraw.clip x y w h = some (s.screenPart x y w h) :=
    clip_eq_screenPart s.beginDraw x y w h hs
  simp only [State.drawImage, hclip]
  rfl

theorem drawImage_misaligned (hs : s.sees x y w h) (ha : a % 2 ≠ 0) :
    s.drawImage x y w h a = s.beginDraw.raise .errSrcAlign := by
  rw [drawImage_of_sees hs, if_pos ha]

theorem drawImage_beyondMemory (hs : s.sees x y w h) (ha : a % 2 = 0)
    (hr : (s.cfg.hmemSize : Int) < a + 2 * w * h) :
    s.drawImage x y w h a = s.beginDraw.raise .errSrcRange := by
  rw [drawImage_of_sees hs, if_neg (not_not_intro ha), if_pos hr]

theorem drawImage_checked (hs : s.sees x y w h) (ha : a % 2 = 0)
    (hr : (a : Int) + 2 * w * h ≤ s.cfg.hmemSize) :
    s.drawImage x y w h a = s.beginDraw.imageClipped a x y w (s.screenPart x y w h) := by
  rw [drawImage_of_sees hs, if_neg (not_not_intro ha), if_neg (not_lt_of_ge hr)]

/-- An image that a check stops sends nothing and asks for no grant. -/
theorem drawImage_stopped
    (hstop : ¬s.sees x y w h ∨ a % 2 ≠ 0 ∨ (s.cfg.hmemSize : Int) < a + 2 * w * h) :
    (s.drawImage x y w h a).trace = s.trace
      ∧ (s.drawImage x y w h a).grantOracle = s.grantOracle := by
  by_cases hs : s.sees x y w h
  · by_cases ha : a % 2 = 0
    · have hr : (s.cfg.hmemSize : Int) < a + 2 * w * h := by simpa [hs, ha] using hstop
      rw [drawImage_beyondMemory hs ha hr]
      exact ⟨rfl, rfl⟩
    · rw [drawImage_misaligned hs ha]
      exact ⟨rfl, rfl⟩
  · rw [drawImage_of_not_sees hs]
    exact ⟨rfl, rfl⟩

end

/-- Settles O35: each check in turn, and that none of them draws. -/
theorem drawImageChecksInOrder : Obligations.DrawImageChecksInOrder := by
  intro s x y w h a hinit
  refine ⟨s.drawImage x y w h a, exec_drawImage_of_initDone hinit x y w h a,
    (drawImage_draws x y w h a s).frame, fun hs => ?_, fun hs ha => ?_, fun hs ha hr => ?_,
    drawImage_stopped⟩
  · rw [drawImage_of_not_sees hs]
    exact ⟨rfl, rfl⟩
  · rw [drawImage_misaligned hs ha]
    exact ⟨rfl, rfl⟩
  · rw [drawImage_beyondMemory hs ha hr]
    exact ⟨rfl, rfl⟩

/-! ### The image (R139, R141) -/

/-- A pixel element goes out high byte first, from the higher of its two addresses (R53, R57). -/
theorem colorBytes_readPixel (m : Memory) (p : Nat) :
    colorBytes (m.readPixel p) = [m.read (p + 1), m.read p] := by
  simp [colorBytes, Memory.readPixel]

/-- The bytes of a scanline, as reads of host operand memory. -/
theorem imageLine_eq_reads (m : Memory) (a : Nat) (x y w : Int) (r : Rect) (j : Nat) :
    imageLine m a x y w r j =
      (List.range r.w.toNat).flatMap fun k =>
        [m.read (imageAddr a x y w r j k + 1), m.read (imageAddr a x y w r j k)] := by
  simp only [imageLine, colorBytes_readPixel]

section
variable {s : State} {x y w h : Int} {a : Nat} (hs : s.sees x y w h) (ha : a % 2 = 0)
  (hr : (a : Int) + 2 * w * h ≤ s.cfg.hmemSize)
include hs ha hr

/-- With its grant given, a checked image sends its window and its scanlines and reports OK. -/
theorem drawImage_granted (hg : s.grantGiven = true) :
    (s.drawImage x y w h a).completedWith 0x00 0
      ∧ (s.drawImage x y w h a).trace = s.trace ++ s.rectWindow (s.screenPart x y w h)
          ++ (List.range (s.screenPart x y w h).h.toNat).map fun j =>
              .data (imageLine s.hostMem a x y w (s.screenPart x y w h) j) := by
  rw [drawImage_checked hs ha hr,
    imageClipped_granted _ _ _ _ _ _ ((acquire_fst _ s.beginDraw).trans hg), windowEvents_eq_calls,
    List.append_assoc]
  exact ⟨⟨rfl, rfl⟩, rfl⟩

/-- With its grant refused, a checked image sends its window alone and reports ERR_BUF (R141). -/
theorem drawImage_refused (hg : s.grantGiven = false) :
    (s.drawImage x y w h a).completedWith 0x04 0
      ∧ (s.drawImage x y w h a).trace = s.trace ++ s.rectWindow (s.screenPart x y w h) := by
  rw [drawImage_checked hs ha hr,
    imageClipped_refused _ _ _ _ _ _ ((acquire_fst _ s.beginDraw).trans hg), windowEvents_eq_calls]
  exact ⟨⟨rfl, rfl⟩, rfl⟩

end

/-- Settles O36, by the answer to its one grant; the scanlines are read at `imageAddr`, whose stride
is the unclipped width. -/
theorem drawImageStreamsTheOnScreenPart : Obligations.DrawImageStreamsTheOnScreenPart := by
  intro s x y w h a hinit hs ha hr
  refine ⟨s.drawImage x y w h a, exec_drawImage_of_initDone hinit x y w h a,
    (drawImage_draws x y w h a s).frame, fun hg => ?_, drawImage_refused hs ha hr⟩
  have himage := drawImage_granted hs ha hr hg
  simp only [imageLine_eq_reads] at himage
  exact himage

end Sys2Proof.Machine
end

section
/-! The rasterizer commands (42_raster.md): a line and its reverse (R153), RECT with a non-positive
extent (R156), and the cardinal points of CIRCLE (R160). -/

namespace Sys2Proof.Machine

open Sys2Proof

/-! ### LINE (R152, R153) -/

/-- Iterating from the smaller major coordinate takes no account of which endpoint comes first, when
equal major coordinates mean equal endpoints. -/
theorem lineOrdered_comm (steep : Bool) {x0 y0 x1 y1 : Int} (h : x0 = x1 → y0 = y1) :
    lineOrdered steep x0 y0 x1 y1 = lineOrdered steep x1 y1 x0 y0 := by
  rcases lt_trichotomy x0 x1 with hlt | heq | hgt
  · rw [lineOrdered, lineOrdered, if_neg hlt.not_gt, if_pos hlt]
  · rw [heq, h heq]
  · rw [lineOrdered, lineOrdered, if_pos hgt, if_neg hgt.not_gt]

/-- A line has the same points in the same order as its reverse (R153). The extents do not tell the
two apart, and along the major axis the endpoints differ unless they are one point. -/
theorem linePoints_comm (x0 y0 x1 y1 : Int) : linePoints x0 y0 x1 y1 = linePoints x1 y1 x0 y0 := by
  rw [linePoints, linePoints, abs_sub_comm y0 y1, abs_sub_comm x0 x1]
  by_cases hsteep : |y1 - y0| > |x1 - x0|
  · rw [if_pos hsteep, if_pos hsteep, lineOrdered_comm]
    rintro rfl
    simp only [sub_self, abs_zero] at hsteep
    exact absurd hsteep (abs_nonneg _).not_gt
  · rw [if_neg hsteep, if_neg hsteep, lineOrdered_comm]
    rintro rfl
    have hy : |y1 - y0| ≤ 0 := by simpa using hsteep
    exact (sub_eq_zero.1 (abs_nonpos_iff.1 hy)).symm

/-- Settles O38: a line is a function of its points. -/
theorem lineIsSymmetric : Obligations.LineIsSymmetric := by
  intro s x0 y0 x1 y1 c
  change execLine x0 y0 x1 y1 c s = execLine x1 y1 x0 y0 c s
  rw [execLine, execLine, linePoints_comm]

/-! ### RECT (R155, R156) -/

/-- Once initialised, RECT is its four fills (R155). -/
theorem exec_rect_of_initDone {s : State} (hinit : s.initDone = true) (x y w h : Int) (c : Color) :
    exec (.rect x y w h c) s = .next (s.draw (rectPlan x y w h c)) :=
  congrArg Host.Outcome.next (gated_of_initDone hinit _)

/-- With its grants given, RECT sends its four edges, each clipped on its own (R155). -/
theorem draw_rectPlan_granted {s : State} (hg : s.grantsAll) (x y w h : Int) (c : Color) :
    (s.draw (rectPlan x y w h c)).trace = s.trace
        ++ (s.primEvents (.fill x y w 1 c) ++ s.primEvents (.fill x (y + h - 1) w 1 c)
          ++ s.primEvents (.fill x y 1 h c) ++ s.primEvents (.fill (x + w - 1) y 1 h c))
      ∧ (s.draw (rectPlan x y w h c)).completedWith 0x00 0 := by
  obtain ⟨htrace, hstatus, hvalue⟩ := draw_granted (rectPlan x y w h c) s hg
  exact ⟨htrace.trans (by simp [rectPlan]), hstatus, hvalue⟩

/-- A fill with a non-positive extent sends nothing (R130). -/
theorem primEvents_fill_of_nonpos (s : State) {x y w h : Int} (hwh : w ≤ 0 ∨ h ≤ 0) (c : Color) :
    s.primEvents (.fill x y w h c) = [] := by
  have hs : ¬s.sees x y w h := by
    rintro ⟨hw, hh, -⟩
    omega
  simp only [State.primEvents, clip_eq_none s x y w h hs]

/-- Settles O42: of the four edges those with a non-positive extent send nothing. -/
theorem rectWithoutExtentDrawsTwoEdges : Obligations.RectWithoutExtentDrawsTwoEdges := by
  intro s x y w h c hinit hg
  obtain ⟨htrace, hdone⟩ := draw_rectPlan_granted hg x y w h c
  refine ⟨_, exec_rect_of_initDone hinit x y w h c, hdone, fun hw => ?_, fun hh => ?_,
    fun hw hh => ?_⟩
  · simp [htrace, primEvents_fill_of_nonpos s (.inl hw)]
  · simp [htrace, primEvents_fill_of_nonpos s (.inr hh)]
  · simp [htrace, primEvents_fill_of_nonpos s (.inl hw), primEvents_fill_of_nonpos s (.inr hh)]

/-! ### CIRCLE (R159, R160) -/

/-- Once initialised, CIRCLE is a pixel for each of its points (R159). -/
theorem exec_circle_of_initDone {s : State} (hinit : s.initDone = true) (x0 y0 r : Int)
    (c : Color) :
    exec (.circle x0 y0 r c) s = .next (s.draw (pixelPlan (circlePoints x0 y0 r) c)) :=
  congrArg Host.Outcome.next (gated_of_initDone hinit _)

/-- Pixel calls of one colour append what each of them sends. -/
theorem draw_pixelPlan_trace (ps : List (Int × Int)) (c : Color) (s : State) :
    (s.draw (pixelPlan ps c)).trace = s.trace ++ (pixelPlan ps c).flatMap s.primEvents := by
  have hpixels : ∀ q ∈ pixelPlan ps c, ∃ x y c, q = .pixel x y c := by
    intro q hq
    obtain ⟨p, -, rfl⟩ := List.mem_map.1 hq
    exact ⟨p.1, p.2, c, rfl⟩
  rw [draw_pixels _ s hpixels]

/-- Each on-screen point of a pixel plan is among the pixels the plan writes. -/
theorem mem_primPixels_pixelPlan {s : State} {ps : List (Int × Int)} {p : Int × Int} (hp : p ∈ ps)
    (hon : s.onScreen p.1 p.2 = true) (c : Color) :
    ⟨p.1, p.2, c⟩ ∈ (pixelPlan ps c).flatMap s.primPixels := by
  refine List.mem_flatMap.2 ⟨.pixel p.1 p.2 c, List.mem_map_of_mem hp, ?_⟩
  simp [State.primPixels, hon]

/-- Settles O45: the cardinal points head the list of CIRCLE's points, and the panel writes each
on-screen one. -/
theorem circleDrawsItsCardinalPoints : Obligations.CircleDrawsItsCardinalPoints := by
  intro s x0 y0 r c hinit hdistinct hfits _
  refine ⟨_, _, exec_circle_of_initDone hinit x0 y0 r c, draw_pixelPlan_trace _ c s, ?_⟩
  intro p hp hon
  rw [lpw_primsEvents s hdistinct hfits]
  exact mem_primPixels_pixelPlan (List.mem_append_left _ hp) hon c

end Sys2Proof.Machine
end

section
/-! The font commands (43_font.md): which glyph a code selects (R181), the cells a character sends
(R182, R183), and where the second character of a string stands (R187 to R189). -/

namespace Sys2Proof.Machine

open Sys2Proof

/-! ### Glyphs (R180, R181) -/

theorem lookupGlyph_of_outside {code : Nat} (h : code < 32 ∨ 127 < code) (c : Config) :
    lookupGlyph c code = lookupGlyph c 0x3F := by
  rw [lookupGlyph, if_neg (by omega)]
  rfl

/-- The glyph table of a well-formed configuration has an entry for each code from 32 to 127. -/
theorem glyphRom_length_of_wf {c : Config} (h : c.wf = true) : c.glyphRom.length = 96 := by
  simp only [Config.wf, Bool.and_eq_true, decide_eq_true_eq] at h
  obtain ⟨⟨-, hrom⟩, -⟩ := h
  exact hrom

theorem lookupGlyph_of_inside {c : Config} (h : c.wf = true) {code : Nat} (hlo : 32 ≤ code)
    (hhi : code ≤ 127) : c.glyphRom[code - 32]? = some (lookupGlyph c code) := by
  have hlt : code - 32 < c.glyphRom.length := by
    rw [glyphRom_length_of_wf h]
    omega
  rw [lookupGlyph, if_pos ⟨hlo, hhi⟩, List.getD_eq_getElem _ _ hlt, List.getElem?_eq_getElem hlt]

/-- Settles O51: DRAW_CHAR reads its code through the glyph lookup only. -/
theorem outOfRangeCodesDrawTheQuestionMark : Obligations.OutOfRangeCodesDrawTheQuestionMark := by
  refine ⟨fun s x y sc code fg bg hcode => ?_, fun c code hwf hlo hhi =>
    lookupGlyph_of_inside hwf hlo hhi⟩
  change execDrawChar x y sc code fg bg s = execDrawChar x y sc 0x3F fg bg s
  simp only [execDrawChar, charPlan, lookupGlyph_of_outside hcode]

/-! ### The cells of a character (R182, R183) -/

/-- Only a background cell whose background is transparent has no colour (R183). -/
theorem cellColor_eq (set : Bool) (fg bg : Color) :
    cellColor set fg bg = if set = false ∧ bg = fg then none else some (if set then fg else bg) := by
  cases set <;> simp [cellColor]

theorem columnPlan_eq (g : Glyph) (x y : Int) (col sc : Nat) (fg bg : Color) :
    columnPlan g x y col sc fg bg = (List.range 7).flatMap fun row =>
      (cellColor (glyphBit g col row) fg bg).toList.map (cellPrim x y col row sc) := by
  rw [columnPlan]
  congr 1
  funext row
  cases cellColor (glyphBit g col row) fg bg <;> rfl

/-- A cell with a colour sends a pixel at scale 1 and a block at every other scale (R182, R184). -/
theorem primEvents_cellPrim (s : State) (x y : Int) (col row sc : Nat) (c : Color) :
    s.primEvents (cellPrim x y col row sc c) =
      if sc = 1 then s.primEvents (.pixel (x + col) (y + row) c)
      else s.primEvents (.fill (x + col * sc) (y + row * sc) sc sc c) := by
  rw [cellPrim, apply_ite s.primEvents]

/-- The cells of a column send their events from the top down. -/
theorem primEvents_columnPlan (s : State) (g : Glyph) (x y : Int) (col sc : Nat) (fg bg : Color) :
    (columnPlan g x y col sc fg bg).flatMap s.primEvents =
      (List.range 7).flatMap fun row =>
        if glyphBit g col row = false ∧ bg = fg then []
        else s.primEvents (cellPrim x y col row sc (if glyphBit g col row then fg else bg)) := by
  rw [columnPlan_eq, List.flatMap_assoc]
  congr 1
  funext row
  rw [cellColor_eq]
  split <;> simp

/-- The spacing column is one block in the background colour, unless that is transparent (R183). -/
theorem primEvents_spacingPlan (s : State) (x y : Int) (sc : Nat) (fg bg : Color) :
    (spacingPlan x y sc fg bg).flatMap s.primEvents =
      if bg = fg then [] else s.primEvents (.fill (x + 5 * sc) y sc (7 * sc) bg) := by
  by_cases h : bg = fg <;> simp [spacingPlan, h]

/-- Once initialised, DRAW_CHAR is the plan of its character (R182). -/
theorem exec_drawChar_of_initDone {s : State} (hinit : s.initDone = true) (x y : Int)
    (sc code : Nat) (fg bg : Color) :
    exec (.drawChar x y sc code fg bg) s = .next (s.draw (charPlan s.cfg x y code sc fg bg)) :=
  congrArg Host.Outcome.next (gated_of_initDone hinit _)

/-- Settles O50: the plan of a character, column by column and cell by cell. -/
theorem drawCharSendsItsCells : Obligations.DrawCharSendsItsCells := by
  intro s x y sc code fg bg hinit hg
  obtain ⟨htrace, hstatus, hvalue⟩ := draw_granted (charPlan s.cfg x y code sc fg bg) s hg
  refine ⟨_, exec_drawChar_of_initDone hinit x y sc code fg bg, ⟨hstatus, hvalue⟩,
    (draw_draws _ s).frame, ?_⟩
  rw [htrace, charPlan, List.flatMap_append, List.flatMap_assoc, primEvents_spacingPlan,
    ← List.append_assoc]
  simp only [primEvents_columnPlan, primEvents_cellPrim, glyphBit]
  rfl

/-! ### Two characters of a string (R187 to R189) -/

/-- Grants that are all given are all given after a drawing command too. -/
theorem draw_grantsAll (ps : List Prim) {s : State} (hg : s.grantsAll) : (s.draw ps).grantsAll := by
  obtain ⟨k, hk⟩ := runPrims_grants ps s.beginDraw
  refine hg.imp (fun hnever => ?_) fun hall j => ?_
  · rwa [(draw_draws ps s).frame.panel.environment.cfg]
  · rw [State.draw, finishDraw_of]
    exact (hk.answers j).trans (hall (j + k))

/-- What primitives send is left alone by a drawing command. -/
theorem primEvents_of_draws {s t : State} (h : Draws s t) : t.primEvents = s.primEvents := by
  obtain ⟨seg, lb, go, st, rfl, -, -⟩ := h
  funext p
  cases p <;> rfl

/-- With the grants given, two drawing commands send what one command made of both plans sends. -/
theorem draw_draw_trace (ps qs : List Prim) {s : State} (hg : s.grantsAll) :
    ((s.draw ps).draw qs).trace = (s.draw (ps ++ qs)).trace := by
  obtain ⟨hboth, -, -⟩ := draw_granted (ps ++ qs) s hg
  obtain ⟨hfirst, -, -⟩ := draw_granted ps s hg
  obtain ⟨hsecond, -, -⟩ := draw_granted qs _ (draw_grantsAll ps hg)
  rw [hsecond, hfirst, hboth, primEvents_of_draws (draw_draws ps s), List.flatMap_append,
    List.append_assoc]

/-- Once initialised, DRAW_STRING is its body (R187). -/
theorem exec_drawString_of_initDone {s : State} (hinit : s.initDone = true) (x y : Int) (sc : Nat)
    (fg bg : Color) (a : Nat) :
    exec (.drawString x y sc fg bg a) s = .next (s.drawString x y sc fg bg a) :=
  congrArg Host.Outcome.next (gated_of_initDone hinit _)

/-- A string with a terminator is the plan of its bytes from the start cursor (R187). -/
theorem drawString_of_readString {s : State} {a : Nat} {bytes : List Byte}
    (h : s.hostMem.readString s.cfg.hmemSize a = some bytes) (x y : Int) (sc : Nat)
    (fg bg : Color) :
    s.drawString x y sc fg bg a = s.draw (stringPlan s.cfg x sc fg bg bytes x y) := by
  simp only [State.drawString, h]

section
variable {c : Config} {x : Int} {sc : Nat} {fg bg : Color}

theorem stringPlan_nil (cx cy : Int) : stringPlan c x sc fg bg [] cx cy = [] := rfl

/-- A newline moves the cursor to the start column, one line down (R187). -/
theorem stringPlan_newline (rest : List Byte) (cx cy : Int) :
    stringPlan c x sc fg bg (0x0A :: rest) cx cy =
      stringPlan c x sc fg bg rest x (cy + 8 * sc) :=
  if_pos rfl

/-- A character is drawn at the cursor and moves it one place right (R187). -/
theorem stringPlan_char {b : Byte} (hb : b ≠ 0x0A) (rest : List Byte) (cx cy : Int) :
    stringPlan c x sc fg bg (b :: rest) cx cy =
      charPlan c cx cy b.toNat sc fg bg ++ stringPlan c x sc fg bg rest (cx + 6 * sc) cy :=
  if_neg hb

end

/-- A string of two characters, whose plan is that of the first at the start and of the second at
`(x', y')`, leaves the trace of the two drawn one after the other. -/
theorem drawChar_after_drawChar {s : State} (hinit : s.initDone = true) (hg : s.grantsAll)
    {x y x' y' : Int} {sc : Nat} {fg bg : Color} {a : Nat} {p q : Byte} {bytes : List Byte}
    (hread : s.hostMem.readString s.cfg.hmemSize a = some bytes)
    (hplan : stringPlan s.cfg x sc fg bg bytes x y =
      charPlan s.cfg x y p.toNat sc fg bg ++ charPlan s.cfg x' y' q.toNat sc fg bg) :
    ∃ v, exec (.drawChar x' y' sc q.toNat fg bg) (s.draw (charPlan s.cfg x y p.toNat sc fg bg))
        = .next v ∧ v.trace = (s.drawString x y sc fg bg a).trace := by
  have hframe := (draw_draws (charPlan s.cfg x y p.toNat sc fg bg) s).frame
  refine ⟨_, exec_drawChar_of_initDone (hframe.panel.lines.initDone.trans hinit) .., ?_⟩
  rw [hframe.panel.environment.cfg, draw_draw_trace _ _ hg, drawString_of_readString hread, hplan]

/-- Settles O57: the plan of each of the two strings. -/
theorem newlineAndPitchPlaceTheNextCharacter :
    Obligations.NewlineAndPitchPlaceTheNextCharacter := by
  intro s x y sc fg bg a p q hinit hg hp hq
  refine ⟨_, _, exec_drawChar_of_initDone hinit x y sc p.toNat fg bg,
    exec_drawString_of_initDone hinit x y sc fg bg a,
    fun hread => drawChar_after_drawChar hinit hg hread ?_,
    fun hread => drawChar_after_drawChar hinit hg hread ?_⟩
  · rw [stringPlan_char hp, stringPlan_newline, stringPlan_char hq, stringPlan_nil, List.append_nil]
  · rw [stringPlan_char hp, stringPlan_char hq, stringPlan_nil, List.append_nil]

end Sys2Proof.Machine
end

section
/-! The initialisation gate (60_exceptions.md R202): the commands before INIT. -/

namespace Sys2Proof.Machine

open Sys2Proof

/-- The gate stops a command while the panel is not initialised (R202). -/
theorem gated_of_not_initDone {s : State} (h : s.initDone = false) (body : State → State) :
    s.gated body = s.raise .errNotInit := if_neg (Bool.eq_false_iff.mp h)

/-- All that a gated command does stands behind the gate (R202). -/
theorem exec_gatedCommand {i : Instr} (hi : gatedCommand i = true) (s : State) :
    ∃ body, exec i s = .next (s.gated body) := by
  cases i with
  | init | getWidth | getHeight => exact absurd hi Bool.false_ne_true
  | _ => exact ⟨_, rfl⟩

/-- Settles O13: with its body stopped at the gate, a gated command only writes the completion
record. -/
theorem gateStopsCommandsBeforeInit : Obligations.GateStopsCommandsBeforeInit := by
  intro i s hi hinit
  obtain ⟨body, hexec⟩ := exec_gatedCommand hi s
  calc exec i s = .next (s.gated body) := hexec
    _ = .next (s.raise .errNotInit) := congrArg _ (gated_of_not_initDone hinit body)
    _ = .next { s with lastStatus := 0x02, lastValue := 0 } := rfl

end Sys2Proof.Machine
end

section
/-! Packets and commands (30_encoding.md R81 to R89): the two round trips of decode and encode, and the
packets that fail decode. -/

namespace Sys2Proof

/-! ### The packet of a command -/

/-- Every command has the header of `Laws.EncodedHeader.Statement`. -/
theorem encodedHeader (i : Instr) : Laws.EncodedHeader.Statement i := by
  cases i with
  | init => exact Laws.EncodedHeader.init
  | setRotation => exact Laws.EncodedHeader.setRotation _
  | setWindow => exact Laws.EncodedHeader.setWindow ..
  | invert => exact Laws.EncodedHeader.invert _
  | getWidth => exact Laws.EncodedHeader.getWidth
  | getHeight => exact Laws.EncodedHeader.getHeight
  | fillRect => exact Laws.EncodedHeader.fillRect ..
  | drawPixel => exact Laws.EncodedHeader.drawPixel ..
  | drawImage => exact Laws.EncodedHeader.drawImage ..
  | line => exact Laws.EncodedHeader.line ..
  | rect => exact Laws.EncodedHeader.rect ..
  | filledRect => exact Laws.EncodedHeader.filledRect ..
  | circle => exact Laws.EncodedHeader.circle ..
  | filledCircle => exact Laws.EncodedHeader.filledCircle ..
  | drawChar => exact Laws.EncodedHeader.drawChar ..
  | drawString => exact Laws.EncodedHeader.drawString ..

/-- An opcode has one row in the map (R86). -/
theorem opcodeMap_row_unique :
    ∀ row ∈ opcodeMap, ∀ row' ∈ opcodeMap, row.op = row'.op → row = row' := by decide

/-- A packet is the header of its command's row and the operands. -/
theorem encode_eq_cons {row : OpcodeRow} (hrow : row ∈ opcodeMap) {i : Instr}
    (hi : i.opcode = row.op) : encode i = packBytes 0 row.byte :: (encode i).tail := by
  obtain ⟨row', hrow', hop, hhead, -, -⟩ := encodedHeader i
  obtain rfl := opcodeMap_row_unique row hrow row' hrow' (hi.symm.trans hop.symm)
  exact (List.cons_head?_tail hhead).symm

/-! ### Operands -/

/-- The operands of a well-formed command are read back, each from its own field (R82 to R84). -/
theorem decodeOperands_encode {i : Instr} (hwf : i.wf = true) :
    decodeOperands i.opcode (encode i).tail = .ok i := by
  cases i with
  | init | getWidth | getHeight => rfl
  | setRotation v | invert v =>
    simp only [Instr.wf] at hwf
    simp [Instr.opcode, encode, decodeOperands, ofNat_toNat_u16 v hwf, -BitVec.toNat_ofNat]
  | setWindow | fillRect | drawPixel | line | rect | filledRect | circle | filledCircle =>
    simp only [Instr.wf, Bool.and_eq_true] at hwf
    simp [Instr.opcode, encode, decodeOperands, sext16_s16Field, hwf]
  | drawImage =>
    simp only [Instr.wf, Bool.and_eq_true] at hwf
    simp [Instr.opcode, encode, decodeOperands, sext16_s16Field, addrOfHalves_split, hwf]
  | drawChar x y sc code =>
    simp only [Instr.wf, Bool.and_eq_true] at hwf
    obtain ⟨⟨⟨hx, hy⟩, hsc⟩, hcode⟩ := hwf
    simp [Instr.opcode, encode, decodeOperands, sext16_s16Field, hx, hy, ofNat_toNat_u8 sc hsc,
      ofNat_toNat_u8 code hcode, -BitVec.toNat_ofNat]
  | drawString x y sc fg bg a =>
    simp only [Instr.wf, Bool.and_eq_true] at hwf
    obtain ⟨⟨⟨hx, hy⟩, hsc⟩, ha⟩ := hwf
    simp [Instr.opcode, encode, decodeOperands, sext16_s16Field, hx, hy, ofNat_toNat_u8 sc hsc,
      addrOfHalves_split a ha, -BitVec.toNat_ofNat]

theorem wrongLength_ne_ok (op : Opcode) (i : Instr) : wrongLength op ≠ .ok i := nofun

/-- Operands that decode are the operands of a well-formed command of that opcode (R88). -/
theorem encode_of_decodeOperands {op : Opcode} {hs : List Halfword} {i : Instr}
    (h : decodeOperands op hs = .ok i) :
    i.opcode = op ∧ (encode i).tail = hs ∧ i.wf = true := by
  cases op with
  | drawString =>
    simp only [decodeOperands] at h
    split at h
    · next x y sr fg bg alo ahi =>
      split at h
      · next hlo =>
        cases h
        obtain ⟨halo, hahi, hu32⟩ := addr_of_halves alo ahi
        have hsr : packBytes (hiByte sr) 0#8 = sr := by
          conv_rhs => rw [← packBytes_halves sr, hlo]
          rfl
        simp [Instr.opcode, encode, Instr.wf, halo, hahi, hu32, hsr, isU8_toNat]
      · cases h
    · exact absurd h (wrongLength_ne_ok _ i)
  | _ =>
    simp only [decodeOperands] at h
    split at h
    · cases h
      simp [Instr.opcode, encode, Instr.wf, addr_of_halves, isU8_toNat, isU16_toNat]
    · exact absurd h (wrongLength_ne_ok _ i)

/-! ### The round trips -/

/-- Settles O9: the header of a packet selects its command's row, whose operands are read back. -/
theorem decodeOfEncodeIsTheCommand : Obligations.DecodeOfEncodeIsTheCommand := by
  intro i hwf
  rw [decode_encode_operands, decodeOperands_encode hwf]

/-- Settles O10: the header of the packet is that of the row of its opcode, and its operands are those
of the command. -/
theorem encodeOfDecodeIsThePacket : Obligations.EncodeOfDecodeIsThePacket := by
  intro p i h
  cases p with
  | nil => cases h
  | cons h0 hs =>
    obtain ⟨row, hrow, hhead, -, hops⟩ := decode_eq_ok h0 hs i h
    obtain ⟨hop, htail, hwf⟩ := encode_of_decodeOperands hops
    exact ⟨by rw [encode_eq_cons hrow hop, htail, hhead], hwf⟩

/-! ### Packets that fail decode (R87) -/

theorem loByte_toNat (h : Halfword) : (loByte h).toNat = h.toNat % 256 := by
  simp [loByte]

theorem hiByte_toNat (h : Halfword) : (hiByte h).toNat = h.toNat / 256 := by
  have := h.isLt
  simp only [hiByte, BitVec.extractLsb'_toNat, Nat.shiftRight_eq_div_pow]
  omega

theorem packBytes_zero_toNat (b : Byte) : (packBytes 0 b).toNat = b.toNat := by
  exact (BitVec.toNat_append 0#8 b).trans (by simp)

/-- The opcode map has no row for a byte exactly if the byte is none of its opcodes (R89). -/
theorem opcodeRow?_eq_none (b : Byte) :
    opcodeRow? b = none ↔ b.toNat ∉ [0x01, 0x02, 0x03, 0x04, 0x05, 0x06, 0x10, 0x11, 0x12, 0x20, 0x21,
      0x22, 0x23, 0x24, 0x30, 0x31] := by
  have hmem : opcodeRow? b = none ↔ ∀ row ∈ opcodeMap, row.byte.toNat ≠ b.toNat := by
    simp [opcodeRow?, List.find?_eq_none, BitVec.toNat_inj]
  rw [hmem]
  simp [opcodeMap, eq_comm]

/-- The length the map gives an opcode (R86), as the pairs of opcode and length. -/
theorem opcodeMap_length {row : OpcodeRow} (hrow : row ∈ opcodeMap) (n : Nat) :
    (row.byte.toNat, n) ∈ [(0x01, 1), (0x02, 2), (0x03, 5), (0x04, 2), (0x05, 1),
        (0x06, 1), (0x10, 6), (0x11, 4), (0x12, 7), (0x20, 6), (0x21, 6), (0x22, 6), (0x23, 5),
        (0x24, 5), (0x30, 6), (0x31, 8)] ↔ n = row.format.length := by
  revert row
  simp [opcodeMap, Format.length]

/-- Of operands in the right number only those of DRAW_STRING can fail, by the reserved low byte. -/
theorem decodeOperands_error_iff {row : OpcodeRow} (hrow : row ∈ opcodeMap) {hs : List Halfword}
    (hl : hs.length + 1 = row.format.length) :
    (∃ e, decodeOperands row.op hs = .error e) ↔
      row.byte.toNat = 0x31 ∧ ∃ h3, hs[2]? = some h3 ∧ h3.toNat % 256 ≠ 0 := by
  have hlo : ∀ h : Halfword, loByte h = 0#8 ↔ h.toNat % 256 = 0 := fun h => by
    rw [← loByte_toNat, ← BitVec.toNat_inj]; rfl
  revert row
  rcases hs with _ | ⟨h1, _ | ⟨h2, _ | ⟨h3, _ | ⟨h4, _ | ⟨h5, _ | ⟨h6, _ | ⟨h7, _ | ⟨h8, hs⟩⟩⟩⟩⟩⟩⟩⟩ <;>
    simp [opcodeMap, Format.length, decodeOperands]
  by_cases h : loByte h3 = 0#8 <;> simp [h, ← hlo]

/-- The four ways of R87 for a packet with a header. -/
theorem decode_cons_error_iff (h0 : Halfword) (ops : List Halfword) :
    (∃ e, decode (h0 :: ops) = .error e) ↔
      h0.toNat % 256 ∉ [0x01, 0x02, 0x03, 0x04, 0x05, 0x06, 0x10, 0x11, 0x12, 0x20, 0x21, 0x22, 0x23,
          0x24, 0x30, 0x31]
        ∨ h0.toNat / 256 ≠ 0
        ∨ (h0.toNat, ops.length + 1) ∉ [(0x01, 1), (0x02, 2), (0x03, 5), (0x04, 2), (0x05, 1),
            (0x06, 1), (0x10, 6), (0x11, 4), (0x12, 7), (0x20, 6), (0x21, 6), (0x22, 6), (0x23, 5),
            (0x24, 5), (0x30, 6), (0x31, 8)]
        ∨ (h0.toNat = 0x31 ∧ ∃ h3, ops[2]? = some h3 ∧ h3.toNat % 256 ≠ 0) := by
  rw [← loByte_toNat, ← opcodeRow?_eq_none, ← hiByte_toNat]
  cases hr : opcodeRow? (loByte h0) with
  | none => simp [decode, hr]
  | some row =>
    obtain ⟨hrow, hbyte⟩ := opcodeRow?_mem _ _ hr
    by_cases hhi : hiByte h0 = 0
    · have hh0 : h0.toNat = row.byte.toNat := by
        rw [← packBytes_halves h0, hhi, ← hbyte, packBytes_zero_toNat]
      rw [hh0, opcodeMap_length hrow]
      by_cases hl : ops.length + 1 = row.format.length
      · have hdecode : decode (h0 :: ops) = decodeOperands row.op ops := by
          simp [decode, hr, hhi, hl]
        simp [hdecode, decodeOperands_error_iff hrow hl, hhi, hl]
      · simp [decode, hr, hhi, hl]
    · have hdecode : decode (h0 :: ops) = .error (.reservedHeader row.byte) := by
        simp only [decode, hr]
        exact if_pos hhi
      have hne : (hiByte h0).toNat ≠ 0 := fun h => hhi (BitVec.eq_of_toNat_eq h)
      simp [hdecode, hne]

end Sys2Proof

namespace Sys2Proof.Machine

open Sys2Proof

/-- With nothing issued the machine holds its state (R214). -/
theorem step_idle {s : State} (h : s.inputs = []) : step s = .next s := by
  simp only [step, runNext, h]

/-- A step performs the host's next input on the rest of the stream. -/
theorem step_input {s : State} {inp : HostInput} {rest : List HostInput}
    (h : s.inputs = inp :: rest) : step s = runInput inp { s with inputs := rest } := by
  simp only [step, runNext, h]

/-- A step that takes a packet runs it on the rest of the stream. -/
theorem step_issue {s : State} {p : Packet} {rest : List HostInput}
    (h : s.inputs = .issue p :: rest) : step s = runPacket p { s with inputs := rest } :=
  step_input h

/-- A packet that fails decode only writes the completion record (R87). -/
theorem runPacket_of_error {p : Packet} {e : DecodeError} (h : decode p = .error e) (s : State) :
    runPacket p s = .next (s.raise .errIllegal) := by
  simp only [runPacket, h]

/-- A packet that decodes runs its command (R6). -/
theorem runPacket_of_ok {p : Packet} {i : Instr} (h : decode p = .ok i) (s : State) :
    runPacket p s = exec i s := by
  simp only [runPacket, h]

/-- Settles O11, by the checks of decode in their order; the step raises ERR_ILLEGAL and nothing
else. -/
theorem decodeRejectsExactlyTheIllegalPackets :
    Obligations.DecodeRejectsExactlyTheIllegalPackets := by
  refine fun h0 ops => ⟨decode_cons_error_iff h0 ops, rfl, fun s p rest e hs hp => ?_⟩
  rw [step_issue hs, runPacket_of_error hp]
  rfl

/-- Settles O12, by evaluation of the decoder and the assembler on the given packets and lines. -/
theorem workedEncodings : Obligations.WorkedEncodings := by
  refine ⟨rfl, rfl, rfl, rfl, rfl, rfl, ?_, ?_, ?_⟩ <;> decide

end Sys2Proof.Machine
end


section
/-! Host inputs, one step at a time (00_scope.md R6, 20_memory.md R52, 70_reset_and_hazards.md R220),
and the invariant of a state between two commands, at reset and over every step. -/

namespace Sys2Proof.Machine

open Sys2Proof

/-! ### What a step takes from the host's stream -/

theorem hostStore_inside {a : Nat} {s : State} (ha : a < s.cfg.hmemSize) (b : Byte) :
    hostStore a b s = .next { s with hostMem := s.hostMem.write a b } := if_pos ha

theorem hostStore_outside {a : Nat} {s : State} (ha : ¬a < s.cfg.hmemSize) (b : Byte) :
    hostStore a b s = .fault (.hostStoreAbsent a) := if_neg ha

/-- Settles O2: the step is the block reset, which leaves the panel as the emptied trace left it. -/
theorem blockResetRestoresTheResetValues : Obligations.BlockResetRestoresTheResetValues := by
  intro s rest h
  have hstep : step s = .next (State.blockReset { s with inputs := rest }) := step_input h
  obtain ⟨-, -, -, hwidth, hheight⟩ := Tuple.mk.inj (tupleOf_zero s.cfg)
  exact ⟨_, hstep, rfl, rfl, powerOn_tuple s.cfg, hwidth, hheight, rfl, rfl, rfl, ⟨rfl, rfl⟩, rfl, rfl,
    rfl, rfl, rfl, rfl, rfl, fun _ => rfl, rfl, rfl⟩

/-- Settles O5, by whether the host has issued anything. -/
theorem stepRunsTheDecodedPacket : Obligations.StepRunsTheDecodedPacket :=
  ⟨fun _ _ _ _ h hp => (step_issue h).trans (runPacket_of_ok hp _), fun _ h => step_idle h⟩

/-- A table word names a command exactly if its packet decodes to it. -/
theorem decode_packetOfWord {nbits w : Nat} {i : Instr} (h : decodeTableWord nbits w = some i) :
    decode (packetOfWord nbits w) = .ok i := by
  simp only [decodeTableWord] at h
  split at h
  · next hp => rw [hp, Option.some.inj h]
  · cases h

/-- Settles O6: the packet of the word is first in the stream. -/
theorem fetchWordIsRunByTheNextStep : Obligations.FetchWordIsRunByTheNextStep := by
  intro s nbits w i h
  exact (step_issue rfl).trans (runPacket_of_ok (decode_packetOfWord h) s)

/-- Settles O7: no arm of `exec` faults or is refused. -/
theorem everyCommandCompletes : Obligations.EveryCommandCompletes := by
  intro i s
  cases i <;> exact ⟨_, rfl⟩

/-- Settles O8, by whether the address exists; the byte reads back by the laws of memory. -/
theorem hostStoreWritesOneByte : Obligations.HostStoreWritesOneByte := by
  intro s a b rest h
  refine ⟨fun ha hwf => ?_, fun ha => ?_⟩
  · exact ⟨_, (step_input h).trans (hostStore_inside (s := { s with inputs := rest }) ha b),
      Memory.read_write_same _ a b hwf, fun a' hne => Memory.read_write_other _ a a' b hne, rfl⟩
  · exact (step_input h).trans (hostStore_outside (s := { s with inputs := rest }) ha b)

/-! ### The invariant at reset -/

/-- The record of the offsets begins with those of `TUPLE[0]`. -/
theorem powerOn_offsetsLogged (c : Config) : (State.powerOn c).offsetsLogged := by
  refine ⟨rfl, rfl, fun e he => ?_⟩
  rw [List.mem_singleton.1 he]
  exact le_rfl

/-- The invariant holds at power-on with parameters that meet their constraints. -/
theorem State.Inv.powerOn {c : Config} (hc : c.wf = true) : (State.powerOn c).Inv where
  params := hc
  tuple := powerOn_tuple c
  offsets := powerOn_offsetsLogged c
  memory := Memory.wf_nil
  memoryRange := rfl
  framed := rfl
  resetLine := rfl
  backlightLine := rfl
  outOfReset := nofun
  latches := ⟨rfl, rfl⟩
  released := rfl
  status := Status.code_le .ok
  errorValue := fun _ => rfl
  panelMemory := risingCells_nil

/-- Settles O3: the parameters at reset meet their constraints. -/
theorem resetMeetsTheInvariant : Obligations.ResetMeetsTheInvariant :=
  State.Inv.powerOn Config.params.ok

/-! ### The invariant over the operations -/

section
variable {s : State} (hi : s.Inv)
include hi

/-- Block reset: the registers as at power-on, the host's memory as it was, the panel after the
trace. -/
theorem State.Inv.blockReset : s.blockReset.Inv :=
  { State.Inv.powerOn hi.params with
    memory := hi.memory
    memoryRange := hi.memoryRange
    panelMemory := observe_rising _ _ _ hi.panelMemory }

theorem State.Inv.store {a : Nat} (ha : a < s.cfg.hmemSize) (b : Byte) :
    State.Inv { s with hostMem := s.hostMem.write a b } :=
  { hi with
    memory := Memory.wf_write _ a b hi.memory
    memoryRange := Memory.within_write _ a _ b hi.memoryRange ha }

/-- Asking the bus oracle is no matter of the invariant. -/
theorem State.Inv.busOk : s.busOk.2.Inv := { hi with }

/-- Loading a tuple sets the rotation and the registers that go with it (R28). -/
theorem State.Inv.loadTuple (r : Fin 4) : (s.loadTuple r).Inv :=
  { hi with
    tuple := rfl
    offsets := hi.offsets.loadTuple r }

theorem State.Inv.setInv (b : Bool) : State.Inv { s with inv := b } := { hi with }

theorem State.Inv.setRotation (v : Nat) : (s.setRotation v).Inv :=
  ((hi.loadTuple _).emitAll _ rfl rfl).record _ _ (.inr rfl)

theorem State.Inv.setWindow (x0 y0 x1 y1 : Int) : ((s.window x0 y0 x1 y1).complete 0).Inv :=
  (hi.emitAll _ rfl rfl).record _ _ (.inr rfl)

theorem State.Inv.invert (on : Nat) : (s.invert on).Inv := by
  rw [State.invert]
  split
  · exact ((hi.emitAll [.cmd s.cfg.cmdInvon] rfl rfl).setInv true).record _ _ (.inr rfl)
  · exact ((hi.emitAll [.cmd s.cfg.cmdInvoff] rfl rfl).setInv false).record _ _ (.inr rfl)

theorem State.Inv.initFailed : s.initFailed.Inv :=
  State.Inv.record (s := { s with initDone := false }) { hi with outOfReset := nofun } _ _ (.inr rfl)

/-- INIT emits framed events, leaves the panel out of reset and loads the tuple of rotation 0
(R100). -/
theorem State.Inv.initPanel : s.initPanel.Inv := by
  have hlevels := emitAll_levels (initEvents s.cfg) s hi.resetLine hi.backlightLine
  have hoffsets : (s.emitAll (initEvents s.cfg)).offsetsLogged :=
    hi.offsets.grow _ (emitAll_trace _ s) (emitAll_offsetLog _ s) (emitAll_colOff _ s)
      (emitAll_rowOff _ s)
  refine ⟨?_, ?_, hoffsets.loadTuple 0, ?_, ?_, ?_, hlevels.1, hlevels.2, fun _ => initPanel_rstLvl s,
    ?_, ?_, Status.code_le .ok, fun _ => rfl, ?_⟩
  · simpa [State.initPanel] using hi.params
  · rfl
  · simpa [State.initPanel] using hi.memory
  · simpa [State.initPanel] using hi.memoryRange
  · simp [initPanel_trace, framedTrace_append, framedTrace_initEvents, hi.framed]
  · simpa [State.initPanel] using hi.latches
  · simpa [State.initPanel] using hi.released
  · simpa [State.initPanel] using hi.panelMemory

/-- A command that does not draw keeps the invariant. -/
theorem State.Inv.exec_panelCommand {i : Instr} {t : State} (hp : drawingCommand i = false)
    (h : exec i s = .next t) : t.Inv := by
  rcases Machine.exec_panelCommand i s t hp h with ⟨-, rfl⟩ | ⟨-, rfl⟩ | ⟨-, rfl⟩ | ⟨v, -, rfl⟩ |
    ⟨on, -, rfl⟩ | ⟨x0, y0, x1, y1, -, rfl⟩
  · split
    · exact hi.busOk.initPanel
    · exact hi.busOk.initFailed
  · exact hi.record _ _ (.inl rfl)
  · exact hi.record _ _ (.inl rfl)
  · exact hi.gated _ fun _ => hi.setRotation v
  · exact hi.gated _ fun _ => hi.invert on
  · exact hi.gated _ fun _ => hi.setWindow x0 y0 x1 y1

/-- Every command keeps the invariant: it draws, is stopped at the gate, or does not draw. -/
theorem State.Inv.exec {i : Instr} {t : State} (h : exec i s = .next t) : t.Inv := by
  cases hd : drawingCommand i with
  | false => exact hi.exec_panelCommand hd h
  | true =>
    rcases exec_drawing i s t hd h with ⟨-, rfl⟩ | ⟨-, hdraws⟩
    · exact hi.record _ _ (.inr rfl)
    · exact hi.draws hdraws

theorem State.Inv.runPacket {p : Packet} {t : State} (h : runPacket p s = .next t) : t.Inv := by
  cases hp : decode p with
  | ok i =>
    rw [runPacket_of_ok hp] at h
    exact hi.exec h
  | error e =>
    rw [runPacket_of_error hp] at h
    cases h
    exact hi.record _ _ (.inr rfl)

/-- Every host input keeps the invariant. -/
theorem State.Inv.runInput {inp : HostInput} {t : State} (h : runInput inp s = .next t) : t.Inv := by
  cases inp with
  | issue p => exact hi.runPacket h
  | store a b =>
    by_cases ha : a < s.cfg.hmemSize
    · cases (hostStore_inside ha b).symm.trans h
      exact hi.store ha b
    · cases (hostStore_outside ha b).symm.trans h
  | blockReset =>
    cases h
    exact hi.blockReset

end

/-- Settles O4, by the host's next input. -/
theorem stepKeepsTheInvariant : Obligations.StepKeepsTheInvariant := by
  intro s t hi h
  cases hs : s.inputs with
  | nil =>
    cases (step_idle hs).symm.trans h
    exact hi
  | cons inp rest => exact (hi.takeInput rest).runInput ((step_input hs).symm.trans h)

end Sys2Proof.Machine
end

section
/-! The panel commands (40_panel.md): INIT that fails (R101) and the delays of one that does not (R221),
SET_ROTATION (R106), the getters (R113, R114), the panel after SET_WINDOW (R224) and INVERT (R111). -/

namespace Sys2Proof.Machine

open Sys2Proof

/-! ### INIT (R101, R103, R221) -/

/-- INIT on a bus that does not register is the failed one. -/
theorem exec_init_of_refused {s : State} (h : s.busOracle.answerAt Config.busDraw 0 = false) :
    exec .init s = .next s.busOk.2.initFailed :=
  congrArg Host.Outcome.next (if_neg (by simp [busOk_fst, h]))

/-- Settles O24: the failed INIT clears `INIT_DONE`, writes the record and has asked the oracle once. -/
theorem initFailsWithoutTouchingThePanel : Obligations.InitFailsWithoutTouchingThePanel :=
  fun s h => ⟨_, exec_init_of_refused h, rfl, busOk_asked s⟩

/-- The minimum waits of the reset pulse (R221). -/
theorem resetPulse_waits_of_wf {c : Config} (h : c.wf = true) :
    50 ≤ c.tRstHigh ∧ 100 ≤ c.tRstLow ∧ 200 ≤ c.tRstWait := by
  simp only [Config.wf, Bool.and_eq_true, decide_eq_true_eq] at h
  omega

theorem initSeqWf_of_wf {c : Config} (h : c.wf = true) : initSeqWf c.initSeq = true := by
  simp only [Config.wf, Bool.and_eq_true] at h
  obtain ⟨⟨⟨-, hseq⟩, -⟩, -⟩ := h
  exact hseq

/-- An entry of `INIT_SEQ` waits at least as long as its role demands (R103). -/
theorem minDelay_le_of_wf {seq : List InitEntry} (h : initSeqWf seq = true) {e : InitEntry}
    (he : e ∈ seq) : e.role.minDelay ≤ e.delay := by
  simp only [initSeqWf, Bool.and_eq_true, List.all_eq_true] at h
  obtain ⟨⟨⟨hall, -⟩, -⟩, -⟩ := h
  have hwf := hall e he
  simp only [InitEntry.wf, Bool.and_eq_true, decide_eq_true_eq] at hwf
  exact hwf.1

/-- A right `INIT_SEQ` begins with the software reset and ends with another entry, display-on. -/
theorem initSeq_ends_of_wf {seq : List InitEntry} (h : initSeqWf seq = true) :
    ∃ first mid last, seq = first :: (mid ++ [last])
      ∧ first.role = .softwareReset ∧ last.role = .displayOn := by
  simp only [initSeqWf, Bool.and_eq_true, beq_iff_eq, Option.map_eq_some_iff] at h
  obtain ⟨⟨-, first, hhead, hfirst⟩, last, hlast, hon⟩ := h
  obtain ⟨init, rfl⟩ := List.getLast?_eq_some_iff.1 hlast
  cases init with
  | nil =>
    cases hhead
    exact absurd (hfirst.symm.trans hon) (by decide)
  | cons _ mid =>
    cases hhead
    exact ⟨first, mid, last, rfl, hfirst, hon⟩

/-- An entry that waits sends its command, its data if it has any, and its delay (R103). -/
theorem initEntryEvents_of_delay {e : InitEntry} (h : 0 < e.delay) :
    initEntryEvents e =
      [.cmd e.cmd] ++ (if e.data = [] then [] else [.data e.data]) ++ [.delay e.delay] := by
  simp [initEntryEvents, h]

theorem backlightEvents_cases (c : Config) : backlightEvents c = [] ∨ backlightEvents c = [.bl true] := by
  rw [backlightEvents]
  split
  · exact .inr rfl
  · exact .inl rfl

/-- Settles O25: the pulse's waits are parameters, and `INIT_SEQ` is its first entry, the entries
between, and its last. -/
theorem initMeetsTheMinimumDelays : Obligations.InitMeetsTheMinimumDelays := by
  intro s hwf hbus
  have hseq := initSeqWf_of_wf hwf
  obtain ⟨first, mid, last, heq, hfirst, hlast⟩ := initSeq_ends_of_wf hseq
  obtain ⟨hhigh, hlow, hwait⟩ := resetPulse_waits_of_wf hwf
  have hfd : InitRole.softwareReset.minDelay ≤ first.delay :=
    hfirst ▸ minDelay_le_of_wf hseq (by simp [heq])
  have hld : InitRole.displayOn.minDelay ≤ last.delay :=
    hlast ▸ minDelay_le_of_wf hseq (by simp [heq])
  have htrace : s.busOk.2.initPanel.trace = s.trace ++ initEvents s.cfg := initPanel_trace _
  refine ⟨s.busOk.2.initPanel, backlightEvents s.cfg, _, _, _, first, last,
    mid.flatMap initEntryEvents, exec_init_of_registered hbus, by simp [heq], hfirst, ?_, hlast, ?_,
    backlightEvents_cases s.cfg, hhigh, hlow, hwait, hfd, hld⟩
  · rw [heq, ← List.cons_append, List.getLast?_concat]
  · rw [htrace, initEvents, heq, List.flatMap_cons, List.flatMap_append, List.flatMap_singleton,
      initEntryEvents_of_delay (lt_of_lt_of_le (by decide) hfd),
      initEntryEvents_of_delay (lt_of_lt_of_le (by decide) hld), resetPulse]
    simp only [List.append_assoc]

/-! ### SET_ROTATION and the getters (R106, R113, R114) -/

/-- Once initialised, SET_ROTATION is its body (R106). -/
theorem exec_setRotation_of_initDone {s : State} (h : s.initDone = true) (v : Nat) :
    exec (.setRotation v) s = .next (s.setRotation v) :=
  congrArg Host.Outcome.next (gated_of_initDone h _)

/-- SET_ROTATION loads the tuple of its rotation, sends the orientation byte and completes. -/
theorem setRotation_eq (v : Nat) (s : State) :
    s.setRotation v =
      { s.loadTuple (rotationOf v) with
        trace := s.trace ++ [.cmd s.cfg.cmdMadctl, .data [(tupleOf s.cfg (rotationOf v)).madctl]]
        lastStatus := 0x00, lastValue := 0 } := by
  rw [State.setRotation, emitAll_drawn _ _ rfl]
  rfl

theorem setRotation_tuple (v : Nat) (s : State) :
    (s.setRotation v).tuple = tupleOf s.cfg (rotationOf v) := by
  rw [setRotation_eq]
  rfl

theorem rotationOf_eq {v : Nat} {r : Fin 4} (h : v % 4 = r.val) : rotationOf v = r := Fin.ext h

/-- Settles O26: the tuple is that of the operand modulo 4, one case for each rotation. -/
theorem setRotationSelectsTheTuple : Obligations.SetRotationSelectsTheTuple := by
  intro s v hinit
  have htuple : ∀ r : Fin 4, v % 4 = r.val → (s.setRotation v).tuple = tupleOf s.cfg r :=
    fun r hr => by rw [setRotation_tuple, rotationOf_eq hr]
  refine ⟨_, exec_setRotation_of_initDone hinit v, ?_, htuple 0, htuple 1, htuple 2, htuple 3, ?_, ?_,
    setRotation_keepsEnvironment v s, ?_⟩
  all_goals rw [setRotation_eq]
  · rfl
  · rfl
  · exact ⟨rfl, rfl⟩
  · exact ⟨⟨rfl, rfl, rfl⟩, ⟨rfl, rfl, rfl, rfl⟩, rfl, rfl⟩

/-- The extents swap at odd rotations (R8). -/
theorem tupleOf_extents (c : Config) (r : Fin 4) :
    (r.val % 2 = 1 → (tupleOf c r).width = 160 ∧ (tupleOf c r).height = 80)
      ∧ (r.val % 2 = 0 → (tupleOf c r).width = 80 ∧ (tupleOf c r).height = 160) := by
  refine ⟨fun h => ?_, fun h => ?_⟩ <;> simp [tupleOf, h] <;> decide

/-- Settles O28: the getters only write the completion record. -/
theorem gettersReturnTheExtents : Obligations.GettersReturnTheExtents := fun _ => ⟨rfl, rfl⟩

/-- Settles O27: the getters read the extents of the tuple that SET_ROTATION loaded. -/
theorem gettersSwapWithTheRotation : Obligations.GettersSwapWithTheRotation := by
  intro s v hinit
  have htuple := setRotation_tuple v s
  obtain ⟨-, -, -, hwidth, hheight⟩ := Tuple.mk.inj htuple
  obtain ⟨hodd, heven⟩ := tupleOf_extents s.cfg (rotationOf v)
  have hmod : (rotationOf v).val % 2 = v % 2 := Nat.mod_mod_of_dvd v (by decide)
  rw [hmod] at hodd heven
  refine ⟨_, _, _, exec_setRotation_of_initDone hinit v, rfl, rfl, fun h => ?_, fun h => ?_⟩
  · obtain ⟨hw, hh⟩ := hodd h
    exact ⟨⟨rfl, hwidth.trans hw⟩, ⟨rfl, hheight.trans hh⟩⟩
  · obtain ⟨hw, hh⟩ := heven h
    exact ⟨⟨rfl, hwidth.trans hw⟩, ⟨rfl, hheight.trans hh⟩⟩

/-! ### The panel after SET_WINDOW (R62, R63, R224) -/

/-- A coordinate on the wire is taken modulo 2^16 (R58). -/
theorem toNat_ofInt_halfword (v : Int) : ((BitVec.ofInt 16 v).toNat : Int) = v % 65536 := by
  rw [BitVec.toNat_ofInt]
  omega

/-- Settles O30: the trace ends with the window, which leaves the panel waiting at its first pixel. -/
theorem setWindowLeavesThePanelWaiting : Obligations.SetWindowLeavesThePanelWaiting := by
  intro s x0 y0 x1 y1 hinit hdistinct
  have hpanel : ((s.window x0 y0 x1 y1).complete 0).panel =
      s.panel.observe s.cfg (windowEvents s.cfg s.colOff s.rowOff x0 y0 x1 y1) := by
    rw [window_eq]
    exact observe_append s.cfg s.trace _ s.panelBase
  obtain ⟨hwaiting, hwrites⟩ := observe_window s.cfg hdistinct s.colOff s.rowOff x0 y0 x1 y1 s.panel
  rw [← hpanel] at hwaiting hwrites
  obtain ⟨hmode, hpending, hpxs, hpxe, hpys, hpye, hpc, hpr⟩ := hwaiting
  refine ⟨_, exec_setWindow_of_initDone hinit x0 y0 x1 y1, hmode, hpending, ?_, ?_, ?_, ?_,
    hpxs ▸ hpc, hpys ▸ hpr, hwrites⟩
  · rw [hpxs, toNat_ofInt_halfword]
  · rw [hpxe, toNat_ofInt_halfword]
  · rw [hpys, toNat_ofInt_halfword]
  · rw [hpye, toNat_ofInt_halfword]

/-! ### INVERT (R111) -/

/-- Once initialised, INVERT is its body (R111). -/
theorem exec_invert_of_initDone {s : State} (h : s.initDone = true) (on : Nat) :
    exec (.invert on) s = .next (s.invert on) :=
  congrArg Host.Outcome.next (gated_of_initDone h _)

/-- INVERT sends the command of the state it sets. -/
theorem invert_eq (on : Nat) (s : State) :
    s.invert on =
      { s with
        trace := s.trace ++ [.cmd (if on ≠ 0 then s.cfg.cmdInvon else s.cfg.cmdInvoff)]
        inv := decide (on ≠ 0), lastStatus := 0x00, lastValue := 0 } := by
  by_cases h : on = 0
  · subst h
    rfl
  · rw [State.invert, if_pos h, if_pos h, decide_eq_true h]
    rfl

/-- Settles O31, by the operand. -/
theorem invertSetsTheNamedState : Obligations.InvertSetsTheNamedState := by
  intro s on hinit
  rw [exec_invert_of_initDone hinit, invert_eq]
  exact ⟨fun h => by simp [h], fun h => by simp [h]⟩

end Sys2Proof.Machine
end

section
/-! Commands by kind: those made of primitives, DRAW_IMAGE, and a DRAW_STRING with no terminator. -/

namespace Sys2Proof.Machine

open Sys2Proof

/-! ### Plans -/

/-- Once initialised, a command made of primitives is the drawing of its plan. -/
theorem exec_of_plan {i : Instr} {s : State} {ps : List Prim} (hinit : s.initDone = true)
    (hp : planOf s i = some ps) : exec i s = .next (s.draw ps) := by
  cases i with
  | init | setRotation | setWindow | invert | getWidth | getHeight | drawImage => cases hp
  | drawString x y sc fg bg a =>
    obtain ⟨bytes, hread, rfl⟩ := Option.map_eq_some_iff.1 hp
    rw [exec_drawString_of_initDone hinit, drawString_of_readString hread]
  | _ =>
    cases hp
    exact congrArg Host.Outcome.next (gated_of_initDone hinit _)

/-- Every drawing command stands behind the gate (R202). -/
theorem gatedCommand_of_drawing {i : Instr} (hi : drawingCommand i = true) :
    gatedCommand i = true := by
  cases i with
  | init | getWidth | getHeight => cases hi
  | _ => rfl

/-- DRAW_STRING of a string with no terminator ends with ERR_SRC_RANGE (R187). -/
theorem drawString_unterminated {s : State} {a : Nat}
    (h : s.hostMem.readString s.cfg.hmemSize a = none) (x y : Int) (sc : Nat) (fg bg : Color) :
    s.drawString x y sc fg bg a = s.beginDraw.raise .errSrcRange := by
  simp only [State.drawString, h]

/-- What an initialised drawing command ends in. -/
theorem exec_drawing_initialised {i : Instr} {s t : State} (hi : drawingCommand i = true)
    (hinit : s.initDone = true) (h : exec i s = .next t) :
    (∃ ps, planOf s i = some ps ∧ t = s.draw ps)
      ∨ (∃ x y w h a, i = .drawImage x y w h a ∧ t = s.drawImage x y w h a)
      ∨ ∃ x y sc fg bg a, i = .drawString x y sc fg bg a
          ∧ s.hostMem.readString s.cfg.hmemSize a = none ∧ t = s.beginDraw.raise .errSrcRange := by
  cases hp : planOf s i with
  | some ps => exact .inl ⟨ps, rfl, Host.Outcome.next.inj (h.symm.trans (exec_of_plan hinit hp))⟩
  | none =>
    refine .inr ?_
    cases i with
    | drawImage x y w h' a =>
      exact .inl ⟨x, y, w, h', a, rfl,
        Host.Outcome.next.inj (h.symm.trans (exec_drawImage_of_initDone hinit x y w h' a))⟩
    | drawString x y sc fg bg a =>
      have hread := Option.map_eq_none_iff.1 hp
      rw [exec_drawString_of_initDone hinit, drawString_unterminated hread] at h
      exact .inr ⟨x, y, sc, fg, bg, a, rfl, hread, (Host.Outcome.next.inj h).symm⟩
    | init | setRotation | setWindow | invert | getWidth | getHeight => cases hi
    | _ => cases hp

/-- What DRAW_IMAGE ends in: a check that stops it, or an image with an on-screen part. -/
theorem drawImage_cases (x y w h : Int) (a : Nat) (s : State) :
    s.drawImage x y w h a = s.beginDraw.complete 0
      ∨ s.drawImage x y w h a = s.beginDraw.raise .errSrcAlign
      ∨ s.drawImage x y w h a = s.beginDraw.raise .errSrcRange
      ∨ ∃ r : Rect, 0 < r.w ∧ s.drawImage x y w h a = s.beginDraw.imageClipped a x y w r := by
  by_cases hs : s.sees x y w h
  · rw [drawImage_of_sees hs]
    refine .inr ?_
    split
    · exact .inl rfl
    · split
      · exact .inr (.inl rfl)
      · have hw := (clip_pos _ _ _ _ _ _ _ (clip_eq_screenPart s x y w h hs)).1
        exact .inr (.inr ⟨_, hw, rfl⟩)
  · exact .inl (drawImage_of_not_sees hs)

/-- DRAW_IMAGE, whatever its operands. -/
def isImage (i : Instr) : Prop := ∃ x y w h a, i = .drawImage x y w h a

/-- One fact about every drawing command: it holds of a command stopped at the gate, of every plan, of a
command whose operand is out of range, of an image with no on-screen part or a misaligned address, and of
an image with an on-screen part. -/
theorem exec_drawing_induction {i : Instr} {s t : State} {P : State → Prop}
    (hi : drawingCommand i = true) (h : exec i s = .next t)
    (gate : P (s.raise .errNotInit)) (plan : ∀ ps, planOf s i = some ps → P (s.draw ps))
    (range : readsHostMemory i = true → P (s.beginDraw.raise .errSrcRange))
    (complete : isImage i → P (s.beginDraw.complete 0))
    (align : isImage i → P (s.beginDraw.raise .errSrcAlign))
    (image : isImage i → ∀ x y w a r, 0 < Rect.w r → P (s.beginDraw.imageClipped a x y w r)) :
    P t := by
  rcases exec_drawing i s t hi h with ⟨-, rfl⟩ | ⟨hinit, -⟩
  · exact gate
  · rcases exec_drawing_initialised hi hinit h with ⟨ps, hps, rfl⟩ | ⟨x, y, w, e, a, rfl, rfl⟩ |
      ⟨x, y, sc, fg, bg, a, rfl, -, rfl⟩
    · exact plan ps hps
    · have hi : isImage (.drawImage x y w e a) := ⟨x, y, w, e, a, rfl⟩
      rcases drawImage_cases x y w e a s with he | he | he | ⟨r, hr, he⟩ <;> rw [he]
      · exact complete hi
      · exact align hi
      · exact range rfl
      · exact image hi x y w a r hr
    · exact range rfl

/-! ### Statuses (R200) -/

theorem statusAllowed_ok (i : Instr) : statusAllowed i 0x00 := by
  cases i with
  | getWidth | getHeight => rfl
  | _ => exact .inl rfl

theorem statusAllowed_notInit {i : Instr} (hi : gatedCommand i = true) : statusAllowed i 0x02 := by
  cases i <;> simp [gatedCommand, statusAllowed] at hi ⊢

theorem pixelPlan_pixels (ps : List (Int × Int)) (c : Color) :
    ∀ q ∈ pixelPlan ps c, ∃ x y c, q = .pixel x y c := by
  intro q hq
  obtain ⟨p, -, rfl⟩ := List.mem_map.1 hq
  exact ⟨p.1, p.2, c, rfl⟩

/-- A plan is made of pixels, or its command may report ERR_BUF. -/
theorem planOf_pixels_or_errBuf {i : Instr} {s : State} {ps : List Prim} (hp : planOf s i = some ps) :
    (∀ p ∈ ps, ∃ x y c, p = .pixel x y c) ∨ statusAllowed i 0x04 := by
  cases i with
  | init | setRotation | setWindow | invert | getWidth | getHeight | drawImage => cases hp
  | drawPixel =>
    cases hp
    exact .inl (by simp)
  | line | circle =>
    cases hp
    exact .inl (pixelPlan_pixels _ _)
  | fillRect | rect | filledRect | filledCircle | drawChar | drawString =>
    exact .inr (by simp [statusAllowed])

/-- A plan ends with OK or with ERR_BUF, and with value 0. -/
theorem draw_status (ps : List Prim) (s : State) :
    (s.draw ps).lastValue = 0 ∧ (s.draw ps).lastStatus =
      (if (s.beginDraw.runPrims ps).bufErr then Status.errBuf else Status.ok).code := by
  rw [State.draw, finishDraw_of]
  exact ⟨rfl, rfl⟩

/-- An image ends with OK if its grant is given and with ERR_BUF if it is refused. -/
theorem imageClipped_status (a : Nat) (x y w : Int) (r : Rect) (s : State) :
    (s.imageClipped a x y w r).completedWith (if s.grantGiven then 0x00 else 0x04) 0 := by
  rw [← acquire_fst (2 * r.w.toNat) s]
  cases hg : (s.acquire (2 * r.w.toNat)).1 with
  | true =>
    rw [imageClipped_granted a x y w r s hg]
    exact ⟨rfl, rfl⟩
  | false =>
    rw [imageClipped_refused a x y w r s hg]
    exact ⟨rfl, rfl⟩

/-- The statuses of the drawing commands, and their value. -/
theorem exec_drawing_status {i : Instr} {s t : State} (hi : drawingCommand i = true)
    (h : exec i s = .next t) : statusAllowed i t.lastStatus ∧ t.lastValue = 0 := by
  refine exec_drawing_induction (P := fun t => statusAllowed i t.lastStatus ∧ t.lastValue = 0) hi h
    ⟨statusAllowed_notInit (gatedCommand_of_drawing hi), rfl⟩
    (fun ps hps => ?_) (fun hm => ⟨?_, rfl⟩) (fun _ => ⟨statusAllowed_ok i, rfl⟩)
    (fun hm => ⟨?_, rfl⟩) (fun hm x y w a r _ => ?_)
  · refine ⟨?_, (draw_status ps s).1⟩
    rcases planOf_pixels_or_errBuf hps with hpix | hbuf
    · rw [draw_pixels ps s hpix]
      exact statusAllowed_ok i
    · rw [(draw_status ps s).2]
      split
      · exact hbuf
      · exact statusAllowed_ok i
  · cases i <;> simp [readsHostMemory, statusAllowed, Status.code] at hm ⊢
  · obtain ⟨x, y, w, e, a, rfl⟩ := hm
    simp [statusAllowed, Status.code]
  · obtain ⟨x', y', w', e', a', rfl⟩ := hm
    obtain ⟨hstatus, hvalue⟩ := imageClipped_status a x y w r s.beginDraw
    refine ⟨?_, hvalue⟩
    rw [hstatus]
    split <;> simp [statusAllowed]

/-- A gated command whose body completes ends with OK or at the gate. -/
theorem gated_status {i : Instr} (hi : gatedCommand i = true) {body : State → State} {s : State}
    (h : (body s).completedWith 0x00 0) :
    statusAllowed i (s.gated body).lastStatus ∧ (s.gated body).lastValue = 0 := by
  obtain ⟨hstatus, hvalue⟩ := h
  rw [State.gated]
  split
  · exact ⟨hstatus ▸ statusAllowed_ok i, hvalue⟩
  · exact ⟨statusAllowed_notInit hi, rfl⟩

/-- The statuses of the commands that do not draw, and their value: only the getters return one. -/
theorem exec_panelCommand_status {i : Instr} {s t : State} (hi : drawingCommand i = false)
    (h : exec i s = .next t) :
    statusAllowed i t.lastStatus ∧ (i = .getWidth ∨ i = .getHeight ∨ t.lastValue = 0) := by
  rcases exec_panelCommand i s t hi h with ⟨rfl, rfl⟩ | ⟨rfl, rfl⟩ | ⟨rfl, rfl⟩ | ⟨v, rfl, rfl⟩ |
    ⟨on, rfl, rfl⟩ | ⟨x0, y0, x1, y1, rfl, rfl⟩
  · split
    · exact ⟨.inl rfl, .inr (.inr rfl)⟩
    · exact ⟨.inr rfl, .inr (.inr rfl)⟩
  · exact ⟨rfl, .inl rfl⟩
  · exact ⟨rfl, .inr (.inl rfl)⟩
  · exact (gated_status rfl ⟨rfl, rfl⟩).imp_right fun h => .inr (.inr h)
  · exact (gated_status rfl ⟨rfl, rfl⟩).imp_right fun h => .inr (.inr h)
  · exact (gated_status rfl ⟨rfl, rfl⟩).imp_right fun h => .inr (.inr h)

/-- Settles O14, by the kind of command; a getter's status is OK, so its value may be any. -/
theorem statusesAreThoseOfTheTable : Obligations.StatusesAreThoseOfTheTable := by
  intro i s t h
  cases hi : drawingCommand i with
  | true =>
    obtain ⟨hstatus, hvalue⟩ := exec_drawing_status hi h
    exact ⟨hstatus, fun _ => hvalue, fun _ _ => hvalue⟩
  | false =>
    obtain ⟨hstatus, rfl | rfl | hvalue⟩ := exec_panelCommand_status hi h
    · exact ⟨hstatus, fun hne => absurd hstatus hne, fun hne => absurd rfl hne⟩
    · exact ⟨hstatus, fun hne => absurd hstatus hne, fun _ hne => absurd rfl hne⟩
    · exact ⟨hstatus, fun _ => hvalue, fun _ _ => hvalue⟩

end Sys2Proof.Machine
end

section
/-! Rules of every command: early errors (R203), the writers of the registers (R23), and ERR_BUF and the
grants (41_blitter.md R135, R142). -/

namespace Sys2Proof.Machine

open Sys2Proof

/-! ### Early errors (R203) -/

theorem gated_early {body : State → State} {s : State} (hbody : (body s).completedWith 0x00 0)
    (he : (s.gated body).lastStatus ∈ [(0x02 : Byte), 0x03, 0x05, 0x06]) :
    (s.gated body).trace = s.trace := by
  rw [State.gated] at he ⊢
  split at he
  · exact absurd (hbody.1 ▸ he) (by decide)
  · next hinit => rw [if_neg hinit]; rfl

/-- Settles O15: what ends with an early error has not drawn, and what has emitted ends otherwise. -/
theorem earlyErrorsEmitNothing : Obligations.EarlyErrorsEmitNothing := by
  intro i s t h
  cases hi : drawingCommand i with
  | true =>
    refine exec_drawing_induction
      (P := fun t => t.lastStatus ∈ [(0x02 : Byte), 0x03, 0x05, 0x06] → t.trace = s.trace) hi h
      (fun _ => rfl) (fun ps _ he => ?_) (fun _ _ => rfl) (fun _ _ => rfl) (fun _ _ => rfl)
      (fun _ x y w a r _ he => ?_)
    · rw [(draw_status ps s).2] at he
      split at he <;> exact absurd he (by decide)
    · rw [(imageClipped_status a x y w r s.beginDraw).1] at he
      split at he <;> exact absurd he (by decide)
  | false =>
    intro he
    rcases exec_panelCommand i s t hi h with ⟨-, rfl⟩ | ⟨-, rfl⟩ | ⟨-, rfl⟩ | ⟨v, -, rfl⟩ |
      ⟨on, -, rfl⟩ | ⟨x0, y0, x1, y1, -, rfl⟩
    · split at he
      · exact absurd he (by decide : (0x00 : Byte) ∉ _)
      · next hbus => rw [if_neg hbus]; rfl
    · rfl
    · rfl
    · exact gated_early ⟨rfl, rfl⟩ he
    · exact gated_early ⟨rfl, rfl⟩ he
    · exact gated_early ⟨rfl, rfl⟩ he

/-! ### Who writes a register (R23) -/

/-- What every command but INIT leaves, and all but SET_ROTATION and INVERT. -/
structure KeepsRegisters (i : Instr) (s t : State) : Prop where
  lines : KeepsPanelLines s t
  busOracle : t.busOracle = s.busOracle
  orientation : (∀ v, i ≠ .setRotation v) → KeepsOrientation s t
  inv : (∀ v, i ≠ .invert v) → t.inv = s.inv

theorem KeepsRegisters.of_record (i : Instr) (st : Status) (v : Halfword) (s : State) :
    KeepsRegisters i s (s.record st v) :=
  ⟨⟨rfl, rfl, rfl⟩, rfl, fun _ => ⟨rfl, rfl, rfl, rfl, rfl, rfl, rfl⟩, fun _ => rfl⟩

theorem KeepsRegisters.gated {i : Instr} {body : State → State} {s : State}
    (h : KeepsRegisters i s (body s)) : KeepsRegisters i s (s.gated body) := by
  rw [State.gated]
  split
  · exact h
  · exact .of_record i _ _ s

theorem KeepsRegisters.setRotation (v : Nat) (s : State) :
    KeepsRegisters (.setRotation v) s (s.setRotation v) := by
  rw [setRotation_eq]
  exact ⟨⟨rfl, rfl, rfl⟩, rfl, fun h => absurd rfl (h v), fun _ => rfl⟩

theorem KeepsRegisters.invert (on : Nat) (s : State) :
    KeepsRegisters (.invert on) s (s.invert on) := by
  rw [invert_eq]
  exact ⟨⟨rfl, rfl, rfl⟩, rfl, fun _ => ⟨rfl, rfl, rfl, rfl, rfl, rfl, rfl⟩, fun h => absurd rfl (h on)⟩

theorem KeepsRegisters.setWindow (i : Instr) (x0 y0 x1 y1 : Int) (s : State) :
    KeepsRegisters i s ((s.window x0 y0 x1 y1).complete 0) := by
  rw [window_eq]
  exact ⟨⟨rfl, rfl, rfl⟩, rfl, fun _ => ⟨rfl, rfl, rfl, rfl, rfl, rfl, rfl⟩, fun _ => rfl⟩

theorem DrawFrame.keepsRegisters {s t : State} (h : DrawFrame s t) (i : Instr) :
    KeepsRegisters i s t :=
  ⟨h.panel.lines, h.busOracle, fun _ => h.panel.orientation, fun _ => h.inv⟩

/-- Every command but INIT keeps the registers that are not its own. -/
theorem exec_keepsRegisters {i : Instr} {s t : State} (h : exec i s = .next t) (hne : i ≠ .init) :
    KeepsRegisters i s t := by
  cases hi : drawingCommand i with
  | true =>
    rcases exec_drawing i s t hi h with ⟨-, rfl⟩ | ⟨-, hdraws⟩
    · exact .of_record i _ _ s
    · exact hdraws.frame.keepsRegisters i
  | false =>
    rcases exec_panelCommand i s t hi h with ⟨rfl, -⟩ | ⟨-, rfl⟩ | ⟨-, rfl⟩ | ⟨v, rfl, rfl⟩ |
      ⟨on, rfl, rfl⟩ | ⟨x0, y0, x1, y1, -, rfl⟩
    · exact absurd rfl hne
    · exact .of_record i _ _ s
    · exact .of_record i _ _ s
    · exact KeepsRegisters.gated (body := State.setRotation v) (.setRotation v s)
    · exact KeepsRegisters.gated (body := State.invert on) (.invert on s)
    · exact KeepsRegisters.gated (body := fun u => (u.window x0 y0 x1 y1).complete 0)
        (.setWindow i x0 y0 x1 y1 s)

/-- Settles O18. -/
theorem registersAreWrittenByTheirWritersOnly :
    Obligations.RegistersAreWrittenByTheirWritersOnly := by
  intro i s t h hne
  obtain ⟨hlines, hbus, horient, hinv⟩ := exec_keepsRegisters h hne
  exact ⟨hlines, hbus, horient, hinv⟩

/-! ### ERR_BUF and the grants (R135, R142) -/

/-- The status of a command tells what it was answered: it is ERR_BUF exactly if a grant was refused,
and under ABORT that grant was the last and its window ends the trace. -/
structure ReportsGrants (s t : State) : Prop where
  errBuf : t.lastStatus = 0x04 ↔ ∃ j, j < t.grantOracle.asked - s.grantOracle.asked
    ∧ s.grantOracle.answerAt Config.grantDraw j = false
  given : s.cfg.bufFailPolicy = .abort → ∀ j, j + 1 < t.grantOracle.asked - s.grantOracle.asked →
    s.grantOracle.answerAt Config.grantDraw j = true
  last : s.cfg.bufFailPolicy = .abort → t.lastStatus = 0x04 →
    t.trace.getLast? = some (.cmd s.cfg.cmdRamwr)

/-- A command that asks for no grant reports no refusal. -/
theorem ReportsGrants.of_unasked {s t : State} (hgrant : t.grantOracle = s.grantOracle) {st : Byte}
    (hstatus : t.lastStatus = st) (hne : st ≠ 0x04) : ReportsGrants s t where
  errBuf := by simpa [hgrant, hstatus] using hne
  given := by simp [hgrant]
  last := fun _ h => absurd (hstatus ▸ h) hne

/-- A plan reports its refused grants (R142). -/
theorem ReportsGrants.draw (ps : List Prim) (s : State) : ReportsGrants s (s.draw ps) := by
  obtain ⟨k, hk⟩ := runPrims_grants ps s.beginDraw
  have hdraw : s.draw ps = (s.beginDraw.runPrims ps).finishDraw := rfl
  have hasked : (s.draw ps).grantOracle.asked - s.grantOracle.asked = k := by
    rw [hdraw, finishDraw_of]
    change (s.beginDraw.runPrims ps).grantOracle.asked - s.grantOracle.asked = k
    rw [hk.asked, beginDraw_grantOracle, Nat.add_sub_cancel_left]
  have hstatus : (s.draw ps).lastStatus = 0x04 ↔ (s.beginDraw.runPrims ps).bufErr = true := by
    rw [(draw_status ps s).2]
    cases (s.beginDraw.runPrims ps).bufErr <;> decide
  refine ⟨?_, fun hp => ?_, fun hp he => ?_⟩
  · rw [hstatus, hasked, hk.bufErr]
    simp
  · rw [hasked]
    exact hk.abort hp rfl
  · rw [hdraw, finishDraw_of]
    exact hk.last hp rfl rfl (hstatus.1 he)

/-- An image reports its one grant (R141). -/
theorem ReportsGrants.image (a : Nat) (x y w : Int) (r : Rect) (s : State) :
    ReportsGrants s (s.beginDraw.imageClipped a x y w r) := by
  cases hmay : s.cfg.bufMayFail with
  | false =>
    have hacq := acquire_fst_of_never (2 * r.w.toNat) s.beginDraw hmay
    rw [imageClipped_granted a x y w r _ (by rw [hacq])]
    exact .of_unasked (by rw [hacq]; rfl) (st := Status.ok.code) rfl (by decide)
  | true =>
    have hacq := acquire_of_may (2 * r.w.toNat) s.beginDraw hmay
    have hasked : ((s.beginDraw.acquire (2 * r.w.toNat)).2.grantOracle).asked
        = s.grantOracle.asked + 1 := by
      rw [hacq]
      exact Oracle.ask_asked _ _
    have hfst : (s.beginDraw.acquire (2 * r.w.toNat)).1
        = s.grantOracle.answerAt Config.grantDraw 0 := by
      rw [hacq]
      rfl
    cases hg : (s.beginDraw.acquire (2 * r.w.toNat)).1 with
    | true =>
      rw [imageClipped_granted a x y w r _ hg]
      rw [hfst] at hg
      exact ⟨by simp [hasked, hg, Status.code], by simp [hasked], by simp [Status.code]⟩
    | false =>
      rw [imageClipped_refused a x y w r _ hg]
      rw [hfst] at hg
      exact ⟨by simp [hasked, hg, Status.code], by simp [hasked],
        fun _ _ => windowEvents_getLast ..⟩

theorem gated_grantOracle {body : State → State} {s : State}
    (h : (body s).grantOracle = s.grantOracle) : (s.gated body).grantOracle = s.grantOracle := by
  rw [State.gated]
  split
  · exact h
  · rfl

/-- A command that does not draw asks for no grant. -/
theorem exec_panelCommand_grantOracle {i : Instr} {s t : State} (hi : drawingCommand i = false)
    (h : exec i s = .next t) : t.grantOracle = s.grantOracle := by
  rcases exec_panelCommand i s t hi h with ⟨-, rfl⟩ | ⟨-, rfl⟩ | ⟨-, rfl⟩ | ⟨v, -, rfl⟩ |
    ⟨on, -, rfl⟩ | ⟨x0, y0, x1, y1, -, rfl⟩
  · split
    · exact (initPanel_keepsBlitter _).grantOracle
    · rfl
  · rfl
  · rfl
  · exact gated_grantOracle (by rw [setRotation_eq]; rfl)
  · exact gated_grantOracle (by rw [invert_eq])
  · exact gated_grantOracle (window_grantOracle x0 y0 x1 y1 s)

/-- ERR_BUF is a status of drawing commands only (R200). -/
theorem drawing_of_errBuf_allowed {i : Instr} (h : statusAllowed i 0x04) : drawingCommand i = true := by
  cases i <;> simp [statusAllowed, drawingCommand] at h ⊢

/-- The status of every command tells of its grants. -/
theorem exec_reportsGrants {i : Instr} {s t : State} (h : exec i s = .next t) : ReportsGrants s t := by
  cases hi : drawingCommand i with
  | true =>
    exact exec_drawing_induction hi h (.of_unasked rfl (raise_lastStatus ..) (by decide))
      (fun ps _ => .draw ps s) (fun _ => .of_unasked rfl (raise_lastStatus ..) (by decide))
      (fun _ => .of_unasked rfl (complete_lastStatus ..) (by decide))
      (fun _ => .of_unasked rfl (raise_lastStatus ..) (by decide))
      (fun _ x y w a r _ => .image a x y w r s)
  | false =>
    refine .of_unasked (exec_panelCommand_grantOracle hi h) rfl fun he => ?_
    have hallowed := (exec_panelCommand_status hi h).1
    rw [he] at hallowed
    exact absurd (drawing_of_errBuf_allowed hallowed) (by simp [hi])

/-- Settles O19. -/
theorem errBufIffAGrantWasRefused : Obligations.ErrBufIffAGrantWasRefused :=
  fun _ _ _ h => (exec_reportsGrants h).errBuf

/-- Settles O20. -/
theorem abortEndsTheCommandAtTheRefusedGrant :
    Obligations.AbortEndsTheCommandAtTheRefusedGrant :=
  fun _ _ _ h hp => ⟨(exec_reportsGrants h).given hp, (exec_reportsGrants h).last hp⟩

end Sys2Proof.Machine
end

section
/-! What a command does not depend on: the inversion state (40_panel.md R112) and, but for DRAW_IMAGE
and DRAW_STRING, host operand memory (20_memory.md R50). -/

namespace Sys2Proof.Machine

open Sys2Proof

/-! ### Panel commands -/

theorem emitAll_other (b : Bool) (m : Memory) (es : List Event) (s : State) :
    (s.other b m).emitAll es = (s.emitAll es).other b m := by
  rw [emitAll_eq, emitAll_eq]
  rfl

theorem setRotation_other (b : Bool) (m : Memory) (v : Nat) (s : State) :
    (s.other b m).setRotation v = (s.setRotation v).other b m := by
  rw [setRotation_eq, setRotation_eq]
  rfl

/-- INVERT sets the same inversion state whatever it was. -/
theorem invert_other (b : Bool) (m : Memory) (on : Nat) (s : State) :
    (s.other b m).invert on = (s.invert on).other (s.invert on).inv m := by
  rw [invert_eq, invert_eq]
  rfl

/-- So does INIT. -/
theorem initPanel_other (b : Bool) (m : Memory) (s : State) :
    (s.other b m).initPanel = s.initPanel.other s.initPanel.inv m := by
  have hemit : (s.other b m).emitAll (initEvents (s.other b m).cfg)
      = (s.emitAll (initEvents s.cfg)).other b m := emitAll_other b m _ s
  simp only [State.initPanel, hemit]
  rfl

theorem initFailed_other (b : Bool) (m : Memory) (s : State) :
    (s.other b m).initFailed = s.initFailed.other b m := rfl

/-- Over another inversion state and another memory a state transformer does the same, and the inversion
state is in the end the one it found or the one it sets. -/
def SameOver (b : Bool) (m : Memory) (body : State → State) (s : State) : Prop :=
  ∃ b', body (s.other b m) = (body s).other b' m ∧ (b = s.inv → b' = (body s).inv)

theorem SameOver.of_kept {b : Bool} {m : Memory} {body : State → State} {s : State}
    (h : body (s.other b m) = (body s).other b m) (hinv : (body s).inv = s.inv) :
    SameOver b m body s := ⟨b, h, fun hb => hb.trans hinv.symm⟩

theorem SameOver.of_set {b : Bool} {m : Memory} {body : State → State} {s : State}
    (h : body (s.other b m) = (body s).other (body s).inv m) : SameOver b m body s :=
  ⟨_, h, fun _ => rfl⟩

theorem SameOver.gated {b : Bool} {m : Memory} {body : State → State} {s : State}
    (h : SameOver b m body s) : SameOver b m (State.gated body) s := by
  cases hd : s.initDone with
  | true =>
    obtain ⟨b', hb', hinv⟩ := h
    exact ⟨b', by rw [gated_of_initDone hd, gated_of_initDone (s := s.other b m) hd, hb'],
      by rwa [gated_of_initDone hd]⟩
  | false =>
    refine .of_kept ?_ ?_ <;> rw [gated_of_not_initDone hd]
    · exact gated_of_not_initDone (s := s.other b m) hd _
    · rfl

/-- INIT asks the bus oracle, which is neither. -/
theorem SameOver.init (b : Bool) (m : Memory) (s : State) :
    SameOver b m (fun s => if s.busOk.1 then s.busOk.2.initPanel else s.busOk.2.initFailed) s := by
  have hbus : (s.other b m).busOk = (s.busOk.1, s.busOk.2.other b m) := rfl
  cases hok : s.busOk.1 with
  | true => exact .of_set (by simpa only [hbus, hok, if_true] using initPanel_other b m s.busOk.2)
  | false => exact .of_kept (by simp only [hbus, hok]; rfl) (by simp only [hok]; rfl)

theorem SameOver.setRotation (b : Bool) (m : Memory) (v : Nat) (s : State) :
    SameOver b m (State.setRotation v) s := by
  refine .of_kept (setRotation_other b m v s) ?_
  rw [setRotation_eq]
  rfl

theorem SameOver.invert (b : Bool) (m : Memory) (on : Nat) (s : State) :
    SameOver b m (State.invert on) s := .of_set (invert_other b m on s)

theorem SameOver.setWindow (b : Bool) (m : Memory) (x0 y0 x1 y1 : Int) (s : State) :
    SameOver b m (fun u => (u.window x0 y0 x1 y1).complete 0) s := by
  refine .of_kept ?_ (window_inv x0 y0 x1 y1 s)
  exact congrArg (State.complete 0) (window_other b m x0 y0 x1 y1 s)

/-- A command that does not draw does the same. -/
theorem exec_panelCommand_other {i : Instr} {s t : State} (hi : drawingCommand i = false)
    (h : exec i s = .next t) (b : Bool) (m : Memory) :
    ∃ b', exec i (s.other b m) = .next (t.other b' m) ∧ (b = s.inv → b' = t.inv) := by
  have of_body : ∀ body : State → State, SameOver b m body s →
      exec i (s.other b m) = .next (body (s.other b m)) → t = body s →
      ∃ b', exec i (s.other b m) = .next (t.other b' m) ∧ (b = s.inv → b' = t.inv) := by
    rintro body ⟨b', hbody, hinv⟩ hexec rfl
    exact ⟨b', hexec.trans (congrArg _ hbody), hinv⟩
  rcases exec_panelCommand i s t hi h with ⟨rfl, ht⟩ | ⟨rfl, ht⟩ | ⟨rfl, ht⟩ | ⟨v, rfl, ht⟩ |
    ⟨on, rfl, ht⟩ | ⟨x0, y0, x1, y1, rfl, ht⟩
  · exact of_body (fun s => if s.busOk.1 then s.busOk.2.initPanel else s.busOk.2.initFailed)
      (.init b m s) rfl ht
  · exact of_body (fun s => s.complete s.width) (.of_kept rfl rfl) rfl ht
  · exact of_body (fun s => s.complete s.height) (.of_kept rfl rfl) rfl ht
  · exact of_body _ (SameOver.setRotation b m v s).gated rfl ht
  · exact of_body _ (SameOver.invert b m on s).gated rfl ht
  · exact of_body _ (SameOver.setWindow b m x0 y0 x1 y1 s).gated rfl ht

/-! ### Drawing commands -/

/-- The plan of a command that does not read host operand memory does not depend on it, and no plan
depends on the inversion state. -/
theorem planOf_other {i : Instr} (b : Bool) {m : Memory} {s : State}
    (hm : readsHostMemory i = false ∨ m = s.hostMem) : planOf (s.other b m) i = planOf s i := by
  cases i with
  | drawString =>
    rcases hm with hm | rfl
    · cases hm
    · rfl
  | _ => rfl

/-- An image drawn over another inversion state. -/
theorem imageClipped_other (b : Bool) (a : Nat) (x y w : Int) (r : Rect) (s : State) :
    (s.other b s.hostMem).imageClipped a x y w r
      = (s.imageClipped a x y w r).other b s.hostMem := by
  have hacq := acquire_other b s.hostMem (2 * r.w.toNat) s
  cases hg : (s.acquire (2 * r.w.toNat)).1 with
  | true =>
    rw [imageClipped_granted a x y w r s hg, imageClipped_granted a x y w r _ (by rw [hacq, hg]), hacq]
    rfl
  | false =>
    rw [imageClipped_refused a x y w r s hg, imageClipped_refused a x y w r _ (by rw [hacq, hg]), hacq]
    rfl

/-- DRAW_IMAGE does not depend on the inversion state. -/
theorem drawImage_other (b : Bool) (x y w h : Int) (a : Nat) (s : State) :
    (s.other b s.hostMem).drawImage x y w h a
      = (s.drawImage x y w h a).other b s.hostMem := by
  by_cases hs : s.sees x y w h
  · have hs' : (s.other b s.hostMem).sees x y w h := hs
    have himage := imageClipped_other b a x y w (s.screenPart x y w h) s.beginDraw
    rw [drawImage_of_sees hs, drawImage_of_sees hs']
    by_cases ha : a % 2 ≠ 0
    · rw [if_pos ha, if_pos ha]
      rfl
    · rw [if_neg ha, if_neg ha, apply_ite (State.other b s.hostMem)]
      exact if_congr Iff.rfl rfl himage
  · rw [drawImage_of_not_sees hs, drawImage_of_not_sees (s := s.other b s.hostMem) hs]
    rfl

theorem draw_inv (ps : List Prim) (s : State) : (s.draw ps).inv = s.inv := (draw_draws ps s).frame.inv

/-- A drawing command does the same over another inversion state, and over another memory if it does not
read host operand memory. -/
theorem exec_drawing_other {i : Instr} {s t : State} (hi : drawingCommand i = true)
    (h : exec i s = .next t) (b : Bool) {m : Memory}
    (hm : readsHostMemory i = false ∨ m = s.hostMem) :
    exec i (s.other b m) = .next (t.other b m) := by
  cases hinit : s.initDone with
  | false =>
    have hgated := gatedCommand_of_drawing hi
    cases h.symm.trans (gateStopsCommandsBeforeInit i s hgated hinit)
    exact gateStopsCommandsBeforeInit i (s.other b m) hgated hinit
  | true =>
    have hinit' : (s.other b m).initDone = true := hinit
    rcases exec_drawing_initialised hi hinit h with ⟨ps, hps, rfl⟩ | ⟨x, y, w, e, a, rfl, rfl⟩ |
      ⟨x, y, sc, fg, bg, a, rfl, hread, rfl⟩
    · rw [exec_of_plan hinit' ((planOf_other b hm).trans hps), draw_other]
    · obtain rfl : m = s.hostMem := hm.resolve_left (by simp [readsHostMemory])
      rw [exec_drawImage_of_initDone hinit', drawImage_other]
    · obtain rfl : m = s.hostMem := hm.resolve_left (by simp [readsHostMemory])
      rw [exec_drawString_of_initDone hinit',
        drawString_unterminated (s := s.other b s.hostMem) hread]
      rfl

/-- A command over another inversion state, and over another memory if it does not read host operand
memory. -/
theorem exec_other {i : Instr} {s t : State} (h : exec i s = .next t) (b : Bool) {m : Memory}
    (hm : readsHostMemory i = false ∨ m = s.hostMem) :
    ∃ b', exec i (s.other b m) = .next (t.other b' m) ∧ (b = s.inv → b' = t.inv) := by
  cases hi : drawingCommand i with
  | false => exact exec_panelCommand_other hi h b m
  | true =>
    refine ⟨b, exec_drawing_other hi h b hm, fun hb => hb.trans ?_⟩
    rcases exec_drawing i s t hi h with ⟨-, rfl⟩ | ⟨-, hdraws⟩
    · rfl
    · exact hdraws.frame.inv.symm

/-- Settles O21: another inversion state over the same memory. -/
theorem inversionChangesNothingSent : Obligations.InversionChangesNothingSent := by
  intro i s t b h
  obtain ⟨b', hexec, -⟩ := exec_other h b (m := s.hostMem) (.inr rfl)
  exact ⟨_, hexec, rfl, rfl, rfl⟩

/-- Settles O22: another memory and the same inversion state. -/
theorem onlyImageAndStringReadHostMemory : Obligations.OnlyImageAndStringReadHostMemory := by
  intro i s t m hi h
  obtain ⟨b', hexec, hinv⟩ := exec_other h s.inv (m := m) (.inl hi)
  obtain rfl := hinv rfl
  exact hexec

end Sys2Proof.Machine
end

section
/-! The trace only grows (60_exceptions.md R204), and so do the logical pixel writes of the whole trace
(20_memory.md R66). -/

namespace Sys2Proof.Machine

open Sys2Proof

/-! ### Segments that open with a command byte -/

theorem opensWithCommand_append {a b : List Event} (ha : opensWithCommand a = true)
    (hb : opensWithCommand b = true) : opensWithCommand (a ++ b) = true := by
  induction a with
  | nil => exact hb
  | cons e a ih =>
    cases e with
    | cmd => rfl
    | data => cases ha
    | rst | delay | bl => exact ih ha

theorem opensWithCommand_primEvents (s : State) (p : Prim) :
    opensWithCommand (s.primEvents p) = true := by
  cases p with
  | fill x y w h c =>
    simp only [State.primEvents]
    split <;> rfl
  | pixel x y c =>
    simp only [State.primEvents]
    split <;> rfl

theorem opensWithCommand_windowAlone (s : State) (p : Prim) :
    opensWithCommand (s.windowAlone p) = true := by cases p <;> rfl

/-- INIT opens its first stream, if any, with a command byte (R100). -/
theorem opensWithCommand_initEvents (c : Config) : opensWithCommand (initEvents c) = true := by
  have hseq : opensWithCommand (c.initSeq.flatMap initEntryEvents) = true := by
    cases c.initSeq <;> rfl
  refine opensWithCommand_append (opensWithCommand_append ?_ rfl) hseq
  rcases backlightEvents_cases c with h | h <;> rw [h] <;> rfl

/-- From `s` to `t` the trace has grown by a segment of framed calls that opens with a command byte. -/
def Grows (s t : State) : Prop :=
  ∃ seg, t.trace = s.trace ++ seg ∧ framedTrace seg = true ∧ opensWithCommand seg = true

theorem Grows.of_trace {s t : State} (h : t.trace = s.trace) : Grows s t :=
  ⟨[], by rw [h, List.append_nil], rfl, rfl⟩

theorem runPrims_opens (ps : List Prim) (s : State) :
    ∃ seg, (s.runPrims ps).trace = s.trace ++ seg ∧ opensWithCommand seg = true := by
  induction ps generalizing s with
  | nil => exact ⟨[], (List.append_nil _).symm, rfl⟩
  | cons p ps ih =>
    obtain ⟨seg, hseg, hopens⟩ := ih (s.runPrim p)
    rw [runPrims_cons, hseg]
    cases ha : s.aborted with
    | true => exact ⟨seg, by rw [runPrim_aborted p s ha], hopens⟩
    | false =>
      rw [(runPrim_answered p s ha).1, List.append_assoc]
      refine ⟨_, rfl, opensWithCommand_append ?_ hopens⟩
      split
      · exact opensWithCommand_windowAlone s p
      · exact opensWithCommand_primEvents s p

/-- A drawing that opens with a command byte grows the trace. -/
theorem Draws.grows {s t : State} (h : Draws s t)
    (hopens : ∃ seg, t.trace = s.trace ++ seg ∧ opensWithCommand seg = true) : Grows s t := by
  obtain ⟨seg, lb, go, st, rfl, hdrawn, -⟩ := h
  obtain ⟨seg', hseg, hopens⟩ := hopens
  obtain rfl := List.append_cancel_left hseg
  exact ⟨seg, rfl, framedTrace_of_drawn seg hdrawn, hopens⟩

theorem draw_grows (ps : List Prim) (s : State) : Grows s (s.draw ps) := by
  refine (draw_draws ps s).grows ?_
  obtain ⟨seg, hseg, hopens⟩ := runPrims_opens ps s.beginDraw
  refine ⟨seg, ?_, hopens⟩
  rw [State.draw, finishDraw_of]
  exact hseg

theorem imageClipped_grows (a : Nat) (x y w : Int) {r : Rect} (hr : 0 < r.w) (s : State) :
    Grows s (s.beginDraw.imageClipped a x y w r) := by
  refine (imageClipped_draws a x y w r s hr).grows ?_
  cases hg : (s.beginDraw.acquire (2 * r.w.toNat)).1 with
  | true =>
    rw [imageClipped_granted a x y w r _ hg]
    exact ⟨_, rfl, rfl⟩
  | false =>
    rw [imageClipped_refused a x y w r _ hg]
    exact ⟨_, rfl, rfl⟩

theorem exec_drawing_grows {i : Instr} {s t : State} (hi : drawingCommand i = true)
    (h : exec i s = .next t) : Grows s t :=
  exec_drawing_induction hi h (.of_trace rfl) (fun ps _ => draw_grows ps s) (fun _ => .of_trace rfl)
    (fun _ => .of_trace rfl) (fun _ => .of_trace rfl)
    (fun _ x y w a _ hr => imageClipped_grows a x y w hr s)

/-! ### The logical pixel writes of the whole trace (R66) -/

/-- The trace grows, and from a right record of the offsets the record stays
right and the logical pixel writes grow by those of the segment. -/
def GrowsLogically (s t : State) : Prop :=
  ∃ seg, t.trace = s.trace ++ seg ∧ framedTrace seg = true
    ∧ (s.offsetsLogged →
        t.offsetsLogged ∧ t.lpw = s.lpw ++ lpw s.cfg s.panel s.colOff s.rowOff seg)

/-- A command that loads no tuple is read by the offsets it finds. -/
theorem Grows.logically {s t : State} (h : Grows s t) (henv : KeepsEnvironment s t)
    (horient : KeepsOrientation s t) : GrowsLogically s t := by
  obtain ⟨seg, htrace, hframed, hopens⟩ := h
  refine ⟨seg, htrace, hframed, fun hlog => ?_⟩
  have hlog' := hlog.grow seg htrace horient.offsetLog horient.colOff horient.rowOff
  have hat : ∀ k, t.offsetsAt k = s.offsetsAt k := offsetsAt_of_log hlog horient.offsetLog
  refine ⟨hlog', lpw_grow s t seg ⟨s.colOff, s.rowOff⟩ henv.cfg henv.panelBase htrace
    (fun k _ => hat k) (fun k hk _ => ?_) hopens⟩
  rw [hat, offsetsAt_current hlog k hk]

theorem command_pending (c : Config) (b : Byte) (p : Panel) : (p.command c b).pending = none := by
  simp only [Panel.command]
  split
  · rfl
  · split
    · rfl
    · split <;> rfl

/-- The first byte of a pair completes no pixel (R64). -/
theorem dataByte_first (c : Config) (b : Byte) {p : Panel} (h : p.pending = none) :
    (p.dataByte c b).writes = p.writes := by
  by_cases hm : p.mode = .write
  · simp [Panel.dataByte, hm, Panel.writeByte, h]
  · exact (dataByte_writes c p b).2.2 hm

/-- A command with one data byte completes no pixel, whatever the command byte is. -/
theorem lpw_command_byte (c : Config) (p : Panel) (co ro : Halfword) (b v : Byte) :
    lpw c p co ro [.cmd b, .data [v]] = [] := by
  have hwrites : (p.observe c [.cmd b, .data [v]]).writes = p.writes :=
    (dataByte_first c v (command_pending c b p)).trans (command_outside c b p).1
  simp only [lpw, hwrites, List.drop_length, List.map_nil]

/-- SET_ROTATION completes no pixel; its events stand after the tuple is loaded. -/
theorem setRotation_growsLogically (v : Nat) (s : State) : GrowsLogically s (s.setRotation v) := by
  have htrace : (s.setRotation v).trace = s.trace
      ++ [.cmd s.cfg.cmdMadctl, .data [(tupleOf s.cfg (rotationOf v)).madctl]] := by
    rw [setRotation_eq]
  have hload : (s.setRotation v).offsetLog = (s.loadTuple (rotationOf v)).offsetLog := by
    rw [setRotation_eq]
  have hoff : (s.setRotation v).colOff = (s.loadTuple (rotationOf v)).colOff
      ∧ (s.setRotation v).rowOff = (s.loadTuple (rotationOf v)).rowOff := by
    rw [setRotation_eq]
    exact ⟨rfl, rfl⟩
  have henv := setRotation_keepsEnvironment v s
  refine ⟨_, htrace, rfl, fun hlog => ?_⟩
  have hlog' := hlog.loadTuple (rotationOf v)
  have hgrow := lpw_grow s (s.setRotation v) _ _ henv.cfg henv.panelBase htrace
    (fun k hk => offsetsAt_loaded hlog _ _ hload k hk)
    (fun k hk _ => (offsetsAt_of_log hlog' hload k).trans (offsetsAt_current hlog' k hk)) rfl
  refine ⟨hlog'.grow _ htrace hload hoff.1 hoff.2, ?_⟩
  rw [hgrow, lpw_command_byte, lpw_command_byte]

/-- INIT loads its tuple after its last event, so it is read by the offsets it finds. -/
theorem initPanel_growsLogically (s : State) : GrowsLogically s s.initPanel := by
  have htrace := initPanel_trace s
  have hload : s.initPanel.offsetLog =
      ⟨(s.emitAll (initEvents s.cfg)).trace.length,
        ⟨s.initPanel.colOff, s.initPanel.rowOff⟩⟩ :: s.offsetLog := by
    simp [State.initPanel]
  have henv := initPanel_keepsEnvironment s
  refine ⟨_, htrace, framedTrace_initEvents s.cfg, fun hlog => ?_⟩
  have hemit : (s.emitAll (initEvents s.cfg)).offsetsLogged :=
    hlog.grow _ (emitAll_trace _ s) (emitAll_offsetLog _ s) (emitAll_colOff _ s) (emitAll_rowOff _ s)
  have hat : ∀ k, k < s.trace.length + (initEvents s.cfg).length →
      s.initPanel.offsetsAt k = s.offsetsAt k := fun k hk =>
    offsetsAt_loaded hlog _ _ hload k (by rwa [emitAll_trace, List.length_append])
  refine ⟨hemit.loadTuple 0, ?_⟩
  exact lpw_grow s _ _ ⟨s.colOff, s.rowOff⟩ henv.cfg henv.panelBase htrace
    (fun k hk => hat k (by omega))
    (fun k hk hk' => (hat k hk').trans (offsetsAt_current hlog k hk))
    (opensWithCommand_initEvents s.cfg)

/-- Writing the completion record grows nothing. -/
theorem record_growsLogically (st : Status) (v : Halfword) (s : State) :
    GrowsLogically s (s.record st v) :=
  (Grows.of_trace (record_trace s st v)).logically (record_keepsEnvironment st v s)
    ⟨rfl, rfl, rfl, rfl, rfl, rfl, rfl⟩

theorem gated_growsLogically {body : State → State} {s : State} (h : GrowsLogically s (body s)) :
    GrowsLogically s (s.gated body) := by
  rw [State.gated]
  split
  · exact h
  · exact record_growsLogically _ _ s

theorem init_growsLogically (s : State) :
    GrowsLogically s (if s.busOk.1 then s.busOk.2.initPanel else s.busOk.2.initFailed) := by
  split
  · exact initPanel_growsLogically s.busOk.2
  · exact (Grows.of_trace rfl).logically (.of_fields rfl rfl rfl rfl)
      ⟨rfl, rfl, rfl, rfl, rfl, rfl, rfl⟩

theorem invert_growsLogically (on : Nat) (s : State) : GrowsLogically s (s.invert on) := by
  rw [invert_eq]
  exact Grows.logically ⟨_, rfl, rfl, rfl⟩ (.of_fields rfl rfl rfl rfl)
    ⟨rfl, rfl, rfl, rfl, rfl, rfl, rfl⟩

theorem setWindow_growsLogically (x0 y0 x1 y1 : Int) (s : State) :
    GrowsLogically s ((s.window x0 y0 x1 y1).complete 0) := by
  rw [window_eq]
  exact Grows.logically ⟨_, rfl, rfl, rfl⟩ (.of_fields rfl rfl rfl rfl)
    ⟨rfl, rfl, rfl, rfl, rfl, rfl, rfl⟩

/-- Settles O16, by the kind of command; only SET_ROTATION and INIT load a tuple. -/
theorem traceOnlyGrows : Obligations.TraceOnlyGrows := by
  intro i s t h
  change GrowsLogically s t
  cases hi : drawingCommand i with
  | true =>
    refine (exec_drawing_grows hi h).logically (exec_drawing_keepsEnvironment i s t hi h) ?_
    rcases exec_drawing i s t hi h with ⟨-, rfl⟩ | ⟨-, hdraws⟩
    · exact ⟨rfl, rfl, rfl, rfl, rfl, rfl, rfl⟩
    · exact hdraws.frame.panel.orientation
  | false =>
    rcases exec_panelCommand i s t hi h with ⟨-, rfl⟩ | ⟨-, rfl⟩ | ⟨-, rfl⟩ | ⟨v, -, rfl⟩ |
      ⟨on, -, rfl⟩ | ⟨x0, y0, x1, y1, -, rfl⟩
    · exact init_growsLogically s
    · exact record_growsLogically _ _ s
    · exact record_growsLogically _ _ s
    · exact gated_growsLogically (setRotation_growsLogically v s)
    · exact gated_growsLogically (invert_growsLogically on s)
    · exact gated_growsLogically (setWindow_growsLogically x0 y0 x1 y1 s)

end Sys2Proof.Machine
end

section
/-! Plans whose grants may be refused (41_blitter.md R134, R135): each primitive is sent by its own answer,
and under ABORT nothing follows the first refused one. -/

namespace Sys2Proof.Machine

open Sys2Proof

/-! ### One primitive, then the rest of the plan -/

@[simp] theorem asked_zero (s : State) (ps : List Prim) : s.asked ps 0 = 0 := rfl

theorem asked_cons_succ (s : State) (p : Prim) (ps : List Prim) (k : Nat) :
    s.asked (p :: ps) (k + 1) = s.asked ps k + (s.asks p).toNat := by
  cases h : s.asks p <;> simp [State.asked, h]

/-- The first primitive of a plan gets the next answer. -/
theorem refusedAt_zero (s : State) (ps : List Prim) (p : Prim) :
    s.refusedAt ps 0 p = s.refusedAt [] 0 p := rfl

section
variable {s : State} (ha : s.aborted = false) (p : Prim)
include ha

theorem runPrim_trace_refused (hr : s.refusedAt [] 0 p = true) :
    (s.runPrim p).trace = s.trace ++ s.windowAlone p := by
  rw [(runPrim_answered p s ha).1, if_pos hr]

theorem runPrim_trace_sent (hr : s.refusedAt [] 0 p = false) :
    (s.runPrim p).trace = s.trace ++ s.primEvents p := by
  rw [(runPrim_answered p s ha).1, hr]
  rfl

/-- After a primitive the rest of the plan gets the answers after its own. -/
theorem refusedAt_cons_succ (ps : List Prim) (k : Nat) (q : Prim) :
    s.refusedAt (p :: ps) (k + 1) q = (s.runPrim p).refusedAt ps k q := by
  obtain ⟨-, -, hanswers, -, -⟩ := runPrim_answered p s ha
  obtain ⟨hasks, -⟩ := asks_of_drawsFrom (runPrim_drawsFrom p s)
  have hasked : (s.runPrim p).asked ps k = s.asked ps k := by rw [State.asked, State.asked, hasks]
  rw [State.refusedAt, State.refusedAt, asked_cons_succ, hasks, hasked, hanswers]

/-- The questions of the rest of the plan come after those of its first primitive. -/
theorem asked_after_runPrim (ps : List Prim) (k : Nat) :
    (s.runPrim p).grantOracle.asked + (s.runPrim p).asked ps k
      = s.grantOracle.asked + s.asked (p :: ps) (k + 1) := by
  obtain ⟨-, hcount, -, -, -⟩ := runPrim_answered p s ha
  obtain ⟨hasks, -⟩ := asks_of_drawsFrom (runPrim_drawsFrom p s)
  have hasked : (s.runPrim p).asked ps k = s.asked ps k := by rw [State.asked, State.asked, hasks]
  rw [hcount, hasked, asked_cons_succ, Nat.add_assoc, Nat.add_comm (s.asks p).toNat]

end

theorem runPrim_cfg (p : Prim) (s : State) : (s.runPrim p).cfg = s.cfg := by
  obtain ⟨seg, lb, be, ab, go, h, -, -⟩ := runPrim_drawsFrom p s
  rw [h]

/-! ### CONTINUE -/

/-- What a plan sends under CONTINUE: each primitive in full, or its window alone if refused (R135). -/
def State.sentByAnswers (s : State) (ps : List Prim) : List Event :=
  ps.zipIdx.flatMap fun q => if s.refusedAt ps q.2 q.1 then s.windowAlone q.1 else s.primEvents q.1

/-- One of the primitives of a plan is refused its grant. -/
def State.refusesOne (s : State) (ps : List Prim) : Bool :=
  ps.zipIdx.any fun q => s.refusedAt ps q.2 q.1

section
variable {s : State} (ha : s.aborted = false) (p : Prim) (ps : List Prim)
include ha

theorem sentByAnswers_cons :
    s.sentByAnswers (p :: ps) =
      (if s.refusedAt [] 0 p then s.windowAlone p else s.primEvents p)
        ++ (s.runPrim p).sentByAnswers ps := by
  obtain ⟨-, hwindow⟩ := asks_of_drawsFrom (runPrim_drawsFrom p s)
  rw [State.sentByAnswers, List.zipIdx_cons', List.flatMap_cons, List.flatMap_map,
    refusedAt_zero s (p :: ps)]
  simp only [State.sentByAnswers, Prod.map, id_eq, refusedAt_cons_succ ha p ps, hwindow,
    primEvents_of_drawsFrom (runPrim_drawsFrom p s)]

theorem refusesOne_cons :
    s.refusesOne (p :: ps) = (s.refusedAt [] 0 p || (s.runPrim p).refusesOne ps) := by
  rw [State.refusesOne, List.zipIdx_cons', List.any_cons, List.any_map, refusedAt_zero s (p :: ps)]
  simp only [State.refusesOne, Function.comp_def, Prod.map, id_eq, refusedAt_cons_succ ha p ps]

end

theorem runPrims_proceed (ps : List Prim) {s : State} (hp : s.cfg.bufFailPolicy = .proceed)
    (ha : s.aborted = false) :
    (s.runPrims ps).trace = s.trace ++ s.sentByAnswers ps
      ∧ (s.runPrims ps).grantOracle.asked = s.grantOracle.asked + s.asked ps ps.length
      ∧ (s.runPrims ps).bufErr = (s.bufErr || s.refusesOne ps) := by
  induction ps generalizing s with
  | nil => exact ⟨(List.append_nil _).symm, rfl, (Bool.or_false _).symm⟩
  | cons p ps ih =>
    obtain ⟨htrace, -, -, hbuf, habort⟩ := runPrim_answered p s ha
    obtain ⟨ktrace, kasked, kbuf⟩ := ih (s := s.runPrim p) (by rw [runPrim_cfg, hp])
      (by simp [habort, hp])
    rw [runPrims_cons, sentByAnswers_cons ha, refusesOne_cons ha, ktrace, kasked, kbuf, htrace, hbuf]
    exact ⟨List.append_assoc .., asked_after_runPrim ha p ps _, Bool.or_assoc ..⟩

/-! ### ABORT -/

/-- A plan none of whose primitives is refused sends them all. -/
theorem runPrims_unrefused (ps : List Prim) {s : State} (ha : s.aborted = false)
    (h : ∀ k p, ps[k]? = some p → s.refusedAt ps k p = false) :
    (s.runPrims ps).trace = s.trace ++ ps.flatMap s.primEvents
      ∧ (s.runPrims ps).grantOracle.asked = s.grantOracle.asked + s.asked ps ps.length
      ∧ (s.runPrims ps).bufErr = s.bufErr := by
  induction ps generalizing s with
  | nil => exact ⟨(List.append_nil _).symm, rfl, rfl⟩
  | cons p ps ih =>
    obtain ⟨-, -, -, hbuf, habort⟩ := runPrim_answered p s ha
    have hp : s.refusedAt [] 0 p = false := h 0 p rfl
    obtain ⟨ktrace, kasked, kbuf⟩ := ih (s := s.runPrim p) (by rw [habort, hp]; rfl)
      fun k q hq => by rw [← refusedAt_cons_succ ha p ps]; exact h (k + 1) q hq
    rw [runPrims_cons, ktrace, kasked, kbuf, runPrim_trace_sent ha p hp, hbuf, hp,
      primEvents_of_drawsFrom (runPrim_drawsFrom p s)]
    exact ⟨List.append_assoc .., asked_after_runPrim ha p ps _, Bool.or_false _⟩

/-- Under ABORT the first refused primitive sends its window alone and nothing follows it (R135). -/
theorem runPrims_abort (ps : List Prim) {s : State} (hp : s.cfg.bufFailPolicy = .abort)
    (ha : s.aborted = false) {k : Nat} {p : Prim} (hk : ps[k]? = some p)
    (hr : s.refusedAt ps k p = true)
    (hfirst : ∀ j q, j < k → ps[j]? = some q → s.refusedAt ps j q = false) :
    (s.runPrims ps).trace = s.trace ++ (ps.take k).flatMap s.primEvents ++ s.windowAlone p
      ∧ (s.runPrims ps).grantOracle.asked = s.grantOracle.asked + s.asked ps (k + 1)
      ∧ (s.runPrims ps).bufErr = true := by
  induction ps generalizing s k with
  | nil => cases hk
  | cons q ps ih =>
    obtain ⟨-, hasked, -, hbuf, habort⟩ := runPrim_answered q s ha
    rw [runPrims_cons]
    cases k with
    | zero =>
      cases hk
      have hr' : s.refusedAt [] 0 p = true := hr
      rw [runPrims_aborted ps _ (by rw [habort, hr', hp]; rfl), runPrim_trace_refused ha p hr', hbuf,
        hr', hasked, asked_cons_succ]
      exact ⟨by simp, by simp, Bool.or_true _⟩
    | succ k =>
      have hq : s.refusedAt [] 0 q = false := hfirst 0 q k.succ_pos rfl
      obtain ⟨ktrace, kasked, kbuf⟩ := ih (s := s.runPrim q) (by rw [runPrim_cfg, hp])
        (by rw [habort, hq]; rfl) hk (by rwa [← refusedAt_cons_succ ha q ps])
        fun j u hj hu => by
          rw [← refusedAt_cons_succ ha q ps]
          exact hfirst (j + 1) u (by omega) hu
      rw [ktrace, kasked, kbuf, runPrim_trace_sent ha q hq, asked_after_runPrim ha q ps,
        primEvents_of_drawsFrom (runPrim_drawsFrom q s),
        (asks_of_drawsFrom (runPrim_drawsFrom q s)).2]
      exact ⟨by simp, rfl, rfl⟩

/-! ### Whole plans -/

theorem draw_completedWith (ps : List Prim) (s : State) :
    (s.draw ps).completedWith (if (s.beginDraw.runPrims ps).bufErr then 0x04 else 0x00) 0 := by
  obtain ⟨hvalue, hstatus⟩ := draw_status ps s
  refine ⟨hstatus.trans ?_, hvalue⟩
  split <;> rfl

theorem draw_trace (ps : List Prim) (s : State) :
    (s.draw ps).trace = (s.beginDraw.runPrims ps).trace := by
  rw [State.draw, finishDraw_of]

theorem draw_grantOracle (ps : List Prim) (s : State) :
    (s.draw ps).grantOracle = (s.beginDraw.runPrims ps).grantOracle := by
  rw [State.draw, finishDraw_of]

/-- A plan under CONTINUE. -/
theorem draw_proceed (ps : List Prim) {s : State} (hp : s.cfg.bufFailPolicy = .proceed) :
    (s.draw ps).trace = s.trace ++ s.sentByAnswers ps
      ∧ (s.draw ps).grantOracle.asked = s.grantOracle.asked + s.asked ps ps.length
      ∧ (s.draw ps).completedWith (if s.refusesOne ps then 0x04 else 0x00) 0 := by
  obtain ⟨htrace, hasked, hbuf⟩ := runPrims_proceed ps (s := s.beginDraw) hp rfl
  have hdone := draw_completedWith ps s
  rw [hbuf] at hdone
  exact ⟨(draw_trace ps s).trans htrace, by rw [draw_grantOracle]; exact hasked, hdone⟩

/-- A plan under ABORT, one of its primitives refused. -/
theorem draw_abort (ps : List Prim) {s : State} (hp : s.cfg.bufFailPolicy = .abort) {k : Nat} {p : Prim}
    (hk : ps[k]? = some p) (hr : s.refusedAt ps k p = true)
    (hfirst : ∀ j q, j < k → ps[j]? = some q → s.refusedAt ps j q = false) :
    (s.draw ps).trace = s.trace ++ (ps.take k).flatMap s.primEvents ++ s.windowAlone p
      ∧ (s.draw ps).grantOracle.asked = s.grantOracle.asked + s.asked ps (k + 1)
      ∧ (s.draw ps).completedWith 0x04 0 := by
  obtain ⟨htrace, hasked, hbuf⟩ := runPrims_abort ps (s := s.beginDraw) hp rfl hk hr hfirst
  have hdone := draw_completedWith ps s
  rw [hbuf] at hdone
  exact ⟨(draw_trace ps s).trans htrace, by rw [draw_grantOracle]; exact hasked, hdone⟩

/-- A plan none of whose primitives is refused, under either policy. -/
theorem draw_unrefused (ps : List Prim) {s : State}
    (h : ∀ k p, ps[k]? = some p → s.refusedAt ps k p = false) :
    (s.draw ps).trace = s.trace ++ ps.flatMap s.primEvents
      ∧ (s.draw ps).grantOracle.asked = s.grantOracle.asked + s.asked ps ps.length
      ∧ (s.draw ps).completedWith 0x00 0 := by
  obtain ⟨htrace, hasked, hbuf⟩ := runPrims_unrefused ps (s := s.beginDraw) rfl h
  have hdone := draw_completedWith ps s
  rw [hbuf] at hdone
  exact ⟨(draw_trace ps s).trans htrace, by rw [draw_grantOracle]; exact hasked, hdone⟩

/-- Settles O60, by the policy. -/
theorem plansSendEachPrimitiveByItsAnswer : Obligations.PlansSendEachPrimitiveByItsAnswer := by
  intro i s ps hinit hps
  exact ⟨_, exec_of_plan hinit hps, (draw_draws ps s).frame, fun hp => draw_proceed ps hp,
    fun hp => ⟨fun _ _ hk hr hfirst => draw_abort ps hp hk hr hfirst, draw_unrefused ps⟩⟩

end Sys2Proof.Machine
end

section
/-! Commands whose plan is known: fills (30_encoding.md R92, 41_blitter.md R131), the rasterizer
(42_raster.md R152 to R162), and what the reference panel reads of them (20_memory.md R66). -/

namespace Sys2Proof.Machine

open Sys2Proof

/-! ### FILL_SCREEN (R92) -/

/-- In a state whose registers match its rotation neither extent is zero or above 160. -/
theorem extents_of_tuple {s : State} (h : s.tuple = tupleOf s.cfg s.rot) :
    (0 < s.width.toNat ∧ s.width.toNat ≤ 160) ∧ 0 < s.height.toNat ∧ s.height.toNat ≤ 160 := by
  have hwidth : s.width = (tupleOf s.cfg s.rot).width := congrArg Tuple.width h
  have hheight : s.height = (tupleOf s.cfg s.rot).height := congrArg Tuple.height h
  obtain ⟨hodd, heven⟩ := tupleOf_extents s.cfg s.rot
  rw [hwidth, hheight]
  rcases Nat.mod_two_eq_zero_or_one s.rot.val with h | h
  · rw [(heven h).1, (heven h).2]
    decide
  · rw [(hodd h).1, (hodd h).2]
    decide

/-- Settles O33: the rectangle of FILL_SCREEN meets the screen in the whole screen. -/
theorem fillScreenCoversTheScreen : Obligations.FillScreenCoversTheScreen := by
  intro s c hinit htuple hg
  obtain ⟨⟨hw0, hw⟩, hh0, hh⟩ := extents_of_tuple htuple
  have hsees : s.sees 0 0 32767 32767 := by
    simp only [State.sees]
    omega
  have hpart : s.screenPart 0 0 32767 32767 = ⟨0, 0, s.width.toNat, s.height.toNat⟩ := by
    simp only [State.screenPart, Rect.mk.injEq]
    omega
  obtain ⟨htrace, hdone⟩ := draw_fill_granted hsees c hg
  rw [hpart] at htrace
  exact ⟨_, exec_fill_of_initDone hinit (.inl rfl), hdone, htrace⟩

/-! ### FILL_RECT as the panel reads it (R64, R66, R70) -/

theorem primEvents_fill_of_sees {s : State} {x y w h : Int} (hs : s.sees x y w h) (c : Color) :
    s.primEvents (.fill x y w h c) = s.fillCalls (s.screenPart x y w h) c := by
  simp only [State.primEvents, clip_eq_screenPart s x y w h hs]

theorem primPixels_fill_of_sees {s : State} {x y w h : Int} (hs : s.sees x y w h) (c : Color) :
    s.primPixels (.fill x y w h c) = rectPixels (s.screenPart x y w h) c := by
  simp only [State.primPixels, clip_eq_screenPart s x y w h hs]

/-- Settles O58: what FILL_RECT sends is the fill of its on-screen part, which the panel writes pixel by
pixel. -/
theorem fillRectDrawsExactlyTheOnScreenPart : Obligations.FillRectDrawsExactlyTheOnScreenPart := by
  intro s x y w h c hinit hg hdistinct hfits hs
  refine ⟨_, _, exec_fill_of_initDone hinit (.inl rfl), (draw_fill_granted hs c hg).1, ?_⟩
  have hlpw := lpw_primsEvents s hdistinct hfits [.fill x y w h c] s.panel
  rwa [List.flatMap_singleton, List.flatMap_singleton, primEvents_fill_of_sees hs,
    primPixels_fill_of_sees hs] at hlpw

/-! ### LINE and CIRCLE: pixels in order, no grant (R138, R152, R159) -/

/-- Pixel calls of one colour are sent in order, off-screen ones dropped; no grant is asked. -/
theorem draw_pixelPlan (ps : List (Int × Int)) (c : Color) (s : State) :
    (s.draw (pixelPlan ps c)).completedWith 0x00 0 ∧ DrawFrame s (s.draw (pixelPlan ps c))
      ∧ (s.draw (pixelPlan ps c)).grantOracle = s.grantOracle
      ∧ (s.draw (pixelPlan ps c)).trace = s.trace
          ++ ps.flatMap fun p => s.primEvents (.pixel p.1 p.2 c) := by
  have hframe := (draw_draws (pixelPlan ps c) s).frame
  rw [draw_pixels _ s (pixelPlan_pixels ps c)] at hframe ⊢
  exact ⟨⟨rfl, rfl⟩, hframe, rfl, by rw [pixelPlan, List.flatMap_map]⟩

/-- Settles O37. -/
theorem lineSendsItsPixels : Obligations.LineSendsItsPixels := fun s _ _ _ _ c hinit =>
  ⟨_, exec_of_plan hinit rfl, draw_pixelPlan _ c s⟩

/-- Settles O44: the points of CIRCLE are the cardinal ones and the eight of each step. -/
theorem circleSendsItsPoints : Obligations.CircleSendsItsPoints := fun s x0 y0 r c hinit =>
  ⟨_, exec_circle_of_initDone hinit x0 y0 r c, draw_pixelPlan (circlePoints x0 y0 r) c s⟩

/-! ### RECT and FILLED_CIRCLE (R155, R162) -/

/-- Settles O41. -/
theorem rectSendsFourEdges : Obligations.RectSendsFourEdges := by
  intro s x y w h c hinit hg
  obtain ⟨htrace, hdone⟩ := draw_rectPlan_granted hg x y w h c
  refine ⟨_, exec_rect_of_initDone hinit x y w h c, hdone, (draw_draws _ s).frame, ?_⟩
  rw [htrace]
  simp only [List.append_assoc]

/-- Settles O48: the spans of FILLED_CIRCLE are the centre one and the four of each step. -/
theorem filledCircleSendsItsSpans : Obligations.FilledCircleSendsItsSpans := by
  intro s x0 y0 r c hinit hg
  obtain ⟨htrace, hstatus, hvalue⟩ := draw_granted (spanPlan (circleSpans x0 y0 r) c) s hg
  refine ⟨_, exec_of_plan hinit rfl, ⟨hstatus, hvalue⟩, (draw_draws _ s).frame, ?_⟩
  rw [htrace, spanPlan, circleSpans, List.flatMap_map, List.flatMap_cons, List.flatMap_assoc,
    List.append_assoc]
  simp only [octantSpans, List.flatMap_cons, List.flatMap_nil, List.append_nil, List.append_assoc]

/-! ### RECT with its first grant refused (R135) -/

theorem screenPart_of_inside {s : State} {x y w h : Int} (hx : 0 ≤ x) (hy : 0 ≤ y)
    (hw : x + w ≤ s.width.toNat) (hh : y + h ≤ s.height.toNat) :
    s.screenPart x y w h = ⟨x, y, w, h⟩ := by
  simp only [State.screenPart, Rect.mk.injEq]
  omega

theorem sees_of_inside {s : State} {x y w h : Int} (hx : 0 ≤ x) (hy : 0 ≤ y) (hw0 : 0 < w)
    (hh0 : 0 < h) (hw : x + w ≤ s.width.toNat) (hh : y + h ≤ s.height.toNat) : s.sees x y w h := by
  simp only [State.sees]
  omega

theorem asks_of_sees {s : State} {x y w h : Int} (hs : s.sees x y w h)
    (hmay : s.cfg.bufMayFail = true) (c : Color) : s.asks (.fill x y w h c) = true := by
  simp [State.asks, hmay, clip_eq_screenPart s x y w h hs]

/-- Where every primitive of a plan asks, the `k`-th gets the `k`-th answer. -/
theorem refusedAt_of_asks {s : State} {ps : List Prim} (h : ∀ p ∈ ps, s.asks p = true) {k : Nat}
    (hk : k ≤ ps.length) {p : Prim} (hp : p ∈ ps) :
    s.asked ps k = k ∧ s.refusedAt ps k p = !s.grantOracle.answerAt Config.grantDraw k := by
  have hasked : s.asked ps k = k := by
    rw [State.asked, List.countP_eq_length.2 fun q hq => h q (List.mem_of_mem_take hq),
      List.length_take, min_eq_left hk]
  exact ⟨hasked, by rw [State.refusedAt, h p hp, hasked, Bool.true_and]⟩

/-- Settles O43: each edge asks for a grant of its own, and that of the first is refused. -/
theorem rectAfterARefusedGrant : Obligations.RectAfterARefusedGrant := by
  intro s x y w h c hinit hmay hx hy hw hh hxw hyh hno
  have htop : s.sees x y w 1 := sees_of_inside hx hy hw (by omega) hxw (by omega)
  have hbottom : s.sees x (y + h - 1) w 1 := sees_of_inside hx (by omega) hw (by omega) hxw (by omega)
  have hleft : s.sees x y 1 h := sees_of_inside hx hy (by omega) hh (by omega) hyh
  have hright : s.sees (x + w - 1) y 1 h := sees_of_inside (by omega) hy (by omega) hh (by omega) hyh
  have hasks : ∀ p ∈ rectPlan x y w h c, s.asks p = true := by
    simp [rectPlan, asks_of_sees htop hmay, asks_of_sees hbottom hmay, asks_of_sees hleft hmay,
      asks_of_sees hright hmay]
  have hpart : s.screenPart x y w 1 = ⟨x, y, w, 1⟩ := screenPart_of_inside hx hy hxw (by omega)
  obtain ⟨-, hrefused⟩ := refusedAt_of_asks hasks (Nat.zero_le _) List.mem_cons_self
  rw [hno] at hrefused
  refine ⟨_, exec_rect_of_initDone hinit x y w h c, ?_⟩
  cases hp : s.cfg.bufFailPolicy with
  | abort =>
    obtain ⟨htrace, hasked, hdone⟩ := draw_abort (rectPlan x y w h c) hp (k := 0) rfl hrefused nofun
    rw [(refusedAt_of_asks hasks (k := 0 + 1) (by simp [rectPlan]) List.mem_cons_self).1] at hasked
    refine ⟨hdone, (draw_draws _ s).frame, fun _ => ⟨?_, hasked⟩, nofun⟩
    rw [htrace, State.windowAlone, hpart]
    simp
  | proceed =>
    obtain ⟨htrace, hasked, hdone⟩ := draw_proceed (rectPlan x y w h c) hp
    have hone : s.refusesOne (rectPlan x y w h c) = true :=
      List.any_eq_true.2 ⟨_, List.mem_cons_self, hrefused⟩
    rw [hone] at hdone
    refine ⟨hdone, (draw_draws _ s).frame, nofun, fun _ h1 h2 h3 => ⟨?_, ?_⟩⟩
    · have hsent : ∀ k, k ≤ 4 → ∀ p ∈ rectPlan x y w h c,
          s.refusedAt (rectPlan x y w h c) k p = !s.grantOracle.answerAt Config.grantDraw k :=
        fun k hk p hp => (refusedAt_of_asks hasks hk hp).2
      have hzip : (rectPlan x y w h c).zipIdx =
          [(.fill x y w 1 c, 0), (.fill x (y + h - 1) w 1 c, 1), (.fill x y 1 h c, 2),
            (.fill (x + w - 1) y 1 h c, 3)] := rfl
      rw [htrace, State.sentByAnswers, hzip]
      simp only [List.flatMap_cons, List.flatMap_nil]
      rw [hsent 0 (by omega) _ (by simp [rectPlan]), hsent 1 (by omega) _ (by simp [rectPlan]),
        hsent 2 (by omega) _ (by simp [rectPlan]), hsent 3 (by omega) _ (by simp [rectPlan]), hno, h1, h2,
        h3, State.windowAlone, hpart, primEvents_fill_of_sees hbottom, primEvents_fill_of_sees hleft,
        primEvents_fill_of_sees hright, screenPart_of_inside hx (by omega) hxw (by omega),
        screenPart_of_inside hx hy (by omega) hyh, screenPart_of_inside (by omega) hy (by omega) hyh]
      simp
    · rw [hasked, (refusedAt_of_asks hasks le_rfl List.mem_cons_self).1]
      rfl

end Sys2Proof.Machine
end

section
/-! Strings (43_font.md R184 to R187), and the pixels of the drawing commands as the reference panel reads
them (20_memory.md R66, 41_blitter.md R139). -/

namespace Sys2Proof.Machine

open Sys2Proof

/-! ### The string operand (R186) -/

theorem scanString_zero (m : Memory) (a : Nat) : m.scanString a 0 = none := rfl

theorem scanString_succ (m : Memory) (a n : Nat) :
    m.scanString a (n + 1) =
      if m.read a = 0 then some [] else (m.scanString (a + 1) n).map (m.read a :: ·) := rfl

theorem forall_getElem?_cons {α : Type} (b : α) (l : List α) (P : Nat → α → Prop) :
    (∀ k v, (b :: l)[k]? = some v → P k v) ↔ P 0 b ∧ ∀ k v, l[k]? = some v → P (k + 1) v := by
  refine ⟨fun h => ⟨h 0 b rfl, fun k v hv => h (k + 1) v hv⟩, fun ⟨h0, h⟩ k v hv => ?_⟩
  cases k with
  | zero => exact Option.some.inj hv ▸ h0
  | succ k => exact h k v hv

/-- The prescan of `n` bytes gives the bytes before the first zero one. -/
theorem scanString_eq_some (m : Memory) (n a : Nat) (bytes : List Byte) :
    m.scanString a n = some bytes ↔
      bytes.length < n ∧ m.read (a + bytes.length) = 0
        ∧ ∀ k b, bytes[k]? = some b → m.read (a + k) = b ∧ b ≠ 0 := by
  induction n generalizing a bytes with
  | zero => simp [scanString_zero]
  | succ n ih =>
    rw [scanString_succ]
    by_cases h0 : m.read a = 0
    · rw [if_pos h0]
      cases bytes with
      | nil => simpa using h0
      | cons b bytes =>
        simp only [Option.some.injEq, List.nil_eq, reduceCtorEq, false_iff]
        rintro ⟨-, -, hall⟩
        obtain ⟨hb, hne⟩ := hall 0 b rfl
        exact hne (hb.symm.trans h0)
    · rw [if_neg h0]
      cases bytes with
      | nil => simpa using h0
      | cons b bytes =>
        rw [forall_getElem?_cons]
        simp only [Option.map_eq_some_iff, List.cons.injEq, ih, List.length_cons,
          Nat.add_lt_add_iff_right, ← Nat.add_assoc, Nat.add_right_comm a _ 1, Nat.add_zero]
        constructor
        · rintro ⟨_, h, rfl, rfl⟩
          exact ⟨h.1, h.2.1, ⟨rfl, h0⟩, h.2.2⟩
        · rintro ⟨hlen, hend, ⟨rfl, -⟩, hall⟩
          exact ⟨bytes, ⟨hlen, hend, hall⟩, rfl, rfl⟩

/-- The prescan of `n` bytes finds no string exactly if none of them is zero. -/
theorem scanString_eq_none (m : Memory) (n a : Nat) :
    m.scanString a n = none ↔ ∀ k, k < n → m.read (a + k) ≠ 0 := by
  induction n generalizing a with
  | zero => simp [scanString_zero]
  | succ n ih =>
    rw [scanString_succ, Nat.forall_lt_succ_left']
    by_cases h0 : m.read a = 0
    · rw [if_pos h0]
      simpa using fun h => absurd h0 h
    · rw [if_neg h0, Option.map_eq_none_iff, ih]
      simp only [← Nat.add_assoc, Nat.add_right_comm a _ 1, Nat.add_zero, ne_eq, h0, not_false_eq_true,
        true_and]

/-- Settles O55: the prescan counts the bytes left to `HMEM_SIZE`. -/
theorem stringEndsAtTheFirstZero : Obligations.StringEndsAtTheFirstZero := by
  intro m size a
  refine ⟨fun bytes => ?_, ?_⟩
  · rw [Memory.readString, scanString_eq_some]
    have : bytes.length < size - a ↔ a + bytes.length < size := by omega
    rw [this]
  · rw [Memory.readString, scanString_eq_none]
    exact forall_congr' fun k => imp_congr_left (by omega)

/-! ### DRAW_STRING (R187) -/

/-- Where the cursor stands after some bytes. -/
def cursorAfter (x y : Int) (sc : Nat) (pre : List Byte) : Int × Int :=
  (x + 6 * sc * (pre.reverse.takeWhile (· ≠ 0x0A)).length, y + 8 * sc * pre.count 0x0A)

theorem cursorAt_eq (x y : Int) (sc : Nat) (bytes : List Byte) (i : Nat) :
    cursorAt x y sc bytes i = cursorAfter x y sc (bytes.take i) := rfl

theorem cursorAfter_newline (x y : Int) (sc : Nat) (pre : List Byte) :
    cursorAfter x y sc (pre ++ [0x0A]) = (x, (cursorAfter x y sc pre).2 + 8 * sc) := by
  simp [cursorAfter]
  ring

theorem cursorAfter_char (x y : Int) (sc : Nat) (pre : List Byte) {b : Byte} (hb : b ≠ 0x0A) :
    cursorAfter x y sc (pre ++ [b]) =
      ((cursorAfter x y sc pre).1 + 6 * sc, (cursorAfter x y sc pre).2) := by
  have hcount : (pre ++ [b]).count 0x0A = pre.count 0x0A := by
    rw [List.count_append, List.count_singleton, if_neg (by simpa using hb), Nat.add_zero]
  have hrun : ((pre ++ [b]).reverse.takeWhile (· ≠ 0x0A)).length
      = (pre.reverse.takeWhile (· ≠ 0x0A)).length + 1 := by
    rw [List.reverse_concat, List.takeWhile_cons_of_pos (by simpa using hb), List.length_cons]
  simp only [cursorAfter, hcount, hrun, Prod.mk.injEq, and_true]
  push_cast
  ring

/-- The rest of a string, from where the cursor stands after the bytes before it, is the plan of each of
its characters at its own cursor. -/
theorem stringPlan_eq_flatMap (c : Config) (x y : Int) (sc : Nat) (fg bg : Color)
    (rest pre : List Byte) :
    stringPlan c x sc fg bg rest (cursorAfter x y sc pre).1 (cursorAfter x y sc pre).2 =
      (List.range rest.length).flatMap fun i =>
        if rest[i]? = some 0x0A then []
        else charPlan c (cursorAfter x y sc (pre ++ rest.take i)).1
          (cursorAfter x y sc (pre ++ rest.take i)).2 (rest.getD i 0).toNat sc fg bg := by
  induction rest generalizing pre with
  | nil => rfl
  | cons b rest ih =>
    have htail := ih (pre ++ [b])
    rw [List.length_cons, List.range_succ_eq_map, List.flatMap_cons, List.flatMap_map]
    by_cases hb : b = 0x0A
    · subst hb
      rw [cursorAfter_newline] at htail
      rw [stringPlan_newline, htail]
      simp
    · rw [cursorAfter_char _ _ _ _ hb] at htail
      have hhead : (b :: rest)[0]? ≠ some 0x0A := by simpa using hb
      rw [stringPlan_char hb, htail, if_neg hhead]
      simp

/-- Settles O56, by whether the string has a terminator. -/
theorem drawStringSendsItsCharacters : Obligations.DrawStringSendsItsCharacters := by
  intro s x y sc fg bg a hinit
  refine ⟨_, exec_drawString_of_initDone hinit x y sc fg bg a, (drawString_draws ..).frame,
    fun hread => ?_, fun bytes hread hg => ?_⟩
  · rw [drawString_unterminated hread]
    exact ⟨⟨rfl, rfl⟩, rfl, rfl⟩
  · rw [drawString_of_readString hread]
    obtain ⟨htrace, hstatus, hvalue⟩ := draw_granted (stringPlan s.cfg x sc fg bg bytes x y) s hg
    have hplan := stringPlan_eq_flatMap s.cfg x y sc fg bg bytes []
    have hstart : cursorAfter x y sc [] = (x, y) := by simp [cursorAfter]
    rw [hstart] at hplan
    refine ⟨⟨hstatus, hvalue⟩, ?_⟩
    rw [htrace, hplan, List.flatMap_assoc]
    congr 2
    funext i
    rw [apply_ite (List.flatMap s.primEvents), List.flatMap_nil]
    rfl

/-! ### Scale 0 (R184) -/

theorem runPrim_fill_of_nonpos {x y w h : Int} (hwh : w ≤ 0 ∨ h ≤ 0) (c : Color) (s : State) :
    s.runPrim (.fill x y w h c) = s := by
  have hs : ¬s.sees x y w h := by
    rintro ⟨hw, hh, -⟩
    omega
  simp [State.runPrim, State.fill, clip_eq_none s x y w h hs]

theorem runPrims_of_noop {ps : List Prim} {s : State} (h : ∀ p ∈ ps, s.runPrim p = s) :
    s.runPrims ps = s := by
  induction ps with
  | nil => rfl
  | cons p ps ih =>
    rw [runPrims_cons, h p List.mem_cons_self]
    exact ih fun q hq => h q (List.mem_cons_of_mem p hq)

/-- At scale 0 a character is made of fills of width 0. -/
theorem charPlan_scale_zero (c : Config) (x y : Int) (code : Nat) (fg bg : Color) :
    ∀ p ∈ charPlan c x y code 0 fg bg, ∃ x y h c, p = .fill x y 0 h c := by
  intro p hp
  rcases List.mem_append.1 hp with hp | hp
  · obtain ⟨col, -, hp⟩ := List.mem_flatMap.1 hp
    rw [columnPlan_eq] at hp
    obtain ⟨row, -, hp⟩ := List.mem_flatMap.1 hp
    obtain ⟨color, -, rfl⟩ := List.mem_map.1 hp
    exact ⟨_, _, _, _, rfl⟩
  · rw [spacingPlan] at hp
    split at hp
    · exact ⟨_, _, _, _, List.mem_singleton.1 hp⟩
    · cases hp

/-- Settles O52: no primitive of the character does anything. -/
theorem scaleZeroDrawsNothing : Obligations.ScaleZeroDrawsNothing := by
  intro s x y code fg bg hinit
  have hdraw : s.draw (charPlan s.cfg x y code 0 fg bg) = s.beginDraw.finishDraw := by
    rw [State.draw, runPrims_of_noop fun p hp => ?_]
    obtain ⟨x, y, h, c, rfl⟩ := charPlan_scale_zero _ _ _ _ _ _ p hp
    exact runPrim_fill_of_nonpos (.inl le_rfl) c _
  refine ⟨_, exec_drawChar_of_initDone hinit x y 0 code fg bg, ?_⟩
  have hframe := (draw_draws (charPlan s.cfg x y code 0 fg bg) s).frame
  rw [hdraw, finishDraw_of] at hframe ⊢
  exact ⟨⟨rfl, rfl⟩, rfl, rfl, hframe⟩

end Sys2Proof.Machine
end

section
/-! What the drawing commands make the reference panel write (20_memory.md R53, R66, 40_panel.md R109,
41_blitter.md R139). -/

namespace Sys2Proof.Machine

open Sys2Proof

/-! ### Commands made of primitives -/

/-- A plan that ends without a refusal has sent every primitive. -/
theorem runPrims_trace_of_ok (ps : List Prim) {s : State} (ha : s.aborted = false)
    (hok : (s.runPrims ps).bufErr = false) :
    (s.runPrims ps).trace = s.trace ++ ps.flatMap s.primEvents := by
  induction ps generalizing s with
  | nil => exact (List.append_nil _).symm
  | cons p ps ih =>
    rw [runPrims_cons] at hok ⊢
    obtain ⟨k, hk⟩ := runPrims_grants ps (s.runPrim p)
    obtain ⟨-, -, -, hbuf, habort⟩ := runPrim_answered p s ha
    have hp : (s.runPrim p).bufErr = false := by
      by_contra hne
      exact Bool.false_ne_true (hok.symm.trans (hk.bufErr.2 (.inl (Bool.eq_true_of_not_eq_false hne))))
    obtain ⟨-, hr⟩ := Bool.or_eq_false_iff.1 (hbuf.symm.trans hp)
    rw [ih (by rw [habort, hr]; rfl) hok, runPrim_trace_sent ha p hr,
      primEvents_of_drawsFrom (runPrim_drawsFrom p s), List.flatMap_cons, List.append_assoc]

theorem draw_trace_of_ok (ps : List Prim) {s : State} (hok : (s.draw ps).lastStatus = 0x00) :
    (s.draw ps).trace = s.trace ++ ps.flatMap s.primEvents := by
  rw [draw_trace]
  refine runPrims_trace_of_ok ps (s := s.beginDraw) rfl (Bool.eq_false_iff.2 fun hbuf => ?_)
  rw [(draw_status ps s).2, hbuf] at hok
  exact absurd hok (by decide)

/-! ### DRAW_IMAGE -/

theorem holds_screenPart {s : State} {x y w h : Int} (hs : s.sees x y w h) :
    s.holds (s.screenPart x y w h) := by
  simp only [State.sees] at hs
  simp only [State.holds, State.screenPart]
  omega

/-- The colours of scanline `j` of an image (R139). -/
def imageColors (m : Memory) (a : Nat) (x y w : Int) (r : Rect) (j : Nat) : List Color :=
  (List.range r.w.toNat).map fun i => m.readPixel (imageAddr a x y w r j i)

theorem imageLine_eq_flatMap (m : Memory) (a : Nat) (x y w : Int) (r : Rect) (j : Nat) :
    imageLine m a x y w r j = (imageColors m a x y w r j).flatMap colorBytes := by
  rw [imageLine, imageColors, List.flatMap_map]

/-- Scanlines sent into the window of an on-screen rectangle are written there, row by row. -/
theorem lpw_rows (s : State) (hc : windowOpcodesDistinct s.cfg) (hf : s.windowFits) {r : Rect}
    (hr : s.holds r) (g : Nat → Nat → Color) (p : Panel) :
    lpw s.cfg p s.colOff s.rowOff (s.rectWindow r
        ++ (List.range r.h.toNat).map fun j =>
          .data (((List.range r.w.toNat).map (g j)).flatMap colorBytes)) =
      (List.range r.h.toNat).flatMap fun j => (List.range r.w.toNat).map fun i =>
        ⟨r.x + i, r.y + j, g j i⟩ := by
  obtain ⟨x0, y0, x1, y1, e1, e2, e3, e4, hwait, hwrites⟩ := observe_rectWindow s hc hf r hr p
  obtain ⟨-, -, hw, hh, -, -⟩ := hr
  have hrows := (observe_rows s.cfg ((List.range r.h.toNat).map fun j => (List.range r.w.toNat).map (g j))
    _ x0 y0 x1 y1 _ hwait (by omega) (by omega)
    (by rw [List.length_map, List.length_range]; omega)
    (by
      intro vs hvs
      obtain ⟨j, -, rfl⟩ := List.mem_map.1 hvs
      rw [List.length_map, List.length_range]
      omega)).2
  rw [List.map_map, hwrites, rowsWrites_map] at hrows
  rw [lpw, observe_append]
  refine (congrArg (fun ws => List.map _ (List.drop _ ws)) hrows).trans ?_
  rw [List.drop_left, List.map_flatMap]
  congr 1
  funext j
  rw [scanWrites_map, List.map_map]
  refine List.map_congr_left fun i _ => ?_
  simp only [Function.comp_apply, PanelWrite.logical, LogicalWrite.mk.injEq, and_true]
  omega

/-- The window alone writes nothing. -/
theorem lpw_rectWindow (s : State) (hc : windowOpcodesDistinct s.cfg) (hf : s.windowFits) {r : Rect}
    (hr : s.holds r) (p : Panel) : lpw s.cfg p s.colOff s.rowOff (s.rectWindow r) = [] := by
  obtain ⟨_, _, _, _, -, -, -, -, -, hwrites⟩ := observe_rectWindow s hc hf r hr p
  rw [lpw, hwrites, List.drop_length, List.map_nil]

/-- The element of the unclipped array that stands at a pixel of the on-screen part (R53, R139). -/
theorem readPixel_imageAddr (m : Memory) (s : State) (x y w h : Int) (a j i : Nat) :
    m.readPixel (imageAddr a x y w (s.screenPart x y w h) j i) =
      let p := ((a : Int) + 2 * ((max y 0 + j - y) * w + (max x 0 + i - x))).toNat
      m.read (p + 1) ++ m.read p := by
  have haddr : imageAddr a x y w (s.screenPart x y w h) j i
      = ((a : Int) + 2 * ((max y 0 + j - y) * w + (max x 0 + i - x))).toNat := by
    simp only [imageAddr, State.screenPart]
    congr 1
    ring
  rw [haddr]
  rfl

/-- DRAW_IMAGE whose operands pass the checks, by the answer to its grant. -/
theorem drawImage_lpw {s : State} {x y w h : Int} {a : Nat} (hs : s.sees x y w h) (ha : a % 2 = 0)
    (hr : (a : Int) + 2 * w * h ≤ s.cfg.hmemSize) (hc : windowOpcodesDistinct s.cfg)
    (hf : s.windowFits) :
    ∃ seg, (s.drawImage x y w h a).trace = s.trace ++ seg
      ∧ (s.grantGiven = true →
          lpw s.cfg s.panel s.colOff s.rowOff seg =
            (List.range (s.screenPart x y w h).h.toNat).flatMap fun j =>
              (List.range (s.screenPart x y w h).w.toNat).map fun i =>
                ⟨max x 0 + i, max y 0 + j,
                  s.hostMem.readPixel (imageAddr a x y w (s.screenPart x y w h) j i)⟩)
      ∧ (s.grantGiven = false → lpw s.cfg s.panel s.colOff s.rowOff seg = []) := by
  have hholds := holds_screenPart hs
  cases hg : s.grantGiven with
  | true =>
    have htrace := (drawImage_granted hs ha hr hg).2
    simp only [imageLine_eq_flatMap, imageColors, List.append_assoc] at htrace
    exact ⟨_, htrace, fun _ => lpw_rows s hc hf hholds _ s.panel, nofun⟩
  | false =>
    exact ⟨_, (drawImage_refused hs ha hr hg).2, nofun, fun _ => lpw_rectWindow s hc hf hholds s.panel⟩

/-- Settles O59: the primitives of a plan as the panel reads them, and the scanlines of an image. -/
theorem drawingCommandsDrawTheirPrimitives : Obligations.DrawingCommandsDrawTheirPrimitives := by
  refine ⟨fun i s t ps h hok hinit hps hc hf => ?_, fun s x y w h a hinit hs ha hr hc hf => ?_⟩
  · obtain rfl := Host.Outcome.next.inj (h.symm.trans (exec_of_plan hinit hps))
    exact ⟨_, draw_trace_of_ok ps hok, lpw_primsEvents s hc hf ps s.panel⟩
  · obtain ⟨seg, htrace, hgiven, hrefused⟩ := drawImage_lpw hs ha hr hc hf
    refine ⟨_, seg, exec_drawImage_of_initDone hinit x y w h a, htrace, fun hg => ?_, hrefused⟩
    rw [hgiven hg]
    simp only [readPixel_imageAddr]

end Sys2Proof.Machine
end

section
/-! The points of a line (42_raster.md R152, R154): a closed form of the loop, and what follows from it. -/

namespace Sys2Proof.Machine

open Sys2Proof

/-! ### The closed form -/

/-- A point from its coordinates along the major and the minor axis. -/
def ofAxes (steep : Bool) (major minor : Int) : Int × Int :=
  if steep then (minor, major) else (major, minor)

theorem ofAxes_inj {steep : Bool} {a b c d : Int} :
    ofAxes steep a b = ofAxes steep c d ↔ a = c ∧ b = d := by
  cases steep <;> simp [ofAxes, and_comm]

/-- How often a line with slope `dy/dx` and error `err` has moved along its minor axis after `k` steps. -/
def minorSteps (dx dy err : Int) (k : Nat) : Int := (k * dy - err + dx - 1) / dx

theorem minorSteps_zero {dx err : Int} (dy : Int) (h0 : 0 ≤ err) (h : err < dx) :
    minorSteps dx dy err 0 = 0 := by
  rw [minorSteps, Int.ediv_eq_zero_of_lt] <;> simp <;> omega

/-- One step either moves along the minor axis, which adds `dx` to the error, or does not. -/
theorem minorSteps_succ (dx dy err : Int) (hdx : 0 < dx) (k : Nat) :
    minorSteps dx dy err (k + 1) = minorSteps dx dy (err - dy) k
      ∧ minorSteps dx dy err (k + 1) = minorSteps dx dy (err - dy + dx) k + 1 := by
  have h1 : ((k + 1 : Nat) : Int) * dy - err + dx - 1 = k * dy - (err - dy) + dx - 1 := by
    push_cast
    ring
  have h2 : k * dy - (err - dy) + dx - 1 = (k * dy - (err - dy + dx) + dx - 1) + dx := by ring
  refine ⟨by rw [minorSteps, h1, minorSteps], ?_⟩
  rw [minorSteps, h1, h2, Int.add_ediv_of_dvd_right (dvd_refl dx), Int.ediv_self hdx.ne', minorSteps]

/-- The loop of LINE in closed form (R152). -/
theorem lineWalk_eq_map (steep : Bool) {dx dy : Int} (ystep : Int) (h0 : 0 ≤ dy) (h : dy ≤ dx)
    (n : Nat) (x y : Int) {err : Int} (he0 : 0 ≤ err) (he : err < dx) :
    lineWalk steep dx dy ystep n x y err =
      (List.range n).map fun (k : Nat) => ofAxes steep (x + k) (y + ystep * minorSteps dx dy err k) := by
  have hdx : 0 < dx := lt_of_le_of_lt he0 he
  induction n generalizing x y err with
  | zero => rfl
  | succ n ih =>
    rw [lineWalk, List.range_succ_eq_map, List.map_cons, List.map_map]
    refine List.cons_eq_cons.2 ⟨?_, ?_⟩
    · rw [minorSteps_zero dy he0 he]
      simp [ofAxes]
    · split
      · rw [ih _ _ (by omega) (by omega)]
        refine List.map_congr_left fun k _ => ?_
        rw [Function.comp_apply, (minorSteps_succ dx dy err hdx k).2]
        congr 1
        · push_cast; ring
        · ring
      · rw [ih _ _ (by omega) (by omega)]
        refine List.map_congr_left fun k _ => ?_
        rw [Function.comp_apply, (minorSteps_succ dx dy err hdx k).1]
        congr 1
        push_cast; ring

/-- The direction of a line along its minor axis. -/
def minorSign (y0 y1 : Int) : Int := if y0 < y1 then 1 else -1

theorem minorSign_mul_abs (y0 y1 : Int) : minorSign y0 y1 * |y1 - y0| = y1 - y0 := by
  rw [minorSign]
  split
  · rw [abs_of_pos (by omega)]; ring
  · rw [abs_of_nonpos (by omega)]; ring

/-- Point `k` of a line drawn from its smaller major coordinate. -/
def linePoint (steep : Bool) (x0 y0 x1 y1 : Int) (k : Nat) : Int × Int :=
  ofAxes steep (x0 + k)
    (y0 + minorSign y0 y1 * minorSteps (x1 - x0) |y1 - y0| ((x1 - x0) / 2) k)

theorem lineFrom_eq_map (steep : Bool) {x0 y0 x1 y1 : Int} (hx : x0 ≤ x1)
    (hy : |y1 - y0| ≤ x1 - x0) :
    lineFrom steep x0 y0 x1 y1 =
      (List.range (x1 - x0 + 1).toNat).map (linePoint steep x0 y0 x1 y1) := by
  rcases hx.eq_or_lt with rfl | hlt
  · simp [lineFrom, lineWalk, linePoint, ofAxes, minorSteps]
  · exact lineWalk_eq_map steep _ (abs_nonneg _) hy _ _ _ (by omega) (by omega)

/-- Settles O40: the closed form of the loop, from its smaller major coordinate. -/
theorem lineFollowsTheExactSlope : Obligations.LineFollowsTheExactSlope := by
  intro x0 y0 x1 y1 hx hy
  have hflat : ¬|y1 - y0| > |x1 - x0| := by
    rw [abs_of_pos (sub_pos.2 hx)]
    exact hy.not_gt
  rw [linePoints, if_neg hflat, lineOrdered, if_neg hx.not_gt, lineFrom_eq_map false hx.le hy]
  rfl

/-! ### Connected points (R154) -/

/-- Two points one step apart along the major axis and at most one along the minor. -/
def Adjacent (steep : Bool) (a b : Int × Int) : Prop :=
  if steep then |b.2 - a.2| = 1 ∧ |b.1 - a.1| ≤ 1 else |b.1 - a.1| = 1 ∧ |b.2 - a.2| ≤ 1

theorem adjacent_ofAxes {steep : Bool} {a b c d : Int} (hmajor : |c - a| = 1) (hminor : |d - b| ≤ 1) :
    Adjacent steep (ofAxes steep a b) (ofAxes steep c d) := by
  cases steep <;> exact ⟨hmajor, hminor⟩

/-- A list of points that runs from one point to another, or back, in `n` steps along its major axis, no
point twice and no gap. -/
structure Connects (steep : Bool) (p q : Int × Int) (n : Int) (l : List (Int × Int)) : Prop where
  length : (l.length : Int) = n + 1
  left : p ∈ l
  right : q ∈ l
  nodup : l.Nodup
  adjacent : ∀ k a b, l[k]? = some a → l[k + 1]? = some b → Adjacent steep a b

theorem Connects.symm {steep : Bool} {p q : Int × Int} {n : Int} {l : List (Int × Int)}
    (h : Connects steep p q n l) : Connects steep q p n l := { h with left := h.right, right := h.left }

theorem linePoint_zero (steep : Bool) {x0 y0 x1 y1 : Int} (hx : x0 ≤ x1) :
    linePoint steep x0 y0 x1 y1 0 = ofAxes steep x0 y0 := by
  rcases hx.eq_or_lt with rfl | hlt
  · simp [linePoint, minorSteps]
  · rw [linePoint, minorSteps_zero _ (by omega) (by omega)]
    simp

/-- After `dx` steps along the major axis a line has made all `dy` along the minor. -/
theorem minorSteps_last {dx dy : Int} (h0 : 0 ≤ dy) (h : dy ≤ dx) :
    minorSteps dx dy (dx / 2) dx.toNat = dy := by
  have hcast : ((dx.toNat : Nat) : Int) = dx := Int.toNat_of_nonneg (h0.trans h)
  rw [minorSteps, hcast]
  rcases (h0.trans h).eq_or_lt with rfl | hdx
  · rw [Int.ediv_zero]
    omega
  · have hsplit : dx * dy - dx / 2 + dx - 1 = (dx - 1 - dx / 2) + dx * dy := by ring
    rw [hsplit, Int.add_mul_ediv_left _ _ hdx.ne', Int.ediv_eq_zero_of_lt (by omega) (by omega), zero_add]

/-- A line ends at its other endpoint. -/
theorem linePoint_last (steep : Bool) {x0 y0 x1 y1 : Int} (hx : x0 ≤ x1)
    (hy : |y1 - y0| ≤ x1 - x0) :
    linePoint steep x0 y0 x1 y1 (x1 - x0).toNat = ofAxes steep x1 y1 := by
  have hcast : (((x1 - x0).toNat : Nat) : Int) = x1 - x0 := Int.toNat_of_nonneg (by omega)
  rw [linePoint, minorSteps_last (abs_nonneg _) hy, minorSign_mul_abs, hcast]
  congr 1 <;> ring

/-- One step along the major axis makes none or one along the minor. -/
theorem minorSteps_succ_sub {dx dy : Int} (err : Int) (h0 : 0 ≤ dy) (h : dy ≤ dx) (k : Nat) :
    0 ≤ minorSteps dx dy err (k + 1) - minorSteps dx dy err k
      ∧ minorSteps dx dy err (k + 1) - minorSteps dx dy err k ≤ 1 := by
  rcases (h0.trans h).eq_or_lt with rfl | hdx
  · simp [minorSteps]
  · obtain ⟨hstay, hmove⟩ := minorSteps_succ dx dy err hdx k
    have hlow : minorSteps dx dy err k ≤ minorSteps dx dy (err - dy) k :=
      Int.ediv_le_ediv hdx (by omega)
    have hhigh : minorSteps dx dy (err - dy + dx) k ≤ minorSteps dx dy err k :=
      Int.ediv_le_ediv hdx (by omega)
    omega

theorem abs_minorSign_mul (y0 y1 d : Int) (h : 0 ≤ d) : |minorSign y0 y1 * d| = d := by
  rw [minorSign, abs_mul, abs_of_nonneg h]
  split <;> simp

/-- A line drawn from its smaller major coordinate runs from one endpoint to the other. -/
theorem lineFrom_connects (steep : Bool) {x0 y0 x1 y1 : Int} (hx : x0 ≤ x1)
    (hy : |y1 - y0| ≤ x1 - x0) :
    Connects steep (ofAxes steep x0 y0) (ofAxes steep x1 y1) (x1 - x0)
      (lineFrom steep x0 y0 x1 y1) := by
  rw [lineFrom_eq_map steep hx hy]
  refine ⟨?_, ?_, ?_, ?_, fun k a b hk hk1 => ?_⟩
  · rw [List.length_map, List.length_range, Int.toNat_of_nonneg (by omega)]
  · exact List.mem_map.2 ⟨0, List.mem_range.2 (by omega), linePoint_zero steep hx⟩
  · exact List.mem_map.2 ⟨_, List.mem_range.2 (by omega), linePoint_last steep hx hy⟩
  · refine List.nodup_range.map fun j k hjk => ?_
    have := (ofAxes_inj.1 hjk).1
    omega
  · simp only [List.getElem?_map, Option.map_eq_some_iff, List.getElem?_eq_some_iff,
      List.getElem_range] at hk hk1
    obtain ⟨_, ⟨-, rfl⟩, rfl⟩ := hk
    obtain ⟨_, ⟨-, rfl⟩, rfl⟩ := hk1
    obtain ⟨hlow, hhigh⟩ := minorSteps_succ_sub ((x1 - x0) / 2) (abs_nonneg _) hy k
    refine adjacent_ofAxes ?_ ?_
    · push_cast
      rw [show x0 + ((k : Int) + 1) - (x0 + k) = 1 by ring, abs_one]
    · rwa [add_sub_add_left_eq_sub, ← mul_sub, abs_minorSign_mul _ _ _ hlow]

/-- Iterating from the smaller major coordinate runs from one endpoint to the other, or back. -/
theorem lineOrdered_connects (steep : Bool) {x0 y0 x1 y1 : Int} (hy : |y1 - y0| ≤ |x1 - x0|) :
    Connects steep (ofAxes steep x0 y0) (ofAxes steep x1 y1) |x1 - x0|
      (lineOrdered steep x0 y0 x1 y1) := by
  rw [lineOrdered]
  split
  · next hgt =>
    rw [abs_sub_comm y1, abs_sub_comm x1] at hy
    rw [abs_sub_comm x1]
    rw [abs_of_pos (sub_pos.2 hgt)] at hy ⊢
    exact (lineFrom_connects steep hgt.le hy).symm
  · next hle =>
    rw [abs_of_nonneg (sub_nonneg.2 (not_lt.1 hle))] at hy ⊢
    exact lineFrom_connects steep (not_lt.1 hle) hy

/-- The points of a line run from one endpoint to the other, or back (R152, R154). -/
theorem linePoints_connects (x0 y0 x1 y1 : Int) :
    Connects (decide (|y1 - y0| > |x1 - x0|)) (x0, y0) (x1, y1) (max |x1 - x0| |y1 - y0|)
      (linePoints x0 y0 x1 y1) := by
  rw [linePoints]
  split
  · next hsteep =>
    rw [decide_eq_true hsteep, max_eq_right hsteep.le]
    exact lineOrdered_connects true hsteep.le
  · next hflat =>
    rw [decide_eq_false hflat, max_eq_left (not_lt.1 hflat)]
    exact lineOrdered_connects false (not_lt.1 hflat)

/-- Settles O39. -/
theorem linePointsAreConnected : Obligations.LinePointsAreConnected := by
  intro x0 y0 x1 y1
  obtain ⟨hlength, hleft, hright, hnodup, hadjacent⟩ := linePoints_connects x0 y0 x1 y1
  simp only [Adjacent, decide_eq_true_eq] at hadjacent
  exact ⟨hlength, hleft, hright, hnodup, hadjacent⟩

end Sys2Proof.Machine
end

section
/-! The midpoint recurrence (42_raster.md R158, R161) and the filled circle over it (R164). -/

namespace Sys2Proof.Machine

open Sys2Proof

/-! ### The loop `while x < y: step()` (R158) -/

theorem midpoint_step_x (m : Midpoint) : m.step.x = m.x + 1 := rfl

theorem midpoint_step_y (m : Midpoint) : m.step.y = if m.f ≥ 0 then m.y - 1 else m.y := rfl

theorem midpoint_walk_succ (n : Nat) (m : Midpoint) :
    Midpoint.walk (n + 1) m = if m.x < m.y then m.step :: Midpoint.walk n m.step else [] := rfl

/-- What every step keeps holds of each value of the loop, and each is the step of one that meets the
loop's condition. -/
theorem midpoint_walk_forall {P : Midpoint → Prop} (hstep : ∀ m, P m → m.x < m.y → P m.step) (n : Nat)
    {m : Midpoint} (hm : P m) : ∀ u ∈ Midpoint.walk n m, ∃ v, P v ∧ v.x < v.y ∧ u = v.step := by
  induction n generalizing m with
  | zero => nofun
  | succ n ih =>
    rw [midpoint_walk_succ]
    split
    · next hlt =>
      intro u hu
      rcases List.mem_cons.1 hu with rfl | hu
      · exact ⟨m, hm, hlt, rfl⟩
      · exact ih (hstep m hm hlt) u hu
    · nofun

/-- What the variables of the recurrence stand for: the circle function at the next midpoint and its
differences; and the octant they run through. -/
structure Midpoint.Exact (r : Int) (m : Midpoint) : Prop where
  ddFx : m.ddFx = 2 * m.x + 1
  ddFy : m.ddFy = -2 * m.y
  f : m.f = (m.x + 1) * (m.x + 1) + m.y * m.y - m.y - r * r
  x_nonneg : 0 ≤ m.x
  y_le : m.y ≤ r

theorem Midpoint.Exact.start {r : Int} : (Midpoint.start r).Exact r where
  ddFx := rfl
  ddFy := rfl
  f := by simp only [Midpoint.start]; ring
  x_nonneg := le_rfl
  y_le := le_rfl

theorem Midpoint.Exact.step {r : Int} {m : Midpoint} (h : m.Exact r) : m.step.Exact r := by
  obtain ⟨hddFx, hddFy, hf, hx, hy⟩ := h
  by_cases hpos : m.f ≥ 0
  · have hstep : m.step = ⟨m.f + (m.ddFy + 2) + (m.ddFx + 2), m.ddFx + 2, m.ddFy + 2, m.x + 1, m.y - 1⟩ := by
      simp [Midpoint.step, hpos]
    rw [hstep]
    refine ⟨?_, ?_, ?_, ?_, ?_⟩ <;> simp only [hddFx, hddFy, hf]
    · ring
    · ring
    · ring
    · omega
    · omega
  · have hstep : m.step = ⟨m.f + (m.ddFx + 2), m.ddFx + 2, m.ddFy, m.x + 1, m.y⟩ := by
      simp [Midpoint.step, hpos]
    rw [hstep]
    refine ⟨?_, ?_, ?_, ?_, ?_⟩ <;> simp only [hddFx, hddFy, hf]
    · ring
    · ring
    · omega
    · omega

/-- Settles O46: the invariant of the recurrence, and the condition each step was made under. -/
theorem midpointRecurrenceIsExact : Obligations.MidpointRecurrenceIsExact := by
  intro r m hm
  obtain ⟨v, hv, hlt, rfl⟩ := midpoint_walk_forall (P := Midpoint.Exact r) (fun _ h _ => h.step)
    r.toNat .start m hm
  obtain ⟨hddFx, hddFy, hf, -, hy⟩ := hv.step
  have hx := hv.x_nonneg
  have hxstep := midpoint_step_x v
  have hystep := midpoint_step_y v
  refine ⟨hddFx, hddFy, hf, by omega, ?_, hy, ?_⟩ <;> split at hystep <;> omega

theorem midpoint_walk_length_le (n : Nat) (m : Midpoint) : (Midpoint.walk n m).length ≤ n := by
  induction n generalizing m with
  | zero => exact le_rfl
  | succ n ih =>
    rw [midpoint_walk_succ]
    split
    · exact Nat.succ_le_succ (ih _)
    · exact Nat.zero_le _

/-- With a step for each place between `x` and `y` the loop ends by its own test. -/
theorem midpoint_walk_ends (n : Nat) {m : Midpoint} (hn : m.y - m.x ≤ n) :
    ¬((Midpoint.walk n m).getLast?.getD m).x < ((Midpoint.walk n m).getLast?.getD m).y := by
  induction n generalizing m with
  | zero =>
    have : ¬m.x < m.y := by omega
    exact this
  | succ n ih =>
    rw [midpoint_walk_succ]
    split
    · have hystep := midpoint_step_y m
      have hxstep := midpoint_step_x m
      rw [List.getLast?_cons, Option.getD_some]
      refine ih ?_
      split at hystep <;> omega
    · assumption

/-- Settles O47. -/
theorem midpointLoopEnds : Obligations.MidpointLoopEnds := by
  refine ⟨fun m => ⟨midpoint_step_x m, ?_⟩, fun r => ⟨?_, ?_⟩⟩
  · rw [midpoint_step_y]
    split
    · exact .inr rfl
    · exact .inl rfl
  · have := midpoint_walk_length_le r.toNat (Midpoint.start r)
    rw [midpoints]
    omega
  · refine midpoint_walk_ends r.toNat ?_
    simp only [Midpoint.start]
    omega

/-! ### The pixels of a primitive -/

theorem mem_rectPixels {r : Rect} {c : Color} {p : LogicalWrite} :
    p ∈ rectPixels r c ↔
      p.value = c ∧ r.x ≤ p.x ∧ p.x < r.x + r.w ∧ r.y ≤ p.y ∧ p.y < r.y + r.h := by
  simp only [rectPixels, List.mem_flatMap, List.mem_map, List.mem_range]
  constructor
  · rintro ⟨j, hj, i, hi, rfl⟩
    refine ⟨rfl, ?_⟩
    dsimp only
    omega
  · obtain ⟨x, y, v⟩ := p
    rintro ⟨rfl, hx, hx', hy, hy'⟩
    simp only at hx hx' hy hy'
    refine ⟨(y - r.y).toNat, by omega, (x - r.x).toNat, by omega, ?_⟩
    simp only [LogicalWrite.mk.injEq, and_true]
    omega

/-- A fill writes the on-screen pixels of its rectangle (R130, R131). -/
theorem mem_primPixels_fill {s : State} {x y w h : Int} {c : Color} {p : LogicalWrite} :
    p ∈ s.primPixels (.fill x y w h c) ↔
      p.value = c ∧ s.onScreen p.x p.y = true
        ∧ x ≤ p.x ∧ p.x < x + w ∧ y ≤ p.y ∧ p.y < y + h := by
  rw [onScreen_iff]
  by_cases hs : s.sees x y w h
  · rw [primPixels_fill_of_sees hs, mem_rectPixels]
    simp only [State.screenPart, State.sees] at hs ⊢
    refine and_congr_right fun _ => ?_
    omega
  · simp only [State.primPixels, clip_eq_none s x y w h hs, List.not_mem_nil, false_iff]
    simp only [State.sees] at hs
    rintro ⟨-, hon, hrect⟩
    omega

/-! ### The outline and the spans -/

/-- The columns of a circle with half their height: the centre column and four for each step. -/
def circleColumns (x0 r : Int) : List (Int × Int) :=
  (x0, r) :: (midpoints r).flatMap fun m =>
    [(x0 + m.x, m.y), (x0 + m.y, m.x), (x0 - m.x, m.y), (x0 - m.y, m.x)]

/-- Each span of the filled circle is a column about the centre row. -/
theorem circleSpans_eq_map (x0 y0 r : Int) :
    circleSpans x0 y0 r = (circleColumns x0 r).map fun v => ⟨v.1, y0 - v.2, 2 * v.2 + 1⟩ := by
  simp only [circleSpans, circleColumns, octantSpans, List.map_cons, List.map_flatMap, List.map_nil]

/-- The two ends of each column are points of the outline. -/
theorem mem_circlePoints_of_column {x0 r : Int} {v : Int × Int} (y0 : Int)
    (hv : v ∈ circleColumns x0 r) :
    (v.1, y0 + v.2) ∈ circlePoints x0 y0 r ∧ (v.1, y0 - v.2) ∈ circlePoints x0 y0 r := by
  rw [circlePoints]
  rcases List.mem_cons.1 hv with rfl | hv
  · exact ⟨List.mem_append_left _ (by simp), List.mem_append_left _ (by simp)⟩
  · obtain ⟨m, hm, hv⟩ := List.mem_flatMap.1 hv
    refine ⟨List.mem_append_right _ (List.mem_flatMap.2 ⟨m, hm, ?_⟩),
      List.mem_append_right _ (List.mem_flatMap.2 ⟨m, hm, ?_⟩)⟩ <;>
      simp only [List.mem_cons, List.not_mem_nil, or_false] at hv <;>
      rcases hv with rfl | rfl | rfl | rfl <;> simp [octantPoints]

/-- The first step of a circle of positive radius reaches its leftmost and rightmost columns. -/
theorem exists_midpoint_at_radius {r : Int} (hr : 0 < r) :
    ∃ m ∈ midpoints r, (m.x = r ∧ 0 ≤ m.y) ∨ (m.y = r ∧ 0 ≤ m.x) := by
  obtain ⟨n, hn⟩ : ∃ n, r.toNat = n + 1 := ⟨r.toNat - 1, by omega⟩
  have hlt : (Midpoint.start r).x < (Midpoint.start r).y := hr
  refine ⟨(Midpoint.start r).step, ?_, ?_⟩
  · rw [midpoints, hn, midpoint_walk_succ, if_pos hlt]
    exact List.mem_cons_self
  · rw [midpoint_step_x, midpoint_step_y]
    change (0 + 1 = r ∧ 0 ≤ if 1 - r ≥ 0 then r - 1 else r)
      ∨ ((if 1 - r ≥ 0 then r - 1 else r) = r ∧ 0 ≤ (0 : Int) + 1)
    by_cases h1 : 1 - r ≥ 0
    · rw [if_pos h1]
      omega
    · rw [if_neg h1]
      omega

/-- A step of the loop gives each of its four columns. -/
theorem mem_circleColumns_of_midpoint {r : Int} {m : Midpoint} (hm : m ∈ midpoints r) (x0 : Int)
    {v : Int × Int}
    (hv : v ∈ [(x0 + m.x, m.y), (x0 + m.y, m.x), (x0 - m.x, m.y), (x0 - m.y, m.x)]) :
    v ∈ circleColumns x0 r :=
  List.mem_cons_of_mem _ (List.mem_flatMap.2 ⟨m, hm, hv⟩)

/-- The leftmost and the rightmost point of the outline each lie in a column. -/
theorem exists_column_at_radius {r : Int} (hr : 0 ≤ r) (x0 : Int) :
    (∃ b, 0 ≤ b ∧ (x0 + r, b) ∈ circleColumns x0 r)
      ∧ ∃ b, 0 ≤ b ∧ (x0 - r, b) ∈ circleColumns x0 r := by
  rcases hr.eq_or_lt with rfl | hpos
  · exact ⟨⟨0, le_rfl, by simp [circleColumns]⟩, ⟨0, le_rfl, by simp [circleColumns]⟩⟩
  · obtain ⟨m, hm, ⟨rfl, hy⟩ | ⟨rfl, hx⟩⟩ := exists_midpoint_at_radius hpos
    · exact ⟨⟨m.y, hy, mem_circleColumns_of_midpoint hm x0 (by simp)⟩,
        ⟨m.y, hy, mem_circleColumns_of_midpoint hm x0 (by simp)⟩⟩
    · exact ⟨⟨m.x, hx, mem_circleColumns_of_midpoint hm x0 (by simp)⟩,
        ⟨m.x, hx, mem_circleColumns_of_midpoint hm x0 (by simp)⟩⟩

/-- A point of the outline lies in a column that reaches as far from the centre row. -/
theorem exists_column_of_circlePoint {x0 y0 r : Int} (hr : 0 ≤ r) {p : Int × Int}
    (hp : p ∈ circlePoints x0 y0 r) :
    ∃ b, (p.1, b) ∈ circleColumns x0 r ∧ y0 - b ≤ p.2 ∧ p.2 ≤ y0 + b := by
  obtain ⟨⟨bright, hbright, hright⟩, bleft, hbleft, hleft⟩ := exists_column_at_radius hr x0
  rcases List.mem_append.1 hp with hp | hp
  · simp only [List.mem_cons, List.not_mem_nil, or_false] at hp
    have hcentre : (x0, r) ∈ circleColumns x0 r := List.mem_cons_self
    rcases hp with rfl | rfl | rfl | rfl
    · exact ⟨r, hcentre, by dsimp only; omega, by dsimp only; omega⟩
    · exact ⟨r, hcentre, by dsimp only; omega, by dsimp only; omega⟩
    · exact ⟨bright, hright, by dsimp only; omega, by dsimp only; omega⟩
    · exact ⟨bleft, hleft, by dsimp only; omega, by dsimp only; omega⟩
  · obtain ⟨m, hm, hp⟩ := List.mem_flatMap.1 hp
    obtain ⟨-, -, -, hx, hy, -, -⟩ := midpointRecurrenceIsExact r m hm
    have column : ∀ {x b : Int}, (x, b) ∈
        [(x0 + m.x, m.y), (x0 + m.y, m.x), (x0 - m.x, m.y), (x0 - m.y, m.x)] → 0 ≤ b → ∀ {y : Int},
        (y = y0 + b ∨ y = y0 - b) → ∃ b, (x, b) ∈ circleColumns x0 r ∧ y0 - b ≤ y ∧ y ≤ y0 + b :=
      fun hv hb _ hy => ⟨_, mem_circleColumns_of_midpoint hm x0 hv, by omega, by omega⟩
    simp only [octantPoints, List.mem_cons, List.not_mem_nil, or_false] at hp
    rcases hp with rfl | rfl | rfl | rfl | rfl | rfl | rfl | rfl
    · exact column (b := m.y) (by simp) hy (.inl rfl)
    · exact column (b := m.y) (by simp) hy (.inl rfl)
    · exact column (b := m.y) (by simp) hy (.inr rfl)
    · exact column (b := m.y) (by simp) hy (.inr rfl)
    · exact column (b := m.x) (by simp) (by omega) (.inl rfl)
    · exact column (b := m.x) (by simp) (by omega) (.inl rfl)
    · exact column (b := m.x) (by simp) (by omega) (.inr rfl)
    · exact column (b := m.x) (by simp) (by omega) (.inr rfl)

/-! ### The filled circle (R164) -/

/-- A column of the circle holds a pixel exactly if the outline has a pixel at or above it and one at or
below it. -/
theorem exists_column_iff_between {x0 y0 r : Int} (hr : 0 ≤ r) (x y : Int) :
    (∃ b, (x, b) ∈ circleColumns x0 r ∧ y0 - b ≤ y ∧ y ≤ y0 + b) ↔
      (∃ p ∈ circlePoints x0 y0 r, p.1 = x ∧ p.2 ≤ y)
        ∧ ∃ p ∈ circlePoints x0 y0 r, p.1 = x ∧ y ≤ p.2 := by
  constructor
  · rintro ⟨b, hb, hlow, hhigh⟩
    obtain ⟨hbelow, habove⟩ := mem_circlePoints_of_column y0 hb
    exact ⟨⟨_, habove, rfl, hlow⟩, ⟨_, hbelow, rfl, hhigh⟩⟩
  · rintro ⟨⟨p, hp, rfl, hpy⟩, q, hq, hqx, hqy⟩
    obtain ⟨b, hb, hlow, hhigh⟩ := exists_column_of_circlePoint hr hp
    obtain ⟨b', hb', hlow', hhigh'⟩ := exists_column_of_circlePoint hr hq
    rw [hqx] at hb'
    rcases le_total b b' with h | h
    · exact ⟨b', hb', by omega, by omega⟩
    · exact ⟨b, hb, by omega, by omega⟩

/-- The pixels the filled circle writes: the on-screen ones of its columns, in its colour. -/
theorem mem_primPixels_circleSpans {s : State} {x0 y0 r : Int} {c : Color} {w : LogicalWrite} :
    w ∈ (spanPlan (circleSpans x0 y0 r) c).flatMap s.primPixels ↔
      w.value = c ∧ s.onScreen w.x w.y = true
        ∧ ∃ b, (w.x, b) ∈ circleColumns x0 r ∧ y0 - b ≤ w.y ∧ w.y ≤ y0 + b := by
  simp only [spanPlan, circleSpans_eq_map, List.map_map, List.flatMap_map, List.mem_flatMap,
    Function.comp_apply, mem_primPixels_fill]
  constructor
  · rintro ⟨⟨x, b⟩, hv, hval, hon, hrect⟩
    obtain rfl : w.x = x := by dsimp only at hrect; omega
    exact ⟨hval, hon, b, hv, by dsimp only at hrect; omega, by dsimp only at hrect; omega⟩
  · rintro ⟨hval, hon, b, hv, hlow, hhigh⟩
    exact ⟨(w.x, b), hv, hval, hon, by dsimp only; omega⟩

/-- Settles O49: a pixel is written exactly if it lies on screen in a column of the circle. -/
theorem filledCircleMatchesTheOutline : Obligations.FilledCircleMatchesTheOutline := by
  intro s x0 y0 r c hinit hg hc hf hr
  have htrace := (draw_granted (spanPlan (circleSpans x0 y0 r) c) s hg).1
  refine ⟨_, _, exec_of_plan hinit rfl, htrace, ?_⟩
  rw [lpw_primsEvents s hc hf]
  refine ⟨fun x y => ?_, fun p hp hon => ?_⟩
  · rw [← exists_column_iff_between hr]
    constructor
    · rintro ⟨w, hw, rfl, rfl⟩
      exact (mem_primPixels_circleSpans.1 hw).2
    · intro h
      exact ⟨⟨x, y, c⟩, mem_primPixels_circleSpans.2 ⟨rfl, h⟩, rfl, rfl⟩
  · exact mem_primPixels_circleSpans.2 ⟨rfl, hon, exists_column_of_circlePoint hr hp⟩

end Sys2Proof.Machine
end

section
/-! How many pixels a character writes (43_font.md R185). -/

namespace Sys2Proof.Machine

open Sys2Proof

/-! ### Counting -/

theorem length_flatMap_range {α : Type} (n : Nat) (f : Nat → List α) :
    ((List.range n).flatMap f).length = ∑ k ∈ Finset.range n, (f k).length := by
  rw [List.length_flatMap]
  rfl

theorem length_filter_range (n : Nat) (p : Nat → Bool) :
    ((List.range n).filter p).length = ∑ k ∈ Finset.range n, if p k then 1 else 0 := by
  induction n with
  | zero => rfl
  | succ n ih =>
    rw [List.range_succ, List.filter_append, List.length_append, ih, Finset.sum_range_succ]
    cases hp : p n <;> simp [hp]

theorem rectPixels_length (r : Rect) (c : Color) :
    (rectPixels r c).length = r.h.toNat * r.w.toNat := by
  simp [rectPixels]

/-- A pixel is written like a block of one by one. -/
theorem primPixels_pixel_eq_fill (s : State) (x y : Int) (c : Color) :
    s.primPixels (.pixel x y c) = s.primPixels (.fill x y 1 1 c) := by
  by_cases hon : s.onScreen x y = true
  · have hin := (onScreen_iff s x y).1 hon
    rw [primPixels_fill_of_sees (sees_of_inside hin.1 hin.2.2.1 (by omega) (by omega) (by omega) (by omega)),
      screenPart_of_inside hin.1 hin.2.2.1 (by omega) (by omega)]
    simp [State.primPixels, hon, rectPixels]
  · have hs : ¬s.sees x y 1 1 := by
      rw [onScreen_iff] at hon
      simp only [State.sees]
      omega
    simp [State.primPixels, hon, clip_eq_none s x y 1 1 hs]

/-- A cell is written as a block of `sc` by `sc` at every scale (R182, R184). -/
theorem primPixels_cellPrim (s : State) (x y : Int) (col row sc : Nat) (c : Color) :
    s.primPixels (cellPrim x y col row sc c)
      = s.primPixels (.fill (x + col * sc) (y + row * sc) sc sc c) := by
  rw [cellPrim]
  split
  · next h =>
    subst h
    rw [primPixels_pixel_eq_fill]
    simp
  · rfl

/-- How many pixels of a rectangle are on screen. -/
def State.countOnScreen (s : State) (x y w h : Int) : Nat := (s.primPixels (.fill x y w h 0)).length

theorem length_primPixels_fill (s : State) (x y w h : Int) (c : Color) :
    (s.primPixels (.fill x y w h c)).length = s.countOnScreen x y w h := by
  simp only [State.countOnScreen, State.primPixels]
  split
  · rfl
  · rw [rectPixels_length, rectPixels_length]

theorem countOnScreen_ne_zero {s : State} {x y w h : Int} :
    s.countOnScreen x y w h ≠ 0 ↔
      ∃ px py, s.onScreen px py = true ∧ x ≤ px ∧ px < x + w ∧ y ≤ py ∧ py < y + h := by
  rw [State.countOnScreen, Nat.ne_zero_iff_zero_lt, List.length_pos_iff_exists_mem]
  simp only [mem_primPixels_fill]
  constructor
  · rintro ⟨p, -, h⟩
    exact ⟨p.x, p.y, h⟩
  · rintro ⟨px, py, h⟩
    exact ⟨⟨px, py, 0⟩, rfl, h⟩

theorem countOnScreen_of_inside {s : State} {x y : Int} {w h : Nat} (hx : 0 ≤ x) (hy : 0 ≤ y)
    (hw0 : 0 < w) (hh0 : 0 < h) (hw : x + w ≤ s.width.toNat) (hh : y + h ≤ s.height.toNat) :
    s.countOnScreen x y w h = h * w := by
  rw [State.countOnScreen,
    primPixels_fill_of_sees (sees_of_inside hx hy (by omega) (by omega) hw hh), rectPixels_length,
    screenPart_of_inside hx hy hw hh]
  simp

/-! ### The cells of a character -/

/-- How many pixels of the cell `(col, row)` are on screen. -/
def State.cellCount (s : State) (x y : Int) (sc col row : Nat) : Nat :=
  s.countOnScreen (x + col * sc) (y + row * sc) sc sc

/-- How many pixels of the spacing column are on screen. -/
def State.spacingCount (s : State) (x y : Int) (sc : Nat) : Nat :=
  s.countOnScreen (x + 5 * sc) y sc (7 * sc)

theorem length_columnPlan_pixels (s : State) (g : Glyph) (x y : Int) (col sc : Nat) (fg bg : Color) :
    ((columnPlan g x y col sc fg bg).flatMap s.primPixels).length =
      ∑ row ∈ Finset.range 7,
        if glyphBit g col row = false ∧ bg = fg then 0 else s.cellCount x y sc col row := by
  rw [columnPlan_eq, List.flatMap_assoc, length_flatMap_range]
  refine Finset.sum_congr rfl fun row _ => ?_
  rw [cellColor_eq]
  split
  · rfl
  · simp [primPixels_cellPrim, length_primPixels_fill, State.cellCount]

/-- A character writes the on-screen pixels of its cells, all of them with a background of its own and
the set ones without, and then those of the spacing column. -/
theorem length_charPlan_pixels (s : State) (x y : Int) (code sc : Nat) (fg bg : Color) :
    ((charPlan s.cfg x y code sc fg bg).flatMap s.primPixels).length =
      (∑ col ∈ Finset.range 5, ∑ row ∈ Finset.range 7,
        if glyphBit (lookupGlyph s.cfg code) col row = false ∧ bg = fg then 0
        else s.cellCount x y sc col row)
      + if bg = fg then 0 else s.spacingCount x y sc := by
  rw [charPlan, List.flatMap_append, List.length_append, List.flatMap_assoc, length_flatMap_range]
  congr 1
  · exact Finset.sum_congr rfl fun col _ => length_columnPlan_pixels ..
  · rw [spacingPlan]
    by_cases h : bg = fg
    · simp [h]
    · simp [h, length_primPixels_fill, State.spacingCount]

theorem length_transparent_pixels (s : State) (x y : Int) (code sc : Nat) (fg : Color) :
    ((charPlan s.cfg x y code sc fg fg).flatMap s.primPixels).length =
      ∑ col ∈ Finset.range 5, ∑ row ∈ Finset.range 7,
        if glyphBit (lookupGlyph s.cfg code) col row then s.cellCount x y sc col row else 0 := by
  rw [length_charPlan_pixels]
  simp only [and_true, if_true, Nat.add_zero]
  refine Finset.sum_congr rfl fun col _ => Finset.sum_congr rfl fun row _ => ?_
  cases glyphBit (lookupGlyph s.cfg code) col row <;> rfl

theorem length_opaque_pixels (s : State) (x y : Int) (code sc : Nat) {fg bg : Color} (h : bg ≠ fg) :
    ((charPlan s.cfg x y code sc fg bg).flatMap s.primPixels).length =
      (∑ col ∈ Finset.range 5, ∑ row ∈ Finset.range 7, s.cellCount x y sc col row)
        + s.spacingCount x y sc := by
  rw [length_charPlan_pixels]
  simp [h]

/-! ### A glyph box on screen (R185) -/

section
variable {s : State} {x y : Int} {sc : Nat} (hsc : 1 ≤ sc) (hx : 0 ≤ x) (hy : 0 ≤ y)
  (hw : x + 6 * sc ≤ s.width.toNat) (hh : y + 7 * sc ≤ s.height.toNat)
include hsc hx hy hw hh

theorem cellCount_of_inside {col row : Nat} (hcol : col < 5) (hrow : row < 7) :
    s.cellCount x y sc col row = sc * sc := by
  have h1 : col * sc + sc ≤ 5 * sc := by
    rw [← Nat.succ_mul]
    exact Nat.mul_le_mul_right sc hcol
  have h2 : row * sc + sc ≤ 7 * sc := by
    rw [← Nat.succ_mul]
    exact Nat.mul_le_mul_right sc hrow
  zify at h1 h2
  have h3 : (0 : Int) ≤ col * sc := by positivity
  have h4 : (0 : Int) ≤ row * sc := by positivity
  exact countOnScreen_of_inside (by omega) (by omega) hsc hsc (by omega) (by omega)

theorem spacingCount_of_inside : s.spacingCount x y sc = 7 * sc * sc := by
  have h := countOnScreen_of_inside (s := s) (x := x + 5 * sc) (y := y) (w := sc) (h := 7 * sc)
    (by omega) hy hsc (by omega) (by omega) (by push_cast; exact hh)
  exact_mod_cast h

end

/-- Settles O53: inside the box every cell and the spacing column are wholly on screen. -/
theorem drawCharWriteCounts : Obligations.DrawCharWriteCounts := by
  intro s x y sc code fg bg hinit hg hc hf hsc hx hy hw hh
  have htrace := (draw_granted (charPlan s.cfg x y code sc fg bg) s hg).1
  refine ⟨_, _, exec_drawChar_of_initDone hinit x y sc code fg bg, htrace, fun hne => ?_, fun heq => ?_⟩
  all_goals rw [lpw_primsEvents s hc hf]
  · have hcells : ∀ col ∈ Finset.range 5, ∑ row ∈ Finset.range 7, s.cellCount x y sc col row
        = 7 * (sc * sc) := fun col hcol => by
      rw [Finset.sum_congr rfl fun row hrow => cellCount_of_inside hsc hx hy hw hh
        (Finset.mem_range.1 hcol) (Finset.mem_range.1 hrow)]
      simp
    rw [length_opaque_pixels s x y code sc hne.symm, Finset.sum_congr rfl hcells,
      spacingCount_of_inside hsc hx hy hw hh]
    simp
    ring
  · subst heq
    rw [length_transparent_pixels, length_flatMap_range, Finset.sum_mul, Finset.sum_mul]
    refine Finset.sum_congr rfl fun col hcol => ?_
    rw [length_filter_range, Finset.sum_mul, Finset.sum_mul]
    refine Finset.sum_congr rfl fun row hrow => ?_
    rw [cellCount_of_inside hsc hx hy hw hh (Finset.mem_range.1 hcol) (Finset.mem_range.1 hrow)]
    change (if (glyphColumn (lookupGlyph s.cfg code) col).getLsbD row then _ else _) = _
    split
    · ring
    · ring

/-- What a background of its own adds: the pixels of the background cells and of the spacing column. -/
def State.backgroundCount (s : State) (g : Glyph) (x y : Int) (sc : Nat) : Nat :=
  (∑ col ∈ Finset.range 5, ∑ row ∈ Finset.range 7,
    if glyphBit g col row then 0 else s.cellCount x y sc col row) + s.spacingCount x y sc

theorem length_opaque_eq_add (s : State) (x y : Int) (code sc : Nat) {fg bg : Color} (h : bg ≠ fg) :
    ((charPlan s.cfg x y code sc fg bg).flatMap s.primPixels).length =
      ((charPlan s.cfg x y code sc fg fg).flatMap s.primPixels).length
        + s.backgroundCount (lookupGlyph s.cfg code) x y sc := by
  rw [length_opaque_pixels s x y code sc h, length_transparent_pixels, State.backgroundCount,
    ← Nat.add_assoc, ← Finset.sum_add_distrib]
  congr 1
  refine Finset.sum_congr rfl fun col _ => ?_
  rw [← Finset.sum_add_distrib]
  refine Finset.sum_congr rfl fun row _ => ?_
  cases glyphBit (lookupGlyph s.cfg code) col row <;> simp

/-- Some background cell has a pixel on screen. -/
theorem backgroundCells_ne_zero {s : State} {g : Glyph} {x y : Int} {sc : Nat} :
    (∑ col ∈ Finset.range 5, ∑ row ∈ Finset.range 7,
        if glyphBit g col row then 0 else s.cellCount x y sc col row) ≠ 0 ↔
      ∃ col row, col < 5 ∧ row < 7 ∧ glyphBit g col row = false ∧ s.cellCount x y sc col row ≠ 0 := by
  simp only [ne_eq, Finset.sum_eq_zero_iff, Finset.mem_range, not_forall, exists_prop]
  refine exists_congr fun col => ?_
  rw [exists_and_left.symm]
  refine exists_congr fun row => and_congr_right fun _ => and_congr_right fun _ => ?_
  cases glyphBit g col row <;> simp

/-- There is something to add exactly if a pixel of a background cell or of the spacing column is on
screen. -/
theorem backgroundCount_ne_zero {s : State} {g : Glyph} {x y : Int} {sc : Nat} :
    s.backgroundCount g x y sc ≠ 0 ↔
      ∃ px py : Int, s.onScreen px py = true
        ∧ ((∃ col row : Nat, col < 5 ∧ row < 7 ∧ (glyphColumn g col).getLsbD row = false
              ∧ x + col * sc ≤ px ∧ px < x + col * sc + sc
              ∧ y + row * sc ≤ py ∧ py < y + row * sc + sc)
            ∨ (x + 5 * sc ≤ px ∧ px < x + 6 * sc ∧ y ≤ py ∧ py < y + 7 * sc)) := by
  have hsplit : s.backgroundCount g x y sc ≠ 0 ↔
      (∃ col row, col < 5 ∧ row < 7 ∧ glyphBit g col row = false ∧ s.cellCount x y sc col row ≠ 0)
        ∨ s.spacingCount x y sc ≠ 0 := by
    rw [← backgroundCells_ne_zero, State.backgroundCount]
    omega
  rw [hsplit]
  constructor
  · rintro (⟨col, row, hcol, hrow, hbit, hcell⟩ | hspacing)
    · obtain ⟨px, py, hon, hrect⟩ := countOnScreen_ne_zero.1 hcell
      exact ⟨px, py, hon, .inl ⟨col, row, hcol, hrow, hbit, hrect⟩⟩
    · obtain ⟨px, py, hon, hrect⟩ := countOnScreen_ne_zero.1 hspacing
      exact ⟨px, py, hon, .inr (by omega)⟩
  · rintro ⟨px, py, hon, ⟨col, row, hcol, hrow, hbit, hrect⟩ | hrect⟩
    · exact .inl ⟨col, row, hcol, hrow, hbit, countOnScreen_ne_zero.2 ⟨px, py, hon, hrect⟩⟩
    · exact .inr (countOnScreen_ne_zero.2 ⟨px, py, hon, by omega⟩)

/-- Settles O54: a background of its own adds its pixels to those of the set cells. -/
theorem transparentBackgroundWritesFewer : Obligations.TransparentBackgroundWritesFewer := by
  intro s x y sc code fg bg hinit hg hc hf hne
  refine ⟨_, _, _, _, exec_drawChar_of_initDone hinit x y sc code fg fg,
    exec_drawChar_of_initDone hinit x y sc code fg bg, (draw_granted _ s hg).1, (draw_granted _ s hg).1, ?_⟩
  rw [lpw_primsEvents s hc hf, lpw_primsEvents s hc hf, length_opaque_eq_add s x y code sc hne,
    ← backgroundCount_ne_zero]
  omega

end Sys2Proof.Machine
end
